-- ==== Sys2Proof/Word.lean ====
section
/-! DEFINITION. The machine word of XC-VM and the readings of rule R6, for every word width `W`. One
register, memory cell or instruction cell is an element of `bits(W)`; it is held as its value
`uint(v)`, a natural number below `2^W`, because `W` is the run-time parameter `Config.width` and so
can stand in no type. That every word is below `2^W` is part of `State.Inv`, and `wrap` is the one way
a computed number becomes a word (DESIGN CHOICE, log entry 1). -/

namespace Sys2Proof

/-- `sint(v)` of rule R6 at width `w`: the two's-complement value of `v`, in `[-2^(w-1), 2^(w-1))`. -/
def sint (w : Nat) (v : Nat) : Int := if v < 2 ^ (w - 1) then v else v - 2 ^ w

/-- `wrap(z)` of rule R6 at width `w`: the one word whose unsigned value is `z mod 2^w`. -/
def wrap (w : Nat) (z : Int) : Nat := (z % 2 ^ w).toNat

end Sys2Proof
end

