-- ==== Sys2Proof/Config.lean ====
section
/-! DEFINITION. The implementation parameters of rule R5 (all but the host-supplied `ENTRY_PC` and
`LAUNCH_FRAME`, which are arguments of the host's `start`). The default
values stand in `Machine/Params.lean`, the default opcode map in `Decode.lean`. -/

namespace Sys2Proof

/-- The 32 mnemonics of rule R2, in the order of rule R85's numbers. -/
inductive Mnemonic where
  | lea | imm | jmp | call | jz | jnz | ent | adj | lev | li | lc | si | sc | push
  | or | xor | and | eq | ne | lt | gt | le | ge | shl | shr | add | sub | mul | div | mod
  | exit | ret
  deriving DecidableEq, Repr

/-- `OPCODE_MAP` of rules R5 and R85, as its rows: an opcode number and the mnemonic it stands for. -/
abbrev OpcodeMap := List (Nat × Mnemonic)

/-- The parameters of rule R5 that stay fixed for a run. No instruction reads or writes them as data;
`State` carries them so that every definition and statement holds for every choice of them
(DESIGN CHOICE, log entry 2). -/
structure Config where
  /-- `W`: the number of bits of every register, memory cell and instruction cell. -/
  width : Nat
  /-- `TEXT_LEN`: number of cells of the TEXT segment. -/
  textLen : Nat
  /-- `DATA_LEN`: number of cells of the DATA segment. -/
  dataLen : Nat
  /-- `STACK_LEN`: number of cells of the STACK segment. -/
  stackLen : Nat
  /-- `TEXT_BASE`: first cell address of TEXT. -/
  textBase : Nat
  /-- `DATA_BASE`: first cell address of DATA. -/
  dataBase : Nat
  /-- `STACK_BASE`: first cell address of STACK. -/
  stackBase : Nat
  /-- `LC_SIGNED`: whether the byte LC reads is sign-extended. -/
  lcSigned : Bool
  /-- `OPCODE_MAP`: the number of each mnemonic. -/
  opcodeMap : OpcodeMap
  deriving DecidableEq, Repr

/-- One past the last TEXT cell. -/
def Config.textEnd (c : Config) : Nat := c.textBase + c.textLen

/-- One past the last DATA cell. -/
def Config.dataEnd (c : Config) : Nat := c.dataBase + c.dataLen

/-- `STACK_TOP` of rule R5: one past the last STACK cell, "not free, derived". -/
def Config.stackTop (c : Config) : Nat := c.stackBase + c.stackLen

end Sys2Proof
end

