-- ==== Sys2Proof/Syntax.lean ====
section
/-! DEFINITION. The instructions of XC-VM: one constructor per row of spec/opcode_table.json, the F1
forms with their operand cell (rules R80, R81, R83, R84). -/

namespace Sys2Proof

/-- An instruction, with the whole operand cell for the eight F1 forms (rule R81). -/
inductive Instr where
  /-- LEA n: load effective address (R129); `n` is read as `sint`. -/
  | lea (n : Nat)
  /-- IMM v: load immediate (R100). -/
  | imm (v : Nat)
  /-- JMP t: unconditional jump (R121). -/
  | jmp (target : Nat)
  /-- CALL t: call a subroutine (R124). -/
  | call (target : Nat)
  /-- JZ t: jump if AX is zero (R122). -/
  | jz (target : Nat)
  /-- JNZ t: jump if AX is not zero (R123). -/
  | jnz (target : Nat)
  /-- ENT n: enter a function (R126); `n` is read as `sint`. -/
  | ent (n : Nat)
  /-- ADJ n: adjust SP (R127); `n` is read as `sint`. -/
  | adj (n : Nat)
  /-- LEV: leave a function (R128). -/
  | lev
  /-- LI: load a cell (R102). -/
  | li
  /-- LC: load a byte (R101). -/
  | lc
  /-- SI: store a cell (R104). -/
  | si
  /-- SC: store a byte (R103). -/
  | sc
  /-- PUSH: push AX (R120). -/
  | push
  /-- OR (R161). -/
  | or
  /-- XOR (R162). -/
  | xor
  /-- AND (R163). -/
  | and
  /-- EQ (R164). -/
  | eq
  /-- NE (R165). -/
  | ne
  /-- LT, signed (R166). -/
  | lt
  /-- GT, signed (R168). -/
  | gt
  /-- LE, signed (R167). -/
  | le
  /-- GE, signed (R169). -/
  | ge
  /-- SHL (R170). -/
  | shl
  /-- SHR, arithmetic (R171). -/
  | shr
  /-- ADD (R172). -/
  | add
  /-- SUB (R173). -/
  | sub
  /-- MUL (R174). -/
  | mul
  /-- DIV, signed, truncating (R175). -/
  | div
  /-- MOD, signed (R176). -/
  | mod
  /-- EXIT: halt and report the stack top (R200). -/
  | exit
  /-- RET: return by popping the return address (R125). -/
  | ret
  deriving DecidableEq, Repr

/-- The instruction's mnemonic. -/
def Instr.mnemonic : Instr → Mnemonic
  | .lea _ => .lea
  | .imm _ => .imm
  | .jmp _ => .jmp
  | .call _ => .call
  | .jz _ => .jz
  | .jnz _ => .jnz
  | .ent _ => .ent
  | .adj _ => .adj
  | .lev => .lev
  | .li => .li
  | .lc => .lc
  | .si => .si
  | .sc => .sc
  | .push => .push
  | .or => .or
  | .xor => .xor
  | .and => .and
  | .eq => .eq
  | .ne => .ne
  | .lt => .lt
  | .gt => .gt
  | .le => .le
  | .ge => .ge
  | .shl => .shl
  | .shr => .shr
  | .add => .add
  | .sub => .sub
  | .mul => .mul
  | .div => .div
  | .mod => .mod
  | .exit => .exit
  | .ret => .ret

/-- The operand cell of an instruction, if its format has one. -/
def Instr.operand? : Instr → Option Nat
  | .lea n => some n
  | .imm v => some v
  | .jmp t => some t
  | .call t => some t
  | .jz t => some t
  | .jnz t => some t
  | .ent n => some n
  | .adj n => some n
  | .lev => none
  | .li => none
  | .lc => none
  | .si => none
  | .sc => none
  | .push => none
  | .or => none
  | .xor => none
  | .and => none
  | .eq => none
  | .ne => none
  | .lt => none
  | .gt => none
  | .le => none
  | .ge => none
  | .shl => none
  | .shr => none
  | .add => none
  | .sub => none
  | .mul => none
  | .div => none
  | .mod => none
  | .exit => none
  | .ret => none

end Sys2Proof
end

