-- ==== Sys2Proof/WellFormed.lean ====
section
/-! DEFINITION. What a well-formed opcode map, configuration and instruction is: the constraints of
rule R5, and an opcode number and an operand that fit one cell each. -/

namespace Sys2Proof

/-- Every mnemonic, once. -/
def Mnemonic.all : List Mnemonic :=
  [.lea, .imm, .jmp, .call, .jz, .jnz, .ent, .adj, .lev, .li, .lc, .si, .sc, .push,
   .or, .xor, .and, .eq, .ne, .lt, .gt, .le, .ge, .shl, .shr, .add, .sub, .mul, .div, .mod,
   .exit, .ret]

/-- An opcode map in the sense of rule R5 ("the number of each mnemonic", "injective"): every mnemonic
has exactly one row, no number stands in two rows, and every number fits one cell of `w` bits. -/
def OpcodeMap.wellFormed (w : Nat) (m : OpcodeMap) : Bool :=
  decide (m.map Prod.fst).Nodup && decide (m.map Prod.snd).Nodup &&
    m.all (fun r => decide (r.1 < 2 ^ w)) &&
    Mnemonic.all.all (fun k => (m.map Prod.snd).contains k)

/-- Two windows of cell addresses, given by base and one past the last cell, share no cell. -/
def windowsDisjoint (base₁ end₁ base₂ end₂ : Nat) : Bool := decide (end₁ ≤ base₂ ∨ end₂ ≤ base₁)

/-- `W` is a power of two. -/
def isPowerOfTwo (w : Nat) : Bool := decide (w = 2 ^ Nat.log2 w)

/-- The constraints rule R5 puts on the parameters: `W` a power of two of at least 16, lengths at least
1, windows disjoint, `STACK_TOP <= 2^(W-1)`, an injective opcode map. That TEXT ends at or below
`STACK_TOP` is stated in rule R23, that every window lies below `2^(W-1)` in decision D32 (DEDUCED, log
entry 14). -/
def Config.wellFormed (c : Config) : Bool :=
  decide (16 ≤ c.width) && isPowerOfTwo c.width &&
    decide (1 ≤ c.textLen) && decide (1 ≤ c.dataLen) && decide (1 ≤ c.stackLen) &&
    windowsDisjoint c.textBase c.textEnd c.dataBase c.dataEnd &&
    windowsDisjoint c.textBase c.textEnd c.stackBase c.stackTop &&
    windowsDisjoint c.dataBase c.dataEnd c.stackBase c.stackTop &&
    decide (c.textEnd ≤ c.stackTop) && decide (c.dataEnd ≤ 2 ^ (c.width - 1)) &&
    decide (c.stackTop ≤ 2 ^ (c.width - 1)) && c.opcodeMap.wellFormed c.width

/-- The number an opcode map gives a mnemonic: that of its first row (one row in a well-formed map). -/
def OpcodeMap.numberOf (m : OpcodeMap) (k : Mnemonic) : Option Nat :=
  (m.find? (fun r => r.2 == k)).map Prod.fst

/-- An instruction is well-formed at width `w` under a map when the map gives its mnemonic a number that
fits one cell and its operand, if it has one, is a word: any `W`-bit value (rule R83). -/
def Instr.wellFormed (w : Nat) (m : OpcodeMap) (i : Instr) : Bool :=
  (m.numberOf i.mnemonic).any (fun n => decide (n < 2 ^ w)) &&
    i.operand?.all (fun v => decide (v < 2 ^ w))

end Sys2Proof
end

