-- ==== Sys2Proof/Decode.lean ====
section
/-! DEFINITION. The decoder (rules R80 to R88), total on any list of cells and refusing by name, and
after it the encoder, from the same tables. -/

namespace Sys2Proof

/-- The default `OPCODE_MAP`: the table of rule R85. The numbers 30 to 36 are reserved (R86). -/
def defaultOpcodeMap : OpcodeMap :=
  [(0, .lea), (1, .imm), (2, .jmp), (3, .call), (4, .jz), (5, .jnz), (6, .ent), (7, .adj),
   (8, .lev), (9, .li), (10, .lc), (11, .si), (12, .sc), (13, .push),
   (14, .or), (15, .xor), (16, .and), (17, .eq), (18, .ne), (19, .lt), (20, .gt), (21, .le),
   (22, .ge), (23, .shl), (24, .shr), (25, .add), (26, .sub), (27, .mul), (28, .div), (29, .mod),
   (37, .exit), (38, .ret)]

/-- Whether an instruction takes an operand cell, format F1 (rule R84). -/
def Mnemonic.hasOperand : Mnemonic → Bool
  | .lea => true
  | .imm => true
  | .jmp => true
  | .call => true
  | .jz => true
  | .jnz => true
  | .ent => true
  | .adj => true
  | .lev => false
  | .li => false
  | .lc => false
  | .si => false
  | .sc => false
  | .push => false
  | .or => false
  | .xor => false
  | .and => false
  | .eq => false
  | .ne => false
  | .lt => false
  | .gt => false
  | .le => false
  | .ge => false
  | .shl => false
  | .shr => false
  | .add => false
  | .sub => false
  | .mul => false
  | .div => false
  | .mod => false
  | .exit => false
  | .ret => false

/-- `Length(ins)` of rule R82: 1 for format F0, 2 for format F1. -/
def Mnemonic.length (k : Mnemonic) : Nat := if k.hasOperand then 2 else 1

/-- The instruction a mnemonic and its operand cell make; an F0 form has no operand and uses none. -/
def Mnemonic.toInstr (k : Mnemonic) (operand : Nat) : Instr :=
  match k with
  | .lea => .lea operand
  | .imm => .imm operand
  | .jmp => .jmp operand
  | .call => .call operand
  | .jz => .jz operand
  | .jnz => .jnz operand
  | .ent => .ent operand
  | .adj => .adj operand
  | .lev => .lev
  | .li => .li
  | .lc => .lc
  | .si => .si
  | .sc => .sc
  | .push => .push
  | .or => .or
  | .xor => .xor
  | .and => .and
  | .eq => .eq
  | .ne => .ne
  | .lt => .lt
  | .gt => .gt
  | .le => .le
  | .ge => .ge
  | .shl => .shl
  | .shr => .shr
  | .add => .add
  | .sub => .sub
  | .mul => .mul
  | .div => .div
  | .mod => .mod
  | .exit => .exit
  | .ret => .ret

/-- The mnemonic the map gives an opcode cell, whose whole `W`-bit value is the opcode (R80, R85); `none`
for an illegal cell (R86). In a map that is not injective the first row wins (log entry 20). -/
def opcodeOf (m : OpcodeMap) (op : Nat) : Option Mnemonic :=
  (m.find? (fun r => r.1 == op)).map Prod.snd

/-- Why a list of cells is no instruction. -/
inductive DecodeError where
  /-- There is no cell at all. -/
  | noCell
  /-- The opcode cell is not a number of the map (R86). -/
  | unknownOpcode (op : Nat)
  /-- The opcode cell names an F1 instruction and no operand cell follows it. -/
  | missingOperand (k : Mnemonic)
  deriving DecidableEq, Repr

/-- Decode the instruction at the head of a list of cells, and the cells after it. The length is told by
the opcode cell alone (R88). -/
def decode (m : OpcodeMap) : List Nat → Except DecodeError (Instr × List Nat)
  | [] => .error .noCell
  | op :: rest =>
    match opcodeOf m op with
    | none => .error (.unknownOpcode op)
    | some k =>
      if k.hasOperand then
        match rest with
        | [] => .error (.missingOperand k)
        | operand :: rest' => .ok (k.toInstr operand, rest')
      else .ok (k.toInstr 0, rest)

/-- The cells of a well-formed instruction (rule R81), at width `w`: the opcode cell `zext(number)`, then
the operand cell of an F1 form. `none` for an instruction that is not well-formed. -/
def encode (w : Nat) (m : OpcodeMap) (i : Instr) : Option (List Nat) :=
  if i.wellFormed w m then (m.numberOf i.mnemonic).map (fun n => n :: i.operand?.toList) else none

/-- The default of the parameter `W` (rule R5, decision D1). -/
def defaultWidth : Nat := 64

/-- Cell number `k`, at width `width`, of an instruction whose bits are `w`, of which `nbits` are given and
the rest are 0: bit 0 of the number is the least significant bit of the first cell, and the second
cell's bits count on from bit `width` (log entry 17). -/
def tableCell (width nbits w k : Nat) : Nat := w % 2 ^ nbits / 2 ^ (width * k) % 2 ^ width

/-- What the decoder reads, under the default width and map, from an instruction whose bits are `w`. -/
def decodeTableWord (nbits w : Nat) : Option Instr :=
  match decode defaultOpcodeMap [tableCell defaultWidth nbits w 0, tableCell defaultWidth nbits w 1] with
  | .ok (i, _) => some i
  | .error _ => none

end Sys2Proof
end

