-- ==== Sys2Proof/Machine/Params.lean ====
section
/-! DEFINITION. The default parameters of rule R5 (decisions D2 to D5), and the three windows they lay
out (rule R51). -/

namespace Sys2Proof.Machine

/-- The defaults of rule R5: words of 64 bits, segments of 32768 cells, TEXT at 0, DATA after TEXT, STACK
after DATA, LC sign-extending, the opcode map of rule R85. -/
def defaultConfig : Config where
  width := defaultWidth
  textLen := 32768
  dataLen := 32768
  stackLen := 32768
  textBase := 0
  dataBase := 32768
  stackBase := 65536
  lcSigned := true
  opcodeMap := defaultOpcodeMap

/-- Cell address `a` lies in the TEXT window (rule R51). -/
def inText (c : Config) (a : Nat) : Bool := decide (c.textBase ≤ a ∧ a < c.textEnd)

/-- Cell address `a` lies in the DATA window (rule R51). -/
def inData (c : Config) (a : Nat) : Bool := decide (c.dataBase ≤ a ∧ a < c.dataEnd)

/-- Cell address `a` lies in the STACK window (rule R51). -/
def inStack (c : Config) (a : Nat) : Bool := decide (c.stackBase ≤ a ∧ a < c.stackTop)

/-- Cell address `a` lies in one of the three windows, so that the cell exists (rules R51, R65). -/
def cellExists (c : Config) (a : Nat) : Bool := inText c a || inData c a || inStack c a

end Sys2Proof.Machine
end

