-- ==== Sys2Proof/Machine/State.lean ====
section
/-! DEFINITION. The state of the machine as plain data (rules R20 to R35), the spec's fault causes, the
reasons a step of the model can stop, and the state after reset. -/

namespace Sys2Proof.Machine

/-- Memory (rules R28, R50): the flat array of `W`-bit cells as a list of (cell address, cell value)
pairs, addresses strictly rising and no value 0, which is what an unlisted cell reads as (R35). The
spec's smallest addressable unit is the cell and it has no byte order, so the entries are cells and
not the bytes of `Host.Cell` (log entry 3). -/
abbrev Memory := List (Nat × Nat)

/-- The three segments (rule R28). -/
inductive Segment where
  | text | data | stack
  deriving DecidableEq, Repr

/-- RUN_STATE (rule R29). -/
inductive RunState where
  | idle | running | halted | faulted
  deriving DecidableEq, Repr

/-- FAULT_CODE (rules R30, R210). -/
inductive FaultCode where
  | none | unknownInstruction | outOfBounds | stackUnderflow | stackOverflow | arithmeticError
  deriving DecidableEq, Repr

/-- FAULT_KIND (rule R30). -/
inductive FaultKind where
  | none | divideByZero
  deriving DecidableEq, Repr

/-- The fault record (rule R30). -/
structure FaultRecord where
  /-- FAULT_CODE. -/
  code : FaultCode
  /-- FAULT_PC: `opc` of the faulting instruction. -/
  pc : Nat
  /-- FAULT_OPCODE: the opcode cell, or 0 when the opcode fetch itself faulted. -/
  opcode : Nat
  /-- FAULT_ADDR: for OutOfBounds the address word, otherwise 0. -/
  addr : Nat
  /-- FAULT_SEG: for OutOfBounds the segment of rule R55; `none` is the spec's NONE (3). -/
  seg : Option Segment
  /-- FAULT_KIND: for ArithmeticError which one, otherwise none. -/
  kind : FaultKind
  deriving DecidableEq, Repr

/-- The state: rules R20 (registers), R28 (memory), R29 (RUN_STATE), R30 (fault record), R31
(EXIT_STATUS). The block has no flags (R27), no control registers (R32) and no hidden state (R33). -/
structure State where
  /-- PC: address of the next instruction cell (R22). -/
  pc : Nat
  /-- SP: the stack pointer (R24). -/
  sp : Nat
  /-- BP: the frame base pointer (R25). -/
  bp : Nat
  /-- AX: the accumulator (R21). -/
  ax : Nat
  /-- TEXT, DATA and STACK (R28). -/
  mem : Memory
  /-- RUN_STATE (R29). -/
  runState : RunState
  /-- The fault record (R30). -/
  fault : FaultRecord
  /-- EXIT_STATUS (R31). -/
  exitStatus : Nat
  /-- The model's own field: the parameters of rule R5, fixed for a run (log entry 2). -/
  cfg : Config
  deriving DecidableEq, Repr

/-- A fault the spec describes, with its payload: the `E(info)` of `raise` (rules R210 to R215, R220).
It is not an outcome of the step: raising it leads to fault entry, a next state (R221, log entry 5). -/
inductive FaultCause where
  /-- UnknownInstruction (R211). -/
  | unknownInstruction
  /-- OutOfBounds(address, segment) (R212, R55). -/
  | outOfBounds (addr : Nat) (seg : Option Segment)
  /-- StackUnderflow (R213). -/
  | stackUnderflow
  /-- StackOverflow (R214). -/
  | stackOverflow
  /-- ArithmeticError(DivideByZero) (R215). -/
  | divideByZero
  deriving DecidableEq, Repr

/-- How an instruction's pseudocode can end early. -/
inductive Stop where
  /-- `raise E(info)` of the spec (R220). -/
  | raise (cause : FaultCause)
  /-- The pseudocode names a cell no window holds; see `Fault.noSuchCell`. -/
  | noCell (addr : Nat)
  deriving DecidableEq, Repr

/-- Why a step of the model stops with no next state. The spec's own faults are NOT here: they are next
states with RUN_STATE FAULTED (R221). -/
inductive Fault where
  /-- A stack access (`Push`, `Pop`, EXIT's read) names a cell address in no window. Raised by `readCell`
  and `writeCell`, and only from a state whose SP is outside `[STACK_BASE, STACK_TOP]`, which rule R24
  excludes and no run reaches. SAFE: the model stops, no cell is invented (log entry 6). -/
  | noSuchCell (addr : Nat)
  deriving DecidableEq, Repr

/-- Why the model gives no meaning to something asked of it. -/
inductive Refusal where
  /-- An instruction whose arm is not modelled yet. Raised by a refused arm of `exec`; there is none.
  SAFE: the model stops. -/
  | notModelled (mnemonic : String)
  /-- The host asks for a load or a start while RUN_STATE is not IDLE: rule R254 does not offer it and
  item U15 says `refuse`. Raised by `loadText`, `loadData` and `start`. SAFE. -/
  | notIdle
  /-- The host's C-main launch frame has a RET_STUB that is no TEXT address, against the constraint of rule
  R5. Raised by `start` only. SAFE (log entry 23). -/
  | retStubNotInText
  /-- The C-main launch frame does not fit the stack (rule R5 asks `STACK_LEN >= 3`). Raised by `start`
  only. SAFE (log entry 13). -/
  | launchFrameDoesNotFit
  deriving DecidableEq, Repr

/-- The fault record after reset (rule R35). -/
def FaultRecord.empty : FaultRecord where
  code := .none
  pc := 0
  opcode := 0
  addr := 0
  seg := none
  kind := .none

/-- The state reset leaves, for given parameters: the table of rule R35. -/
def State.initial (c : Config) : State where
  pc := wrap c.width c.textBase
  sp := wrap c.width c.stackTop
  bp := wrap c.width c.stackTop
  ax := 0
  mem := []
  runState := .idle
  fault := FaultRecord.empty
  exitStatus := 0
  cfg := c

/-- The machine right after reset, with the default parameters of rule R5. -/
def State.reset : State := State.initial defaultConfig

end Sys2Proof.Machine
end

