-- ==== Sys2Proof/Machine/Flags.lean ====
section
/-! DEFINITION. The block has no flags, condition codes or predicate registers (rule R27). What stands
in their place: the 0-or-1 word a comparison writes to AX, and the test of AX by JZ and JNZ. -/

namespace Sys2Proof.Machine

/-- `(test) ? 1 : 0`, the result of a comparison (R164 to R169). -/
def boolWord (b : Bool) : Nat := if b then 1 else 0

/-- JZ's and JNZ's test: all `W` bits of AX are 0 (R122). -/
def axIsZero (s : State) : Bool := decide (s.ax = 0)

end Sys2Proof.Machine
end

