-- ==== Sys2Proof/Machine/Alu.lean ====
section
/-! DEFINITION. The functions of the 16 binary operators (rules R161 to R177), at every width `w`: exact
integer arithmetic on `uint` or `sint`, then one explicit `wrap`; the corners the spec itself decided
are in log entry 19. `l` is the popped left operand, `r` is AX. -/

namespace Sys2Proof.Machine

/-- R161. -/
def aluOr (l r : Nat) : Nat := l ||| r

/-- R162. -/
def aluXor (l r : Nat) : Nat := l ^^^ r

/-- R163. -/
def aluAnd (l r : Nat) : Nat := l &&& r

/-- R164. -/
def aluEq (l r : Nat) : Nat := boolWord (decide (l = r))

/-- R165. -/
def aluNe (l r : Nat) : Nat := boolWord (decide (l ≠ r))

/-- R166, signed. -/
def aluLt (w : Nat) (l r : Nat) : Nat := boolWord (decide (sint w l < sint w r))

/-- R167, signed. -/
def aluLe (w : Nat) (l r : Nat) : Nat := boolWord (decide (sint w l ≤ sint w r))

/-- R168, signed. -/
def aluGt (w : Nat) (l r : Nat) : Nat := boolWord (decide (sint w l > sint w r))

/-- R169, signed. -/
def aluGe (w : Nat) (l r : Nat) : Nat := boolWord (decide (sint w l ≥ sint w r))

/-- The shift count `uint(r[log2(W)-1:0])` of rules R170 and R171. -/
def shiftCount (w : Nat) (r : Nat) : Nat := r % 2 ^ Nat.log2 w

/-- R170, logical. -/
def aluShl (w : Nat) (l r : Nat) : Nat := wrap w (l * 2 ^ shiftCount w r)

/-- R171, arithmetic: `floor(sint(l) / 2^s)`. -/
def aluShr (w : Nat) (l r : Nat) : Nat := wrap w (Int.fdiv (sint w l) (2 ^ shiftCount w r))

/-- R172. -/
def aluAdd (w : Nat) (l r : Nat) : Nat := wrap w (l + r)

/-- R173: left minus right. -/
def aluSub (w : Nat) (l r : Nat) : Nat := wrap w (l - r)

/-- R174: the low half of the product. -/
def aluMul (w : Nat) (l r : Nat) : Nat := wrap w (sint w l * sint w r)

/-- R175: the quotient truncated toward zero; a divisor of 0 raises ArithmeticError(DivideByZero). -/
def aluDiv (w : Nat) (l r : Nat) : Except Stop Nat :=
  if r = 0 then .error (.raise .divideByZero) else .ok (wrap w (Int.tdiv (sint w l) (sint w r)))

/-- R176: the remainder of that quotient; a divisor of 0 raises ArithmeticError(DivideByZero). -/
def aluMod (w : Nat) (l r : Nat) : Except Stop Nat :=
  if r = 0 then .error (.raise .divideByZero)
  else .ok (wrap w (sint w l - Int.tdiv (sint w l) (sint w r) * sint w r))

end Sys2Proof.Machine
end

