-- ==== Sys2Proof/Machine/Memory.lean ====
section
/-! DEFINITION. Reading and writing one cell of the canonical memory list, and that list's form. -/

namespace Sys2Proof.Machine

/-- The value of the cell at an address; a cell that is not listed holds 0, its reset value (R35, R52; log entry 4). -/
def Memory.read : Memory → Nat → Nat
  | [], _ => 0
  | (b, x) :: m, a => if a = b then x else Memory.read m a

/-- Set the cell at an address (R52). Writing 0 removes the entry, so that equal memories are equal lists. -/
def Memory.write : Memory → Nat → Nat → Memory
  | [], a, v => if v = 0 then [] else [(a, v)]
  | (b, x) :: m, a, v =>
    if a < b then (if v = 0 then (b, x) :: m else (a, v) :: (b, x) :: m)
    else if a = b then (if v = 0 then m else (a, v) :: m)
    else (b, x) :: Memory.write m a v

/-- The canonical form: addresses strictly rising, no entry equal to what an unlisted cell reads as. -/
abbrev Memory.wf (m : Memory) : Prop :=
  (m.map Prod.fst).Pairwise (· < ·) ∧ ∀ e ∈ m, e.2 ≠ 0

/-- Write a list of values to consecutive cells. -/
def Memory.writeList : Memory → Nat → List Nat → Memory
  | m, _, [] => m
  | m, a, v :: vs => Memory.writeList (Memory.write m a v) (a + 1) vs

end Sys2Proof.Machine
end

