-- ==== Sys2Proof/Machine/Ops.lean ====
section
/-! DEFINITION. The named operations every instruction uses: the access primitives of rules R53 to R62,
fault entry (R221) and the transaction each instruction is (R9). The block has no return from a
fault (R222), so none stands beside fault entry. -/

namespace Sys2Proof.Machine

/-- The access controller's `Decode(w)` (rule R53): the segment and offset an address word names, or
`none`. The word is read unsigned (D32), which is the number it is held as. -/
def decodeAddress (c : Config) (w : Nat) : Option (Segment × Nat) :=
  if inText c w then some (.text, w - c.textBase)
  else if inData c w then some (.data, w - c.dataBase)
  else if inStack c w then some (.stack, w - c.stackBase)
  else none

/-- Read the cell at an address of the stack pseudocode; an address no window holds names no cell (R65). -/
def readCell (a : Nat) (s : State) : Except Stop Nat :=
  if cellExists s.cfg a then .ok (s.mem.read a) else .error (.noCell a)

/-- Write the cell at an address of the stack pseudocode; an address no window holds names no cell (R65). -/
def writeCell (a : Nat) (v : Nat) (s : State) : Except Stop State :=
  if cellExists s.cfg a then .ok { s with mem := s.mem.write a v } else .error (.noCell a)

/-- `Fetch(a)` (rule R56): one whole cell of TEXT. -/
def fetchCell (a : Nat) (s : State) : Except FaultCause Nat :=
  if inText s.cfg a then .ok (s.mem.read a) else .error (.outOfBounds (wrap s.cfg.width a) (some .text))

/-- `MemRead(w, W)` (rule R57): a data read of a whole cell, from any segment. -/
def memRead (w : Nat) (s : State) : Except Stop Nat :=
  match decodeAddress s.cfg w with
  | none => .error (.raise (.outOfBounds w none))
  | some _ => .ok (s.mem.read w)

/-- `v[7:0]`, the byte of a cell (rules R6, R59). -/
def lowByte (v : Nat) : BitVec 8 := BitVec.ofNat 8 v

/-- `MemRead(w, 8)` (rules R57, R59): bits `[7:0]` of the cell. -/
def memReadByte (w : Nat) (s : State) : Except Stop (BitVec 8) :=
  match memRead w s with
  | .ok c => .ok (lowByte c)
  | .error e => .error e

/-- `MemWrite(w, W, v)` (rule R58): DATA and STACK may be written, TEXT not. -/
def memWrite (w v : Nat) (s : State) : Except Stop State :=
  match decodeAddress s.cfg w with
  | none => .error (.raise (.outOfBounds w none))
  | some (.text, _) => .error (.raise (.outOfBounds w (some .text)))
  | some _ => .ok { s with mem := s.mem.write w v }

/-- `M[a][W-1:8] ++ v[7:0]` (rules R58, R59): a cell with its byte replaced. -/
def replaceByte (c : Nat) (b : BitVec 8) : Nat := c / 2 ^ 8 * 2 ^ 8 + b.toNat

/-- `MemWrite(w, 8, v)` (rule R58): bits `[7:0]` change, bits `[W-1:8]` stay. -/
def memWriteByte (w : Nat) (b : BitVec 8) (s : State) : Except Stop State :=
  memWrite w (replaceByte (s.mem.read w) b) s

/-- `Push(v)` (rule R60). -/
def push (v : Nat) (s : State) : Except Stop State :=
  if s.sp ≤ s.cfg.stackBase then .error (.raise .stackOverflow)
  else writeCell (wrap s.cfg.width (s.sp - 1)) v { s with sp := wrap s.cfg.width (s.sp - 1) }

/-- `Pop()` (rule R61): the value and the state with SP moved; the cell keeps its value (R34). -/
def pop (s : State) : Except Stop (Nat × State) :=
  if s.cfg.stackTop ≤ s.sp then .error (.raise .stackUnderflow)
  else
    match readCell s.sp s with
    | .ok v => .ok (v, { s with sp := wrap s.cfg.width (s.sp + 1) })
    | .error e => .error e

/-- `SetSP(z)` (rule R62), on a mathematical integer. -/
def setSP (z : Int) (s : State) : Except Stop State :=
  if z < s.cfg.stackBase then .error (.raise .stackOverflow)
  else if (s.cfg.stackTop : Int) < z then .error (.raise .stackUnderflow)
  else .ok { s with sp := wrap s.cfg.width z }

/-- FAULT_CODE of a cause (rule R210). -/
def FaultCause.code : FaultCause → FaultCode
  | .unknownInstruction => .unknownInstruction
  | .outOfBounds _ _ => .outOfBounds
  | .stackUnderflow => .stackUnderflow
  | .stackOverflow => .stackOverflow
  | .divideByZero => .arithmeticError

/-- FAULT_ADDR of a cause: the address word of an OutOfBounds, else 0 (R221). -/
def FaultCause.addr : FaultCause → Nat
  | .unknownInstruction => 0
  | .outOfBounds a _ => a
  | .stackUnderflow => 0
  | .stackOverflow => 0
  | .divideByZero => 0

/-- FAULT_SEG of a cause: the segment of an OutOfBounds, else NONE (R221). -/
def FaultCause.seg : FaultCause → Option Segment
  | .unknownInstruction => none
  | .outOfBounds _ g => g
  | .stackUnderflow => none
  | .stackOverflow => none
  | .divideByZero => none

/-- FAULT_KIND of a cause: DivideByZero for an ArithmeticError, else none (R221). -/
def FaultCause.kind : FaultCause → FaultKind
  | .unknownInstruction => .none
  | .outOfBounds _ _ => .none
  | .stackUnderflow => .none
  | .stackOverflow => .none
  | .divideByZero => .divideByZero

/-- Fault entry (rule R221), from the state before the instruction's fetch: the record is written,
RUN_STATE becomes FAULTED, everything else keeps its value. `opcode` is the opcode cell, or 0 when
the opcode fetch itself faulted. -/
def enterFault (opcode : Nat) (e : FaultCause) (s : State) : State :=
  { s with
    fault :=
      { code := e.code, pc := s.pc, opcode := opcode, addr := e.addr, seg := e.seg, kind := e.kind }
    runState := .faulted }

/-- The opcode cell of the instruction at PC (rule R10's `opc`; log entry 9). -/
def opcodeCell (s : State) : Nat := s.mem.read s.pc

/-- The advance of PC at fetch (rule R82): `PC <- wrap(opc + Length)`. -/
def advance (n : Nat) (s : State) : State := { s with pc := wrap s.cfg.width (s.pc + n) }

/-- One instruction as a transaction (rules R9, R82, R220, R221): PC is advanced by the instruction's
length, its pseudocode runs, and a raised fault discards every write and enters the fault from the
state before the fetch. -/
def transact (length : Nat) (body : State → Except Stop State) (s : State) :
    Host.Outcome State Fault Refusal :=
  match body (advance length s) with
  | .ok t => .next t
  | .error (.raise e) => .next (enterFault (opcodeCell s) e s)
  | .error (.noCell a) => .fault (.noSuchCell a)

end Sys2Proof.Machine
end

