-- ==== Sys2Proof/Machine/Operands.lean ====
section
/-! DEFINITION. The operand forms: the three readings of an operand cell (rule R83), the extension of a
byte (R101, R103), and the shared operand rule of the binary operators (R160). -/

namespace Sys2Proof.Machine

/-- IMM's reading of its operand cell: the value, bit for bit (R83). -/
def operandValue (operand : Nat) : Nat := operand

/-- The reading of JMP, JZ, JNZ and CALL: a target cell address, bit for bit (R83). -/
def operandTarget (operand : Nat) : Nat := operand

/-- The reading of ENT, ADJ and LEA: a signed count of cells, `sint(operand)` at width `w` (R83). -/
def operandCount (w : Nat) (operand : Nat) : Int := sint w operand

/-- `sext_8` of rule R6 to width `w`. -/
def sext8 (w : Nat) (b : BitVec 8) : Nat := wrap w b.toInt

/-- `zext_8` of rule R6. -/
def zext8 (b : BitVec 8) : Nat := b.toNat

/-- A byte as LC leaves it in AX, under the parameters `W` and `LC_SIGNED` (R5, R101). -/
def extendByte (c : Config) (b : BitVec 8) : Nat := if c.lcSigned then sext8 c.width b else zext8 b

/-- `BinaryOp(f)` (rule R160): the left operand is popped, the right is AX, the result goes to AX. The
function is given the width. -/
def binaryOp (f : Nat → Nat → Nat → Except Stop Nat) (s : State) : Except Stop State :=
  match pop s with
  | .error e => .error e
  | .ok (left, s₁) =>
    match f s₁.cfg.width left s₁.ax with
    | .error e => .error e
    | .ok v => .ok { s₁ with ax := v }

/-- `BinaryOp(f)` for an operator that cannot fault. -/
def pureBinaryOp (f : Nat → Nat → Nat → Nat) (s : State) : Except Stop State :=
  binaryOp (fun w l r => .ok (f w l r)) s

end Sys2Proof.Machine
end

