-- ==== Sys2Proof/Machine/ArithLogic.lean ====
section
/-! DEFINITION. The 16 binary operators OR to MOD (rules R160 to R177), each the shared operand rule over
its function of `Machine/Alu.lean`. -/

namespace Sys2Proof.Machine

/-- OR (R161): bitwise or. -/
def execOr (s : State) : Host.Outcome State Fault Refusal := transact 1 (pureBinaryOp fun _ => aluOr) s

/-- XOR (R162): bitwise exclusive or. -/
def execXor (s : State) : Host.Outcome State Fault Refusal := transact 1 (pureBinaryOp fun _ => aluXor) s

/-- AND (R163): bitwise and. -/
def execAnd (s : State) : Host.Outcome State Fault Refusal := transact 1 (pureBinaryOp fun _ => aluAnd) s

/-- EQ (R164): equal. -/
def execEq (s : State) : Host.Outcome State Fault Refusal := transact 1 (pureBinaryOp fun _ => aluEq) s

/-- NE (R165): not equal. -/
def execNe (s : State) : Host.Outcome State Fault Refusal := transact 1 (pureBinaryOp fun _ => aluNe) s

/-- LT (R166): less than, signed. -/
def execLt (s : State) : Host.Outcome State Fault Refusal := transact 1 (pureBinaryOp aluLt) s

/-- LE (R167): less than or equal, signed. -/
def execLe (s : State) : Host.Outcome State Fault Refusal := transact 1 (pureBinaryOp aluLe) s

/-- GT (R168): greater than, signed. -/
def execGt (s : State) : Host.Outcome State Fault Refusal := transact 1 (pureBinaryOp aluGt) s

/-- GE (R169): greater than or equal, signed. -/
def execGe (s : State) : Host.Outcome State Fault Refusal := transact 1 (pureBinaryOp aluGe) s

/-- SHL (R170): shift left, count masked to `log2(W)` bits. -/
def execShl (s : State) : Host.Outcome State Fault Refusal := transact 1 (pureBinaryOp aluShl) s

/-- SHR (R171): arithmetic shift right, count masked to `log2(W)` bits. -/
def execShr (s : State) : Host.Outcome State Fault Refusal := transact 1 (pureBinaryOp aluShr) s

/-- ADD (R172): add modulo `2^W`. -/
def execAdd (s : State) : Host.Outcome State Fault Refusal := transact 1 (pureBinaryOp aluAdd) s

/-- SUB (R173): left minus right modulo `2^W`. -/
def execSub (s : State) : Host.Outcome State Fault Refusal := transact 1 (pureBinaryOp aluSub) s

/-- MUL (R174): the low `W` bits of the product. -/
def execMul (s : State) : Host.Outcome State Fault Refusal := transact 1 (pureBinaryOp aluMul) s

/-- DIV (R175): signed quotient, truncated toward zero; StackUnderflow is checked before the divisor. -/
def execDiv (s : State) : Host.Outcome State Fault Refusal := transact 1 (binaryOp aluDiv) s

/-- MOD (R176): remainder with the sign of the dividend; StackUnderflow is checked before the divisor. -/
def execMod (s : State) : Host.Outcome State Fault Refusal := transact 1 (binaryOp aluMod) s

end Sys2Proof.Machine
end

