-- ==== Sys2Proof/Machine/MemoryAccess.lean ====
section
/-! DEFINITION. The memory-access instructions IMM, LC, LI, SC and SI (rules R100 to R104). `pseudoX` is the
rule's pseudocode, run after the fetch has advanced PC (R10); `execX` is the instruction. -/

namespace Sys2Proof.Machine

/-- `AX <- operand` (R100). -/
def pseudoImm (v : Nat) (s : State) : Except Stop State := .ok { s with ax := operandValue v }

/-- IMM (R100). -/
def execImm (v : Nat) (s : State) : Host.Outcome State Fault Refusal := transact 2 (pseudoImm v) s

/-- AX gets the byte at address AX, extended by `LC_SIGNED` (R101). -/
def pseudoLc (s : State) : Except Stop State :=
  match memReadByte s.ax s with
  | .ok b => .ok { s with ax := extendByte s.cfg b }
  | .error e => .error e

/-- LC (R101). -/
def execLc (s : State) : Host.Outcome State Fault Refusal := transact 1 pseudoLc s

/-- AX gets the cell at address AX (R102). -/
def pseudoLi (s : State) : Except Stop State :=
  match memRead s.ax s with
  | .ok v => .ok { s with ax := v }
  | .error e => .error e

/-- LI (R102). -/
def execLi (s : State) : Host.Outcome State Fault Refusal := transact 1 pseudoLi s

/-- Pop an address, store `AX[7:0]` there, leave the byte in AX as LC would read it back (R103). -/
def pseudoSc (s : State) : Except Stop State :=
  match pop s with
  | .error e => .error e
  | .ok (a, s₁) =>
    match memWriteByte a (lowByte s₁.ax) s₁ with
    | .error e => .error e
    | .ok s₂ => .ok { s₂ with ax := extendByte s₂.cfg (lowByte s₂.ax) }

/-- SC (R103). -/
def execSc (s : State) : Host.Outcome State Fault Refusal := transact 1 pseudoSc s

/-- Pop an address, store AX there (R104). -/
def pseudoSi (s : State) : Except Stop State :=
  match pop s with
  | .error e => .error e
  | .ok (a, s₁) => memWrite a s₁.ax s₁

/-- SI (R104). -/
def execSi (s : State) : Host.Outcome State Fault Refusal := transact 1 pseudoSi s

end Sys2Proof.Machine
end

