-- ==== Sys2Proof/Machine/StackControl.lean ====
section
/-! DEFINITION. The stack and control-flow instructions PUSH, JMP, JZ, JNZ, CALL, RET, ENT, ADJ, LEV and
LEA (rules R120 to R129): the call-frame sequencer is CALL, ENT, ADJ, LEV and RET. `pseudoX` is the
rule's pseudocode, run after the fetch has advanced PC (R10); `execX` is the instruction. -/

namespace Sys2Proof.Machine

/-- `Push(AX)` (R120). -/
def pseudoPush (s : State) : Except Stop State := push s.ax s

/-- PUSH (R120). -/
def execPush (s : State) : Host.Outcome State Fault Refusal := transact 1 pseudoPush s

/-- `PC <- operand`, unchecked until the next fetch (R121). -/
def pseudoJmp (target : Nat) (s : State) : Except Stop State := .ok { s with pc := operandTarget target }

/-- JMP (R121). -/
def execJmp (target : Nat) (s : State) : Host.Outcome State Fault Refusal := transact 2 (pseudoJmp target) s

/-- Jump when AX is 0, else PC keeps `opc + 2` (R122). -/
def pseudoJz (target : Nat) (s : State) : Except Stop State :=
  if axIsZero s then .ok { s with pc := operandTarget target } else .ok s

/-- JZ (R122). -/
def execJz (target : Nat) (s : State) : Host.Outcome State Fault Refusal := transact 2 (pseudoJz target) s

/-- Jump when AX is not 0, else PC keeps `opc + 2` (R123). -/
def pseudoJnz (target : Nat) (s : State) : Except Stop State :=
  if axIsZero s then .ok s else .ok { s with pc := operandTarget target }

/-- JNZ (R123). -/
def execJnz (target : Nat) (s : State) : Host.Outcome State Fault Refusal := transact 2 (pseudoJnz target) s

/-- Push the return address `opc + 2`, which the fetch left in PC, then `PC <- operand` (R124). -/
def pseudoCall (target : Nat) (s : State) : Except Stop State :=
  match push s.pc s with
  | .error e => .error e
  | .ok s₁ => .ok { s₁ with pc := operandTarget target }

/-- CALL (R124). -/
def execCall (target : Nat) (s : State) : Host.Outcome State Fault Refusal := transact 2 (pseudoCall target) s

/-- `PC <- Pop()` (R125). -/
def pseudoRet (s : State) : Except Stop State :=
  match pop s with
  | .error e => .error e
  | .ok (v, s₁) => .ok { s₁ with pc := v }

/-- RET (R125). -/
def execRet (s : State) : Host.Outcome State Fault Refusal := transact 1 pseudoRet s

/-- Push BP, let BP be the saved-BP cell, reserve the local cells below it (R126). -/
def pseudoEnt (n : Nat) (s : State) : Except Stop State :=
  match push s.bp s with
  | .error e => .error e
  | .ok s₁ => setSP (s₁.sp - operandCount s₁.cfg.width n) { s₁ with bp := s₁.sp }

/-- ENT (R126). -/
def execEnt (n : Nat) (s : State) : Host.Outcome State Fault Refusal := transact 2 (pseudoEnt n) s

/-- `SetSP(uint(SP) + sint(operand))` (R127). -/
def pseudoAdj (n : Nat) (s : State) : Except Stop State := setSP (s.sp + operandCount s.cfg.width n) s

/-- ADJ (R127). -/
def execAdj (n : Nat) (s : State) : Host.Outcome State Fault Refusal := transact 2 (pseudoAdj n) s

/-- SP from BP, then pop BP, then pop PC (R128). -/
def pseudoLev (s : State) : Except Stop State :=
  match setSP s.bp s with
  | .error e => .error e
  | .ok s₁ =>
    match pop s₁ with
    | .error e => .error e
    | .ok (savedBp, s₂) =>
      match pop { s₂ with bp := savedBp } with
      | .error e => .error e
      | .ok (returnPc, s₃) => .ok { s₃ with pc := returnPc }

/-- LEV (R128). -/
def execLev (s : State) : Host.Outcome State Fault Refusal := transact 1 pseudoLev s

/-- `AX <- wrap(uint(BP) + sint(operand))`, no check (R129). -/
def pseudoLea (n : Nat) (s : State) : Except Stop State :=
  .ok { s with ax := wrap s.cfg.width (s.bp + operandCount s.cfg.width n) }

/-- LEA (R129). -/
def execLea (n : Nat) (s : State) : Host.Outcome State Fault Refusal := transact 2 (pseudoLea n) s

end Sys2Proof.Machine
end

