-- ==== Sys2Proof/Machine/Termination.lean ====
section
/-! DEFINITION. EXIT, the one instruction that ends a run normally (rules R200 to R202). -/

namespace Sys2Proof.Machine

/-- EXIT_STATUS gets the stack top, which is not popped, and RUN_STATE becomes HALTED (R200). -/
def pseudoExit (s : State) : Except Stop State :=
  if s.cfg.stackTop ≤ s.sp then .error (.raise .stackUnderflow)
  else
    match readCell s.sp s with
    | .error e => .error e
    | .ok v => .ok { s with exitStatus := v, runState := .halted }

/-- EXIT (R200). -/
def execExit (s : State) : Host.Outcome State Fault Refusal := transact 1 pseudoExit s

end Sys2Proof.Machine
end

