-- ==== Sys2Proof/Machine/Dispatch.lean ====
section
/-! DEFINITION. The dispatch of an instruction to its meaning, one arm per constructor. -/

namespace Sys2Proof.Machine

def exec (i : Instr) (s : State) : Host.Outcome State Fault Refusal :=
  match i with
  | .lea x => Sys2Proof.Machine.execLea x s
  | .imm x => Sys2Proof.Machine.execImm x s
  | .jmp x => Sys2Proof.Machine.execJmp x s
  | .call x => Sys2Proof.Machine.execCall x s
  | .jz x => Sys2Proof.Machine.execJz x s
  | .jnz x => Sys2Proof.Machine.execJnz x s
  | .ent x => Sys2Proof.Machine.execEnt x s
  | .adj x => Sys2Proof.Machine.execAdj x s
  | .lev => Sys2Proof.Machine.execLev s
  | .li => Sys2Proof.Machine.execLi s
  | .lc => Sys2Proof.Machine.execLc s
  | .si => Sys2Proof.Machine.execSi s
  | .sc => Sys2Proof.Machine.execSc s
  | .push => Sys2Proof.Machine.execPush s
  | .or => Sys2Proof.Machine.execOr s
  | .xor => Sys2Proof.Machine.execXor s
  | .and => Sys2Proof.Machine.execAnd s
  | .eq => Sys2Proof.Machine.execEq s
  | .ne => Sys2Proof.Machine.execNe s
  | .lt => Sys2Proof.Machine.execLt s
  | .gt => Sys2Proof.Machine.execGt s
  | .le => Sys2Proof.Machine.execLe s
  | .ge => Sys2Proof.Machine.execGe s
  | .shl => Sys2Proof.Machine.execShl s
  | .shr => Sys2Proof.Machine.execShr s
  | .add => Sys2Proof.Machine.execAdd s
  | .sub => Sys2Proof.Machine.execSub s
  | .mul => Sys2Proof.Machine.execMul s
  | .div => Sys2Proof.Machine.execDiv s
  | .mod => Sys2Proof.Machine.execMod s
  | .exit => Sys2Proof.Machine.execExit s
  | .ret => Sys2Proof.Machine.execRet s

end Sys2Proof.Machine
end

