-- ==== Sys2Proof/Machine/Fetch.lean ====
section
/-! DEFINITION. Fetch and decode (rules R56, R82, R88), and the laying of an instruction's cells where
the next fetch reads them. -/

namespace Sys2Proof.Machine

/-- `FetchDecode()` of rule R82 up to the decoded instruction: the instruction at PC, or the state after
fault entry when the opcode fetch, the decoding or the operand fetch raises (R217's order). The
operand cell is fetched whether or not the instruction then uses it. -/
def fetchDecode (s : State) : Except State Instr :=
  match fetchCell (s.pc) s with
  | .error e => .error (enterFault 0 e s)
  | .ok op =>
    match opcodeOf s.cfg.opcodeMap op with
    | none => .error (enterFault op .unknownInstruction s)
    | some k =>
      if k.hasOperand then
        match fetchCell (s.pc + 1) s with
        | .error e => .error (enterFault op e s)
        | .ok operand => .ok (k.toInstr operand)
      else .ok (k.toInstr 0)

/-- Where `placeCells` puts an instruction: at PC when the two cells from PC lie in TEXT, else at
`TEXT_BASE`. -/
def placeAddress (s : State) : Nat :=
  if inText s.cfg (s.pc) && inText s.cfg (s.pc + 1) then s.pc else s.cfg.textBase

/-- The state with two cells loaded where the next fetch reads them and the run started: the host's load
and start (rules R251, R252) for one instruction (log entry 8). -/
def placeCells (op operand : Nat) (s : State) : State :=
  { s with
    pc := wrap s.cfg.width (placeAddress s)
    mem := (s.mem.write (placeAddress s) op).write (placeAddress s + 1) operand
    runState := .running }

end Sys2Proof.Machine
end

