-- ==== Sys2Proof/Machine/Step.lean ====
section
/-! DEFINITION. One step (rules R235, R236), and the placing of one instruction for it. -/

namespace Sys2Proof.Machine

/-- `step()` of rule R235: one instruction when RUNNING; in IDLE, HALTED and FAULTED nothing changes
(R236). What the host is told is `stepReport`, in `Machine/HostInterface.lean` (log entry 7). -/
def step (s : State) : Host.Outcome State Fault Refusal :=
  match s.runState with
  | .running =>
    match fetchDecode s with
    | .ok i => exec i s
    | .error t => .next t
  | .idle => .next s
  | .halted => .next s
  | .faulted => .next s

/-- `s` with the instruction whose bits are `w` stored where `step` fetches its next instruction, and
RUNNING, as the host's load and start leave it (log entry 8). -/
def State.withFetchWord (s : State) (nbits w : Nat) : State :=
  placeCells (tableCell s.cfg.width nbits w 0) (tableCell s.cfg.width nbits w 1) s

end Sys2Proof.Machine
end

