-- ==== Sys2Proof/Machine/HostInterface.lean ====
section
/-! DEFINITION. The host's interactions (rules R229, R235 to R238, R250 to R255): reset, load, start, the
report of a step, reading between steps, and `run`. The step itself never calls them (log entry 11). -/

namespace Sys2Proof.Machine

/-- The number of a RUN_STATE value (rule R29). -/
def RunState.number : RunState → Nat
  | .idle => 0
  | .running => 1
  | .halted => 2
  | .faulted => 3

/-- The number of a FAULT_CODE (rule R210). -/
def FaultCode.number : FaultCode → Nat
  | .none => 0
  | .unknownInstruction => 1
  | .outOfBounds => 2
  | .stackUnderflow => 3
  | .stackOverflow => 4
  | .arithmeticError => 5

/-- The number of a FAULT_SEG value (rule R30): NONE is 3. -/
def segmentNumber : Option Segment → Nat
  | some .text => 0
  | some .data => 1
  | some .stack => 2
  | none => 3

/-- The number of a FAULT_KIND value (rule R30). -/
def FaultKind.number : FaultKind → Nat
  | .none => 0
  | .divideByZero => 1

/-- What `step()` returns (rule R235); an error is a typed result (R238). -/
inductive StepReport where
  /-- Continue: the block is RUNNING. -/
  | continues
  /-- Exited(EXIT_STATUS): HALTED. -/
  | exited (status : Nat)
  /-- Error(fault record): FAULTED. -/
  | error (record : FaultRecord)
  /-- NotStarted: IDLE. -/
  | notStarted
  deriving DecidableEq, Repr

/-- The report of the state a step leaves (rule R235). -/
def stepReport (s : State) : StepReport :=
  match s.runState with
  | .idle => .notStarted
  | .running => .continues
  | .halted => .exited s.exitStatus
  | .faulted => .error s.fault

/-- The host's reset (rule R250): the state of rule R35, whatever state the block was in. The parameters
are the block's own and stay. -/
def hostReset (s : State) : State := State.initial s.cfg

/-- The host's read of a cell between steps (rules R229, R254); `none` for an address of no cell. -/
def hostRead (s : State) (a : Nat) : Option Nat :=
  if cellExists s.cfg a then some (s.mem.read a) else none

/-- The state after an image longer than its segment is refused (rule R251, D30): FAULTED with an
OutOfBounds record whose address is the first past the window; no cell is written (log entry 12). -/
def refuseImage (seg : Segment) (windowEnd : Nat) (s : State) : State :=
  { s with
    fault :=
      { code := .outOfBounds, pc := 0, opcode := 0, addr := wrap s.cfg.width windowEnd, seg := some seg,
        kind := .none }
    runState := .faulted }

/-- Load an image at the start of a segment of `len` cells (rule R251); offered only in IDLE (R254). A
value of the image is taken as a `W`-bit cell (log entry 22). -/
def loadSegment (seg : Segment) (base len : Nat) (image : List Nat) (s : State) :
    Host.Outcome State Fault Refusal :=
  match s.runState with
  | .idle =>
    if image.length ≤ len then
      .next { s with mem := s.mem.writeList base (image.map fun v : Nat => wrap s.cfg.width v) }
    else .next (refuseImage seg (base + len) s)
  | .running => .refused .notIdle
  | .halted => .refused .notIdle
  | .faulted => .refused .notIdle

/-- Load the TEXT image (rule R251). -/
def loadText (image : List Nat) (s : State) : Host.Outcome State Fault Refusal :=
  loadSegment .text s.cfg.textBase s.cfg.textLen image s

/-- Load the DATA image (rule R251). -/
def loadData (image : List Nat) (s : State) : Host.Outcome State Fault Refusal :=
  loadSegment .data s.cfg.dataBase s.cfg.dataLen image s

/-- `LAUNCH_FRAME` of rules R5 and R252. -/
inductive LaunchFrame where
  /-- No launch frame: SP and BP stay at `STACK_TOP`. -/
  | none
  /-- The C-main frame: argc, argv and the return address RET_STUB. -/
  | cMain (argc argv : Nat) (retStub : Nat)
  deriving DecidableEq, Repr

/-- The constraint of rule R5 on a launch frame: RET_STUB is a TEXT address. -/
def LaunchFrame.allowed (c : Config) : LaunchFrame → Bool
  | .none => true
  | .cMain _ _ retStub => inText c retStub

/-- The pushes of a launch frame (rule R252); argc and argv are taken as `W`-bit values (log entry 22). -/
def pushLaunchFrame (frame : LaunchFrame) (s : State) : Except Stop State :=
  match frame with
  | .none => .ok s
  | .cMain argc argv retStub =>
    match push (wrap s.cfg.width argc) s with
    | .error e => .error e
    | .ok s₁ =>
      match push (wrap s₁.cfg.width argv) s₁ with
      | .error e => .error e
      | .ok s₂ => push (wrap s₂.cfg.width retStub) s₂

/-- `Start(ENTRY_PC, LAUNCH_FRAME)` (rule R252); `TEXT_BASE` if the host gives no entry (R5). Offered
only in IDLE (R254; log entry 15), and with a frame rule R5 allows (log entry 23). -/
def start (entry : Option Nat) (frame : LaunchFrame) (s : State) : Host.Outcome State Fault Refusal :=
  match s.runState with
  | .idle =>
    if frame.allowed s.cfg then
      match pushLaunchFrame frame { s with pc := wrap s.cfg.width (entry.getD s.cfg.textBase) } with
      | .ok t => .next { t with runState := .running }
      | .error (.raise _) => .refused .launchFrameDoesNotFit
      | .error (.noCell a) => .fault (.noSuchCell a)
    else .refused .retStubNotInText
  | .running => .refused .notIdle
  | .halted => .refused .notIdle
  | .faulted => .refused .notIdle

/-- Call `step()` until it reports something other than Continue, at most `fuel` times (rules R237,
R264). A report of Continue means the run has not ended (R255; log entry 18). -/
def runSteps : Nat → State → Host.Outcome (StepReport × State) Fault Refusal
  | 0, s => .next (stepReport s, s)
  | fuel + 1, s =>
    match step s with
    | .fault f => .fault f
    | .refused r => .refused r
    | .next t =>
      match stepReport t with
      | .continues => runSteps fuel t
      | .exited v => .next (.exited v, t)
      | .error f => .next (.error f, t)
      | .notStarted => .next (.notStarted, t)

/-- Start, then run (the end of rule R237). -/
def startAndRun (fuel : Nat) (entry : Option Nat) (frame : LaunchFrame) (s : State) :
    Host.Outcome (StepReport × State) Fault Refusal :=
  match start entry frame s with
  | .next t => runSteps fuel t
  | .fault f => .fault f
  | .refused r => .refused r

/-- `run(program, data, argc, argv)` (rule R237): reset, load TEXT and DATA, start with the launch frame,
then step until something other than Continue. A refused image ends it before any step (R251). -/
def run (fuel : Nat) (program data : List Nat) (entry : Option Nat) (frame : LaunchFrame) (s : State) :
    Host.Outcome (StepReport × State) Fault Refusal :=
  match loadText program (hostReset s) with
  | .fault f => .fault f
  | .refused r => .refused r
  | .next t =>
    match stepReport t with
    | .error f => .next (.error f, t)
    | .continues => .next (.continues, t)
    | .exited v => .next (.exited v, t)
    | .notStarted =>
      match loadData data t with
      | .fault f => .fault f
      | .refused r => .refused r
      | .next u =>
        match stepReport u with
        | .error f => .next (.error f, u)
        | .continues => .next (.continues, u)
        | .exited v => .next (.exited v, u)
        | .notStarted => startAndRun fuel entry frame u

end Sys2Proof.Machine
end

