-- ==== Sys2Proof/Safety.lean ====
section
/-! DEFINITION. The terms statements are made in: the invariant of a safe state, the tables of rules R26
and R216, the cell each instruction stores to, a faulted state with its record, and the frame
protocol's activation record and saved-BP chain. -/

namespace Sys2Proof

/-! ## The tables of rules R26 and R216 -/

/-- The instructions that read AX after fetch (R26). -/
def Mnemonic.readsAx (k : Mnemonic) : Bool :=
  [Mnemonic.lc, .li, .sc, .si, .push, .jz, .jnz, .or, .xor, .and, .eq, .ne, .lt, .le, .gt, .ge, .shl,
    .shr, .add, .sub, .mul, .div, .mod].contains k

/-- The instructions that read SP (R26). -/
def Mnemonic.readsSp (k : Mnemonic) : Bool :=
  [Mnemonic.sc, .si, .push, .call, .ret, .ent, .adj, .or, .xor, .and, .eq, .ne, .lt, .le, .gt, .ge, .shl,
    .shr, .add, .sub, .mul, .div, .mod, .exit].contains k

/-- The instructions that read BP (R26). -/
def Mnemonic.readsBp (k : Mnemonic) : Bool := [Mnemonic.ent, .lev, .lea].contains k

/-- The instructions that write AX (R26). -/
def Mnemonic.writesAx (k : Mnemonic) : Bool :=
  [Mnemonic.imm, .lc, .li, .sc, .lea, .or, .xor, .and, .eq, .ne, .lt, .le, .gt, .ge, .shl, .shr, .add,
    .sub, .mul, .div, .mod].contains k

/-- The instructions that write SP (R26). -/
def Mnemonic.writesSp (k : Mnemonic) : Bool :=
  [Mnemonic.sc, .si, .push, .call, .ret, .ent, .adj, .lev, .or, .xor, .and, .eq, .ne, .lt, .le, .gt,
    .ge, .shl, .shr, .add, .sub, .mul, .div, .mod].contains k

/-- The instructions that write BP (R26). -/
def Mnemonic.writesBp (k : Mnemonic) : Bool := [Mnemonic.ent, .lev].contains k

/-- The instructions that write PC beyond the advance at fetch (R26; JZ and JNZ when taken). -/
def Mnemonic.writesPc (k : Mnemonic) : Bool :=
  [Mnemonic.jmp, .jz, .jnz, .call, .ret, .lev].contains k

/-- The faults each instruction can raise in execution: the table of rule R216. -/
def Mnemonic.executionFaults : Mnemonic → List Machine.FaultCode
  | .imm => []
  | .jmp => []
  | .jz => []
  | .jnz => []
  | .lea => []
  | .lc => [.outOfBounds]
  | .li => [.outOfBounds]
  | .sc => [.stackUnderflow, .outOfBounds]
  | .si => [.stackUnderflow, .outOfBounds]
  | .push => [.stackOverflow]
  | .call => [.stackOverflow]
  | .ret => [.stackUnderflow]
  | .ent => [.stackOverflow, .stackUnderflow]
  | .adj => [.stackOverflow, .stackUnderflow]
  | .lev => [.stackOverflow, .stackUnderflow]
  | .or => [.stackUnderflow]
  | .xor => [.stackUnderflow]
  | .and => [.stackUnderflow]
  | .eq => [.stackUnderflow]
  | .ne => [.stackUnderflow]
  | .lt => [.stackUnderflow]
  | .le => [.stackUnderflow]
  | .gt => [.stackUnderflow]
  | .ge => [.stackUnderflow]
  | .shl => [.stackUnderflow]
  | .shr => [.stackUnderflow]
  | .add => [.stackUnderflow]
  | .sub => [.stackUnderflow]
  | .mul => [.stackUnderflow]
  | .div => [.stackUnderflow, .arithmeticError]
  | .mod => [.stackUnderflow, .arithmeticError]
  | .exit => [.stackUnderflow]

end Sys2Proof

namespace Sys2Proof.Machine

/-! ## Conditions on a state -/

/-- The stack has a top cell: SP lies in the STACK window (R24). -/
abbrev State.hasTop (s : State) : Prop := s.cfg.stackBase ≤ s.sp ∧ s.sp < s.cfg.stackTop

/-- The stack has room for one more cell, and SP is in the range of rule R24. -/
abbrev State.hasRoom (s : State) : Prop := s.cfg.stackBase < s.sp ∧ s.sp ≤ s.cfg.stackTop

/-- The range rule R24 says SP always keeps. -/
abbrev State.spInRange (s : State) : Prop := s.cfg.stackBase ≤ s.sp ∧ s.sp ≤ s.cfg.stackTop

/-- `M[SP]`, the stack top. -/
def State.top (s : State) : Nat := s.mem.read s.sp

/-- PC after a fetch of `n` cells: `wrap(opc + n)` (R82). -/
abbrev State.pcAfter (s : State) (n : Nat) : Nat := (s.pc + n) % 2 ^ s.cfg.width

/-- `sint(v)` in a block: at its width (R6). -/
abbrev State.signed (s : State) (v : Nat) : Int := sint s.cfg.width v

/-- The TEXT cells at PC a fetch can reach: none, one (at the last TEXT cell) or two. -/
def textCells (s : State) : List Nat :=
  if inText s.cfg s.pc then
    if inText s.cfg (s.pc + 1) then [s.mem.read s.pc, s.mem.read (s.pc + 1)]
    else [s.mem.read s.pc]
  else []

/-- A fault record agrees with itself as rule R30 says: an address and a segment only for OutOfBounds, a
kind for ArithmeticError and for nothing else. -/
abbrev FaultRecord.consistent (f : FaultRecord) : Prop :=
  (f.code ≠ .outOfBounds → f.addr = 0 ∧ f.seg = none) ∧
    (f.kind = .divideByZero ↔ f.code = .arithmeticError)

/-- Every register, cell and address of a record is a word of `W` bits (R20, R28, R30, R31). -/
structure State.WordsFit (s : State) : Prop where
  pc : s.pc < 2 ^ s.cfg.width
  sp : s.sp < 2 ^ s.cfg.width
  bp : s.bp < 2 ^ s.cfg.width
  ax : s.ax < 2 ^ s.cfg.width
  mem : ∀ e ∈ s.mem, e.2 < 2 ^ s.cfg.width
  faultPc : s.fault.pc < 2 ^ s.cfg.width
  faultOpcode : s.fault.opcode < 2 ^ s.cfg.width
  faultAddr : s.fault.addr < 2 ^ s.cfg.width
  exitStatus : s.exitStatus < 2 ^ s.cfg.width

/-- The invariant of every state a run reaches: well-formed parameters (R5), words of `W` bits (R6, R20),
canonical memory with entries only at cells that exist (R51), SP in range (R24), a fault recorded
exactly when FAULTED (R30), a consistent record (R30), and no exit status before EXIT (R31, R35). -/
structure State.Inv (s : State) : Prop where
  cfgWellFormed : s.cfg.wellFormed = true
  wordsFit : s.WordsFit
  memCanonical : s.mem.wf
  memInWindows : ∀ a ∈ s.mem.map Prod.fst, cellExists s.cfg a = true
  spInRange : s.spInRange
  faultIffFaulted : s.fault.code ≠ .none ↔ s.runState = .faulted
  faultConsistent : s.fault.consistent
  statusOnlyHalted : s.runState ≠ .halted → s.exitStatus = 0

/-- `s` after a fault of the instruction at PC with the given record fields (R30, R221): the record and
RUN_STATE change, FAULT_OPCODE is the opcode cell, nothing else changes. -/
def State.faultedWith (s : State) (code : FaultCode) (addr : Nat) (seg : Option Segment)
    (kind : FaultKind) : State :=
  { s with
    fault :=
      { code := code, pc := s.pc, opcode := s.mem.read s.pc, addr := addr, seg := seg,
        kind := kind }
    runState := .faulted }

/-- `s` after the fetch of its opcode cell found PC outside TEXT (R56, R82): an OutOfBounds at PC. -/
def State.fetchFaulted (s : State) : State :=
  { s with
    fault := { code := .outOfBounds, pc := s.pc, opcode := 0, addr := s.pc, seg := some .text, kind := .none }
    runState := .faulted }

/-! ## What an execution stores, and outcomes -/

/-- The one cell an instruction stores to when it completes, by the expression its meaning uses: the cell
below the stack top for a push (R60), the popped address for SI and SC (R103, R104). -/
def storedCell (i : Instr) (s : State) : Option Nat :=
  match i.mnemonic with
  | .push => some (wrap s.cfg.width (s.sp - 1))
  | .call => some (wrap s.cfg.width (s.sp - 1))
  | .ent => some (wrap s.cfg.width (s.sp - 1))
  | .si => some s.top
  | .sc => some s.top
  | .lea | .imm | .jmp | .jz | .jnz | .adj | .lev | .li | .lc | .or | .xor | .and | .eq | .ne | .lt
  | .gt | .le | .ge | .shl | .shr | .add | .sub | .mul | .div | .mod | .exit | .ret => none

/-- Apply a change to the state of a next outcome. -/
def mapNext (f : State → State) : Host.Outcome State Fault Refusal → Host.Outcome State Fault Refusal
  | .next t => .next (f t)
  | .fault e => .fault e
  | .refused r => .refused r

/-! ## The call-frame protocol (rules R130 to R134) -/

/-- A caller pushing argument values, first to last, with one PUSH each (R131); `none` when a push does
not complete. -/
def pushArgs : List Nat → State → Option State
  | [], s => some s
  | a :: args, s =>
    match exec .push { s with ax := a } with
    | .next t => if t.runState = .faulted then none else pushArgs args t
    | .fault _ => none
    | .refused _ => none

/-- The saved-BP chain of rule R132 as a list of frame addresses, from BP `b` up to the BP the run
started with: each link is a cell that holds the next one, and the last holds `launch`. Its length is
the frame depth. -/
def isBpChain (m : Memory) (launch : Nat) : Nat → List Nat → Bool
  | b, [] => b == launch
  | b, c :: rest => b == c && b != launch && isBpChain m launch (m.read b) rest

end Sys2Proof.Machine
end

