-- ==== Sys2Proof/Certificates/Slice0/Obligations.lean ====
section
/-! DEFINITION. The statements for the provers. Each says what a numbered rule of spec/ says the machine
does; its docstring names the rule, or the sections it is derived from. -/

open Sys2Proof Sys2Proof.Machine

/-! ## Reset and the invariant -/

/-- R35, R250: reset leaves every piece of state at the value of the table, whatever state the block was
in and whatever its (well-formed) parameters; with the defaults PC is 0 and SP and BP are 98304. -/
def Obligations.ResetLeavesTheTableOfR35 : Prop :=
  (∀ s : State,
    (s.cfg.wellFormed = true →
      (hostReset s).pc = s.cfg.textBase ∧ (hostReset s).sp = s.cfg.stackTop ∧
        (hostReset s).bp = s.cfg.stackTop) ∧
      (hostReset s).ax = 0 ∧
      (∀ a, (hostReset s).mem.read a = 0) ∧ (hostReset s).runState = .idle ∧
      (hostReset s).fault = ⟨.none, 0, 0, 0, none, .none⟩ ∧ (hostReset s).exitStatus = 0 ∧
      (hostReset s).cfg = s.cfg) ∧
    State.reset.pc = 0 ∧ State.reset.sp = 98304 ∧ State.reset.bp = 98304 ∧ State.reset.ax = 0 ∧
    (∀ a, State.reset.mem.read a = 0) ∧ State.reset.runState = .idle ∧
    State.reset.fault = ⟨.none, 0, 0, 0, none, .none⟩ ∧ State.reset.exitStatus = 0 ∧
    State.reset.cfg = defaultConfig

/-- Derived from R5, R6, R24, R30, R31, R35: the state after reset, with any well-formed parameters and
with the defaults, satisfies the invariant. -/
def Obligations.ResetSatisfiesTheInvariant : Prop :=
  (∀ c : Config, c.wellFormed = true → (State.initial c).Inv) ∧ State.reset.Inv

/-- Derived from R5, R6, R20, R24, R30, R31: every step keeps the invariant (every register and cell a
word of `W` bits, canonical memory with entries only at cells that exist, SP in range, a consistent
fault record present exactly when FAULTED, no exit status before EXIT). -/
def Obligations.EveryStepKeepsTheInvariant : Prop :=
  ∀ s t : State, s.Inv → step s = .next t → t.Inv

/-- Derived from R251, R252: the host's load and start keep the invariant, whatever image, entry and
frame it gives. -/
def Obligations.LoadAndStartKeepTheInvariant : Prop :=
  ∀ (s t : State) (image : List Nat) (entry : Option Nat) (frame : LaunchFrame), s.Inv →
    (loadText image s = .next t → t.Inv) ∧ (loadData image s = .next t → t.Inv) ∧
      (start entry frame s = .next t → t.Inv)

/-- Derived from 93_implementation_defined.md ("No instruction of this block is stuck in RUNNING. Every
opcode cell value either executes or faults"): from a state that satisfies the invariant a step
answers some next state; the model's own stops are never reached. What that state is, other statements
say. -/
def Obligations.NoStepOfASafeStateStops : Prop :=
  ∀ s : State, s.Inv → ∃ t, step s = .next t

/-- Derived from R24: SP keeps `STACK_BASE <= uint(SP) <= STACK_TOP` across every step. -/
def Obligations.StackPointerStaysInRange : Prop :=
  ∀ s t : State, s.cfg.wellFormed = true → s.spInRange → step s = .next t → t.spInRange

/-- Derived from R58, R60 and R70 (an inference of the spec): no instruction can write TEXT. -/
def Obligations.NoStepWritesText : Prop :=
  ∀ s t : State, s.Inv → step s = .next t →
    ∀ a, inText s.cfg a = true → t.mem.read a = s.mem.read a

/-- Derived from R5 and the head of 10_state.md ("it is fixed for a run and no instruction reads or
writes it as data"): no step changes the parameters. -/
def Obligations.NoStepChangesTheParameters : Prop :=
  ∀ s t : State, step s = .next t → t.cfg = s.cfg

/-! ## Encoding -/

/-- Derived from R80 to R85, R88: at every width and under every injective opcode map, an instruction
with any operand of `W` bits has cells, as many as its length and each of `W` bits, and the decoder
reads it back from them and leaves what follows. -/
def Obligations.DecodeReadsBackEncode : Prop :=
  ∀ (w : Nat) (m : OpcodeMap) (i : Instr) (rest : List Nat), m.wellFormed w = true →
    (∀ v, i.operand? = some v → v < 2 ^ w) →
    ∃ cells, encode w m i = some cells ∧ cells.length = i.mnemonic.length ∧ (∀ c ∈ cells, c < 2 ^ w) ∧
      decode m (cells ++ rest) = .ok (i, rest)

/-- Derived from R80 to R86, R88: at every width, cells that decode to an instruction begin with
exactly its cells, so no two rows of an injective map overlap and no bit of a cell is dropped. -/
def Obligations.DecodedCellsAreTheEncoding : Prop :=
  ∀ (w : Nat) (m : OpcodeMap) (i : Instr) (cells rest : List Nat), m.wellFormed w = true →
    (∀ c ∈ cells, c < 2 ^ w) → decode m cells = .ok (i, rest) →
    ∃ own, encode w m i = some own ∧ cells = own ++ rest

/-- R84, R85: the words of the default map, each with every operand, decode to the instruction of the
table and take one or two cells. -/
def Obligations.TableWordsDecode : Prop :=
  ∀ v : Nat,
    decode defaultOpcodeMap [0, v] = .ok (.lea v, []) ∧ decode defaultOpcodeMap [1, v] = .ok (.imm v, []) ∧
    decode defaultOpcodeMap [2, v] = .ok (.jmp v, []) ∧ decode defaultOpcodeMap [3, v] = .ok (.call v, []) ∧
    decode defaultOpcodeMap [4, v] = .ok (.jz v, []) ∧ decode defaultOpcodeMap [5, v] = .ok (.jnz v, []) ∧
    decode defaultOpcodeMap [6, v] = .ok (.ent v, []) ∧ decode defaultOpcodeMap [7, v] = .ok (.adj v, []) ∧
    decode defaultOpcodeMap [8, v] = .ok (.lev, [v]) ∧ decode defaultOpcodeMap [9, v] = .ok (.li, [v]) ∧
    decode defaultOpcodeMap [10, v] = .ok (.lc, [v]) ∧ decode defaultOpcodeMap [11, v] = .ok (.si, [v]) ∧
    decode defaultOpcodeMap [12, v] = .ok (.sc, [v]) ∧ decode defaultOpcodeMap [13, v] = .ok (.push, [v]) ∧
    decode defaultOpcodeMap [14, v] = .ok (.or, [v]) ∧ decode defaultOpcodeMap [15, v] = .ok (.xor, [v]) ∧
    decode defaultOpcodeMap [16, v] = .ok (.and, [v]) ∧ decode defaultOpcodeMap [17, v] = .ok (.eq, [v]) ∧
    decode defaultOpcodeMap [18, v] = .ok (.ne, [v]) ∧ decode defaultOpcodeMap [19, v] = .ok (.lt, [v]) ∧
    decode defaultOpcodeMap [20, v] = .ok (.gt, [v]) ∧ decode defaultOpcodeMap [21, v] = .ok (.le, [v]) ∧
    decode defaultOpcodeMap [22, v] = .ok (.ge, [v]) ∧ decode defaultOpcodeMap [23, v] = .ok (.shl, [v]) ∧
    decode defaultOpcodeMap [24, v] = .ok (.shr, [v]) ∧ decode defaultOpcodeMap [25, v] = .ok (.add, [v]) ∧
    decode defaultOpcodeMap [26, v] = .ok (.sub, [v]) ∧ decode defaultOpcodeMap [27, v] = .ok (.mul, [v]) ∧
    decode defaultOpcodeMap [28, v] = .ok (.div, [v]) ∧ decode defaultOpcodeMap [29, v] = .ok (.mod, [v]) ∧
    decode defaultOpcodeMap [37, v] = .ok (.exit, [v]) ∧ decode defaultOpcodeMap [38, v] = .ok (.ret, [v])

/-- R86: every opcode cell value outside the default map (30 to 36, and 39 upwards) is illegal, and only
those; fetching one raises UnknownInstruction with the opcode value and PC. -/
def Obligations.ValuesOutsideTheMapAreIllegal : Prop :=
  (∀ op : Nat, opcodeOf defaultOpcodeMap op = none ↔ (30 ≤ op ∧ op ≤ 36) ∨ 39 ≤ op) ∧
  ∀ s : State, s.cfg.opcodeMap = defaultOpcodeMap → s.runState = .running →
    inText s.cfg s.pc = true →
    ((30 ≤ s.mem.read s.pc ∧ s.mem.read s.pc ≤ 36) ∨ 39 ≤ s.mem.read s.pc) →
    step s = .next { s with
      runState := .faulted
      fault := ⟨.unknownInstruction, s.pc, s.mem.read s.pc, 0, none, .none⟩ }

/-- Derived from R82, R85, R129 (R87, an inference of the spec): a PC at two unloaded TEXT cells executes
LEA 0 under the default map: AX gets BP. -/
def Obligations.UnloadedTextExecutesLeaZero : Prop :=
  ∀ s : State, s.cfg.opcodeMap = defaultOpcodeMap → s.bp < 2 ^ s.cfg.width → s.runState = .running →
    inText s.cfg s.pc = true → inText s.cfg (s.pc + 1) = true →
    s.mem.read s.pc = 0 → s.mem.read (s.pc + 1) = 0 →
    step s = .next { s with pc := s.pcAfter 2, ax := s.bp }

/-! ## The step -/

/-- Derived from R82 (its last line, "perform the rule of ins") and R235: when the TEXT cells at PC
decode to `i`, a step of a RUNNING block is `exec i` at that state, with nothing around it. -/
def Obligations.StepRunsTheDecodedInstruction : Prop :=
  ∀ (s : State) (i : Instr) (rest : List Nat), s.runState = .running →
    decode s.cfg.opcodeMap (textCells s) = .ok (i, rest) → step s = exec i s

/-- Derived from R56, R82, R217: the three fetch faults, in their order, each with its record; the
operand cell is checked whether or not the instruction uses it. -/
def Obligations.FetchFaultsComeFirst : Prop :=
  ∀ s : State, s.runState = .running → s.pc < 2 ^ s.cfg.width →
    (inText s.cfg s.pc = false → step s = .next s.fetchFaulted) ∧
    (inText s.cfg s.pc = true → opcodeOf s.cfg.opcodeMap (s.mem.read s.pc) = none →
      step s = .next { s with
        runState := .faulted
        fault := ⟨.unknownInstruction, s.pc, s.mem.read s.pc, 0, none, .none⟩ }) ∧
    (∀ k, inText s.cfg s.pc = true →
      opcodeOf s.cfg.opcodeMap (s.mem.read s.pc) = some k → k.hasOperand = true →
      inText s.cfg (s.pc + 1) = false →
      step s = .next { s with
        runState := .faulted
        fault := ⟨.outOfBounds, s.pc, s.mem.read s.pc, s.pcAfter 1, some .text, .none⟩ })

/-- Derived from R22, R82, R5 (R23, an inference of the spec): PC never wraps: a fetched instruction ends
inside TEXT, so the advance stays below `2^W`. -/
def Obligations.PcNeverWraps : Prop :=
  ∀ (s : State) (i : Instr), s.cfg.wellFormed = true → fetchDecode s = .ok i →
    s.pc + i.mnemonic.length ≤ s.cfg.textEnd ∧
      (advance i.mnemonic.length s).pc = s.pc + i.mnemonic.length

/-- R236, R201: in IDLE, HALTED and FAULTED any number of steps changes nothing and the report is
the same each time. -/
def Obligations.StoppedBlocksStayAsTheyAre : Prop :=
  ∀ (s : State) (k : Nat), s.runState ≠ .running →
    Host.Core.run Sys2Proof.core k s = .next s ∧
      (s.runState = .idle → stepReport s = .notStarted) ∧
      (s.runState = .halted → stepReport s = .exited s.exitStatus) ∧
      (s.runState = .faulted → stepReport s = .error s.fault)

/-- R221: faults are precise. A step that ends FAULTED leaves PC, SP, BP, AX, every memory cell and
EXIT_STATUS as they were; the record holds the code of some fault E, FAULT_PC, the opcode cell (0 when
the opcode fetch faulted), and E's address, segment and kind. -/
def Obligations.FaultsArePrecise : Prop :=
  ∀ s t : State, s.runState = .running → step s = .next t → t.runState = .faulted →
    ∃ e : FaultCause,
      t = { s with
        runState := .faulted
        fault :=
          ⟨e.code, s.pc, if inText s.cfg s.pc then s.mem.read s.pc else 0, e.addr, e.seg,
            e.kind⟩ } ∧
      t.fault.code ≠ .none ∧
      (t.fault.code ≠ .outOfBounds → t.fault.addr = 0 ∧ t.fault.seg = none) ∧
      (t.fault.code = .arithmeticError → t.fault.kind = .divideByZero) ∧
      (t.fault.code ≠ .arithmeticError → t.fault.kind = .none)

/-! ## Addresses -/

/-- R53: `Decode` gives a segment and an offset below its length, at the address base plus offset; it
gives none exactly outside the windows; two words that name the same offset of the same segment are
the same word; a word whose `sint` is negative names nothing. -/
def Obligations.AddressesNeverAlias : Prop :=
  ∀ c : Config, c.wellFormed = true → ∀ w : Nat,
    (∀ n, decodeAddress c w = some (.text, n) ↔ n < c.textLen ∧ w = c.textBase + n) ∧
    (∀ n, decodeAddress c w = some (.data, n) ↔ n < c.dataLen ∧ w = c.dataBase + n) ∧
    (∀ n, decodeAddress c w = some (.stack, n) ↔ n < c.stackLen ∧ w = c.stackBase + n) ∧
    (decodeAddress c w = none ↔ cellExists c w = false) ∧
    (∀ (w' : Nat) (d : Segment × Nat), decodeAddress c w = some d → decodeAddress c w' = some d → w = w') ∧
    (sint c.width w < 0 → decodeAddress c w = none)

/-! ## Memory-access instructions -/

/-- R100: IMM loads its operand into AX and skips it; nothing else changes. -/
def Obligations.ImmLoadsItsOperand : Prop :=
  ∀ (s : State) (v : Nat), exec (.imm v) s = .next { s with pc := s.pcAfter 2, ax := v }

/-- R101: LC leaves the sign- or zero-extended byte at address AX in AX, from any segment, and raises
OutOfBounds(AX, NONE) when no window holds the address. -/
def Obligations.LcLoadsTheByte : Prop :=
  ∀ s : State, s.cfg.wellFormed = true →
    (cellExists s.cfg s.ax = true →
      ∃ t, exec .lc s = .next t ∧ t = { s with pc := s.pcAfter 1, ax := t.ax } ∧ t.ax < 2 ^ s.cfg.width ∧
        (s.cfg.lcSigned = true →
          s.signed t.ax = if s.mem.read s.ax % 256 < 128 then ((s.mem.read s.ax % 256 : Nat) : Int)
            else ((s.mem.read s.ax % 256 : Nat) : Int) - 256) ∧
        (s.cfg.lcSigned = false → t.ax = s.mem.read s.ax % 256)) ∧
    (cellExists s.cfg s.ax = false →
      exec .lc s = .next (s.faultedWith .outOfBounds s.ax none .none))

/-- R102: LI leaves the cell at address AX in AX, from any segment, and raises OutOfBounds(AX, NONE) when
no window holds the address. -/
def Obligations.LiLoadsTheCell : Prop :=
  ∀ s : State,
    (cellExists s.cfg s.ax = true →
      exec .li s = .next { s with pc := s.pcAfter 1, ax := s.mem.read s.ax }) ∧
    (cellExists s.cfg s.ax = false →
      exec .li s = .next (s.faultedWith .outOfBounds s.ax none .none))

/-- R103: SC pops an address, replaces bits `[7:0]` of its cell by AX's, keeps bits `[W-1:8]` and every
other cell, and leaves the stored byte in AX as LC would read it back; its three faults, in order. -/
def Obligations.ScStoresTheByte : Prop :=
  ∀ s : State, s.cfg.wellFormed = true → s.mem.wf →
    (s.hasTop → inText s.cfg s.top = false → cellExists s.cfg s.top = true →
      ∃ t, exec .sc s = .next t ∧
        t = { s with pc := s.pcAfter 1, sp := s.sp + 1, ax := t.ax, mem := t.mem } ∧
        t.mem.read s.top % 256 = s.ax % 256 ∧
        t.mem.read s.top / 256 = s.mem.read s.top / 256 ∧
        (∀ b, b ≠ s.top → t.mem.read b = s.mem.read b) ∧ t.ax < 2 ^ s.cfg.width ∧
        (s.cfg.lcSigned = true →
          s.signed t.ax = if s.ax % 256 < 128 then ((s.ax % 256 : Nat) : Int)
            else ((s.ax % 256 : Nat) : Int) - 256) ∧
        (s.cfg.lcSigned = false → t.ax = s.ax % 256)) ∧
    (s.cfg.stackTop ≤ s.sp →
      exec .sc s = .next (s.faultedWith .stackUnderflow 0 none .none)) ∧
    (s.hasTop → cellExists s.cfg s.top = false →
      exec .sc s = .next (s.faultedWith .outOfBounds s.top none .none)) ∧
    (s.hasTop → inText s.cfg s.top = true →
      exec .sc s = .next (s.faultedWith .outOfBounds s.top (some .text) .none))

/-- R104: SI pops an address and stores AX there; AX and every other cell stay; its three faults. -/
def Obligations.SiStoresTheCell : Prop :=
  ∀ s : State, s.cfg.wellFormed = true → s.mem.wf →
    (s.hasTop → inText s.cfg s.top = false → cellExists s.cfg s.top = true →
      ∃ t, exec .si s = .next t ∧ t = { s with pc := s.pcAfter 1, sp := s.sp + 1, mem := t.mem } ∧
        t.mem.read s.top = s.ax ∧ ∀ b, b ≠ s.top → t.mem.read b = s.mem.read b) ∧
    (s.cfg.stackTop ≤ s.sp →
      exec .si s = .next (s.faultedWith .stackUnderflow 0 none .none)) ∧
    (s.hasTop → cellExists s.cfg s.top = false →
      exec .si s = .next (s.faultedWith .outOfBounds s.top none .none)) ∧
    (s.hasTop → inText s.cfg s.top = true →
      exec .si s = .next (s.faultedWith .outOfBounds s.top (some .text) .none))

/-! ## Stack and control-flow instructions -/

/-- R120: PUSH moves SP down one cell and stores AX at the new top; on a full stack StackOverflow. -/
def Obligations.PushStoresAtTheNewTop : Prop :=
  ∀ s : State, s.cfg.wellFormed = true → s.mem.wf →
    (s.hasRoom →
      ∃ t, exec .push s = .next t ∧ t = { s with pc := s.pcAfter 1, sp := s.sp - 1, mem := t.mem } ∧
        t.mem.read (s.sp - 1) = s.ax ∧ ∀ b, b ≠ s.sp - 1 → t.mem.read b = s.mem.read b) ∧
    (s.sp = s.cfg.stackBase →
      exec .push s = .next (s.faultedWith .stackOverflow 0 none .none))

/-- R121: JMP writes its operand to PC unchecked; with a target outside TEXT the next step is the fault,
at the target. -/
def Obligations.JmpGoesToItsOperand : Prop :=
  ∀ (s : State) (target : Nat), target < 2 ^ s.cfg.width →
    exec (.jmp target) s = .next { s with pc := target } ∧
    (s.runState = .running → inText s.cfg target = false →
      step { s with pc := target } = .next { s with pc := target }.fetchFaulted)

/-- R122, R123: JZ jumps exactly when all bits of AX are 0, JNZ exactly when not; else PC skips the
operand; with the operand cell outside TEXT the step is that fault, jump or no jump. -/
def Obligations.JzAndJnzTestAx : Prop :=
  ∀ (s : State) (target : Nat),
    (s.ax = 0 → exec (.jz target) s = .next { s with pc := target } ∧
      exec (.jnz target) s = .next { s with pc := s.pcAfter 2 }) ∧
    (s.ax ≠ 0 → exec (.jz target) s = .next { s with pc := s.pcAfter 2 } ∧
      exec (.jnz target) s = .next { s with pc := target }) ∧
    (s.runState = .running → inText s.cfg s.pc = true → inText s.cfg (s.pc + 1) = false →
      (opcodeOf s.cfg.opcodeMap (s.mem.read s.pc) = some .jz ∨
        opcodeOf s.cfg.opcodeMap (s.mem.read s.pc) = some .jnz) →
      step s = .next (s.faultedWith .outOfBounds (s.pcAfter 1) (some .text) .none))

/-- R124: CALL pushes the address past its operand and goes to the target; BP and AX stay; a target
outside TEXT faults at the next fetch; on a full stack StackOverflow at `opc`. -/
def Obligations.CallPushesTheReturnAddress : Prop :=
  ∀ (s : State) (target : Nat), target < 2 ^ s.cfg.width → s.cfg.wellFormed = true → s.mem.wf →
    (s.hasRoom →
      ∃ t, exec (.call target) s = .next t ∧ t = { s with pc := target, sp := s.sp - 1, mem := t.mem } ∧
        t.mem.read (s.sp - 1) = s.pcAfter 2 ∧
        (∀ b, b ≠ s.sp - 1 → t.mem.read b = s.mem.read b) ∧
        (s.runState = .running → inText s.cfg target = false → step t = .next t.fetchFaulted)) ∧
    (s.sp = s.cfg.stackBase →
      exec (.call target) s = .next (s.faultedWith .stackOverflow 0 none .none))

/-- R125: RET pops PC unchecked, and BP stays; a popped value outside TEXT faults at the next fetch; on
an empty stack StackUnderflow. -/
def Obligations.RetPopsThePc : Prop :=
  ∀ s : State, s.cfg.wellFormed = true →
    (s.hasTop → exec .ret s = .next { s with pc := s.top, sp := s.sp + 1 } ∧
      (s.runState = .running → s.WordsFit → inText s.cfg s.top = false →
        step { s with pc := s.top, sp := s.sp + 1 } =
          .next { s with pc := s.top, sp := s.sp + 1 }.fetchFaulted)) ∧
    (s.cfg.stackTop ≤ s.sp →
      exec .ret s = .next (s.faultedWith .stackUnderflow 0 none .none))

/-- R126: ENT pushes BP, makes BP the saved-BP cell and reserves `sint(operand)` cells below it, not
cleared; StackOverflow and StackUnderflow exactly where the rule says, with nothing changed. -/
def Obligations.EntBuildsTheFrame : Prop :=
  ∀ (s : State) (n : Nat), s.cfg.wellFormed = true → s.mem.wf →
    (s.hasRoom → (s.cfg.stackBase : Int) ≤ s.sp - 1 - s.signed n →
      (s.sp : Int) - 1 - s.signed n ≤ s.cfg.stackTop →
      ∃ t, exec (.ent n) s = .next t ∧
        t = { s with pc := s.pcAfter 2, sp := t.sp, bp := s.sp - 1, mem := t.mem } ∧
        (t.sp : Int) = s.sp - 1 - s.signed n ∧ t.mem.read (s.sp - 1) = s.bp ∧
        ∀ b, b ≠ s.sp - 1 → t.mem.read b = s.mem.read b) ∧
    (s.sp = s.cfg.stackBase →
      exec (.ent n) s = .next (s.faultedWith .stackOverflow 0 none .none)) ∧
    (s.hasRoom → (s.sp : Int) - 1 - s.signed n < s.cfg.stackBase →
      exec (.ent n) s = .next (s.faultedWith .stackOverflow 0 none .none)) ∧
    (s.hasRoom → (s.cfg.stackTop : Int) < s.sp - 1 - s.signed n →
      exec (.ent n) s = .next (s.faultedWith .stackUnderflow 0 none .none))

/-- R127: ADJ adds `sint(operand)` to SP on integers, within the stack's range; outside it faults. -/
def Obligations.AdjMovesTheStackPointer : Prop :=
  ∀ (s : State) (n : Nat), s.cfg.wellFormed = true →
    ((s.cfg.stackBase : Int) ≤ s.sp + s.signed n → (s.sp : Int) + s.signed n ≤ s.cfg.stackTop →
      ∃ t, exec (.adj n) s = .next t ∧ t = { s with pc := s.pcAfter 2, sp := t.sp } ∧
        (t.sp : Int) = s.sp + s.signed n) ∧
    ((s.cfg.stackTop : Int) < s.sp + s.signed n →
      exec (.adj n) s = .next (s.faultedWith .stackUnderflow 0 none .none)) ∧
    ((s.sp : Int) + s.signed n < s.cfg.stackBase →
      exec (.adj n) s = .next (s.faultedWith .stackOverflow 0 none .none))

/-- R128: LEV takes BP and PC from the two cells at BP, unchecked, and leaves SP above them; AX stays; a
return address outside TEXT faults at the next fetch; StackOverflow for a BP below the stack,
StackUnderflow when BP leaves fewer than two cells to pop. -/
def Obligations.LevUnwindsTheFrame : Prop :=
  ∀ s : State, s.cfg.wellFormed = true →
    (s.cfg.stackBase ≤ s.bp → s.bp + 2 ≤ s.cfg.stackTop →
      ∃ t, exec .lev s = .next t ∧
        t = { s with
          sp := s.bp + 2
          bp := s.mem.read s.bp
          pc := s.mem.read (s.bp + 1) } ∧
        (s.runState = .running → s.WordsFit → inText s.cfg (s.mem.read (s.bp + 1)) = false →
          step t = .next t.fetchFaulted)) ∧
    (s.bp < s.cfg.stackBase →
      exec .lev s = .next (s.faultedWith .stackOverflow 0 none .none)) ∧
    (s.cfg.stackBase ≤ s.bp → s.cfg.stackTop < s.bp + 2 →
      exec .lev s = .next (s.faultedWith .stackUnderflow 0 none .none))

/-- R129: LEA leaves `wrap(uint(BP) + sint(operand))` in AX and checks nothing. -/
def Obligations.LeaAddsToTheBasePointer : Prop :=
  ∀ (s : State) (n : Nat), ∃ t, exec (.lea n) s = .next t ∧ t = { s with pc := s.pcAfter 2, ax := t.ax } ∧
    (t.ax : Int) = (s.bp + s.signed n) % 2 ^ s.cfg.width

/-! ## Arithmetic, logic and comparison -/

/-- R161, R162, R163 (operands by R160): the bitwise operators on the popped left operand and AX; OR, XOR
and AND of the two words' values are those of their bits. -/
def Obligations.BitwiseOperators : Prop :=
  ∀ s : State, s.cfg.wellFormed = true →
    (s.hasTop →
      exec .or s = .next { s with pc := s.pcAfter 1, sp := s.sp + 1, ax := s.top ||| s.ax } ∧
      exec .xor s = .next { s with pc := s.pcAfter 1, sp := s.sp + 1, ax := s.top ^^^ s.ax } ∧
      exec .and s = .next { s with pc := s.pcAfter 1, sp := s.sp + 1, ax := s.top &&& s.ax }) ∧
    (s.cfg.stackTop ≤ s.sp →
      exec .or s = .next (s.faultedWith .stackUnderflow 0 none .none) ∧
      exec .xor s = .next (s.faultedWith .stackUnderflow 0 none .none) ∧
      exec .and s = .next (s.faultedWith .stackUnderflow 0 none .none))

/-- R164 to R169 (operands by R160): the comparisons, signed for LT, LE, GT and GE, leave 1 or 0. -/
def Obligations.ComparisonsLeaveOneOrZero : Prop :=
  ∀ s : State, s.cfg.wellFormed = true →
    (s.hasTop →
      exec .eq s = .next { s with pc := s.pcAfter 1, sp := s.sp + 1, ax := if s.top = s.ax then 1 else 0 } ∧
      exec .ne s = .next { s with pc := s.pcAfter 1, sp := s.sp + 1, ax := if s.top = s.ax then 0 else 1 } ∧
      exec .lt s = .next { s with
        pc := s.pcAfter 1
        sp := s.sp + 1
        ax := if s.signed s.top < s.signed s.ax then 1 else 0 } ∧
      exec .le s = .next { s with
        pc := s.pcAfter 1
        sp := s.sp + 1
        ax := if s.signed s.ax < s.signed s.top then 0 else 1 } ∧
      exec .gt s = .next { s with
        pc := s.pcAfter 1
        sp := s.sp + 1
        ax := if s.signed s.ax < s.signed s.top then 1 else 0 } ∧
      exec .ge s = .next { s with
        pc := s.pcAfter 1
        sp := s.sp + 1
        ax := if s.signed s.top < s.signed s.ax then 0 else 1 }) ∧
    (s.cfg.stackTop ≤ s.sp →
      exec .eq s = .next (s.faultedWith .stackUnderflow 0 none .none) ∧
      exec .ne s = .next (s.faultedWith .stackUnderflow 0 none .none) ∧
      exec .lt s = .next (s.faultedWith .stackUnderflow 0 none .none) ∧
      exec .le s = .next (s.faultedWith .stackUnderflow 0 none .none) ∧
      exec .gt s = .next (s.faultedWith .stackUnderflow 0 none .none) ∧
      exec .ge s = .next (s.faultedWith .stackUnderflow 0 none .none))

/-- R170, R171 (operands by R160): SHL multiplies by `2^n` modulo `2^W`, SHR divides the signed value by
`2^n` rounding down, where `n` is the low `log2(W)` bits of AX (counts outside 0 to `W - 1` by decision
D15, item U5). -/
def Obligations.ShiftsMaskTheCount : Prop :=
  ∀ s : State, s.cfg.wellFormed = true →
    (s.hasTop → s.WordsFit →
      exec .shl s = .next { s with
        pc := s.pcAfter 1
        sp := s.sp + 1
        ax := s.top * 2 ^ (s.ax % s.cfg.width) % 2 ^ s.cfg.width } ∧
      (∃ t, exec .shr s = .next t ∧ t = { s with pc := s.pcAfter 1, sp := s.sp + 1, ax := t.ax } ∧
        t.ax < 2 ^ s.cfg.width ∧ s.signed t.ax = s.signed s.top / 2 ^ (s.ax % s.cfg.width))) ∧
    (s.cfg.stackTop ≤ s.sp →
      exec .shl s = .next (s.faultedWith .stackUnderflow 0 none .none) ∧
      exec .shr s = .next (s.faultedWith .stackUnderflow 0 none .none))

/-- R172, R173, R174 (operands by R160): ADD, SUB and MUL modulo `2^W`; MUL's bits are the same whether
the operands are read signed or unsigned. -/
def Obligations.AddSubMulWrap : Prop :=
  ∀ s : State, s.cfg.wellFormed = true →
    (s.hasTop →
      exec .add s = .next { s with
        pc := s.pcAfter 1
        sp := s.sp + 1
        ax := (s.top + s.ax) % 2 ^ s.cfg.width } ∧
      (∃ t, exec .sub s = .next t ∧ t = { s with pc := s.pcAfter 1, sp := s.sp + 1, ax := t.ax } ∧
        (t.ax : Int) = ((s.top : Int) - s.ax) % 2 ^ s.cfg.width) ∧
      (∃ t, exec .mul s = .next t ∧ t = { s with pc := s.pcAfter 1, sp := s.sp + 1, ax := t.ax } ∧
        (t.ax : Int) = s.signed s.top * s.signed s.ax % 2 ^ s.cfg.width ∧
        t.ax = s.top * s.ax % 2 ^ s.cfg.width)) ∧
    (s.cfg.stackTop ≤ s.sp →
      exec .add s = .next (s.faultedWith .stackUnderflow 0 none .none) ∧
      exec .sub s = .next (s.faultedWith .stackUnderflow 0 none .none) ∧
      exec .mul s = .next (s.faultedWith .stackUnderflow 0 none .none))

/-- R175, R176 (operands by R160): DIV truncates toward zero, with `MIN / -1 = MIN`; MOD is the remainder
of that quotient; a zero divisor raises ArithmeticError(DivideByZero), after the check for an empty
stack. The values for MIN and -1 and the fault for 0 are the spec's decision D14 (items U2, U3). -/
def Obligations.DivAndModTruncate : Prop :=
  ∀ s : State, s.cfg.wellFormed = true →
    (s.hasTop → s.WordsFit → s.ax ≠ 0 →
      (∃ t, exec .div s = .next t ∧ t = { s with pc := s.pcAfter 1, sp := s.sp + 1, ax := t.ax } ∧
        t.ax < 2 ^ s.cfg.width ∧
        s.signed t.ax =
          if s.signed s.top = -2 ^ (s.cfg.width - 1) ∧ s.signed s.ax = -1 then -2 ^ (s.cfg.width - 1)
          else Int.tdiv (s.signed s.top) (s.signed s.ax)) ∧
      (∃ t, exec .mod s = .next t ∧ t = { s with pc := s.pcAfter 1, sp := s.sp + 1, ax := t.ax } ∧
        t.ax < 2 ^ s.cfg.width ∧
        s.signed t.ax =
          s.signed s.top - Int.tdiv (s.signed s.top) (s.signed s.ax) * s.signed s.ax)) ∧
    (s.hasTop → s.ax = 0 →
      exec .div s = .next (s.faultedWith .arithmeticError 0 none .divideByZero) ∧
      exec .mod s = .next (s.faultedWith .arithmeticError 0 none .divideByZero)) ∧
    (s.cfg.stackTop ≤ s.sp →
      exec .div s = .next (s.faultedWith .stackUnderflow 0 none .none) ∧
      exec .mod s = .next (s.faultedWith .stackUnderflow 0 none .none))

/-- Derived from R176 and R177: quotient and remainder of the same operands satisfy `l = q * r + m`
modulo `2^W` always and exactly unless the operands are MIN and -1; the remainder is smaller than the
divisor in magnitude and is 0 or has the dividend's sign. -/
def Obligations.QuotientAndRemainderAgree : Prop :=
  ∀ s q m : State, s.cfg.wellFormed = true → s.WordsFit → s.hasTop → s.ax ≠ 0 →
    exec .div s = .next q → exec .mod s = .next m →
    (q.ax * s.ax + m.ax) % 2 ^ s.cfg.width = s.top ∧
    (¬(s.signed s.top = -2 ^ (s.cfg.width - 1) ∧ s.signed s.ax = -1) →
      s.signed q.ax * s.signed s.ax + s.signed m.ax = s.signed s.top) ∧
    |s.signed m.ax| < |s.signed s.ax| ∧ 0 ≤ s.signed m.ax * s.signed s.top

/-- Derived from R161 to R163 and R177: at every width the operators' definitions on values are the
machine operations on bit-vectors: the bitwise operators, the modular sum, difference and product, the
masked shifts, the signed quotient and remainder, equality and the signed orders. -/
def Obligations.OperatorsAreTheWordOperations : Prop :=
  ∀ (w : Nat) (l r : BitVec w),
    aluOr l.toNat r.toNat = (l ||| r).toNat ∧ aluXor l.toNat r.toNat = (l ^^^ r).toNat ∧
    aluAnd l.toNat r.toNat = (l &&& r).toNat ∧
    aluAdd w l.toNat r.toNat = (l + r).toNat ∧ aluSub w l.toNat r.toNat = (l - r).toNat ∧
    aluMul w l.toNat r.toNat = (l * r).toNat ∧
    aluShl w l.toNat r.toNat = (l <<< (r.toNat % 2 ^ Nat.log2 w)).toNat ∧
    aluShr w l.toNat r.toNat = (l.sshiftRight (r.toNat % 2 ^ Nat.log2 w)).toNat ∧
    (r ≠ 0 → aluDiv w l.toNat r.toNat = .ok (l.sdiv r).toNat ∧
      aluMod w l.toNat r.toNat = .ok (l.srem r).toNat) ∧
    aluEq l.toNat r.toNat = (if l = r then 1 else 0) ∧ aluNe l.toNat r.toNat = (if l = r then 0 else 1) ∧
    aluLt w l.toNat r.toNat = (if l.slt r then 1 else 0) ∧
    aluLe w l.toNat r.toNat = (if l.sle r then 1 else 0) ∧
    aluGt w l.toNat r.toNat = (if r.slt l then 1 else 0) ∧
    aluGe w l.toNat r.toNat = (if r.sle l then 1 else 0)

/-! ## Termination and the run -/

/-- R200: EXIT copies the stack top to EXIT_STATUS without popping it and halts; on an empty stack
StackUnderflow. -/
def Obligations.ExitReportsTheStackTop : Prop :=
  ∀ s : State,
    (s.hasTop →
      exec .exit s = .next { s with pc := s.pcAfter 1, exitStatus := s.top, runState := .halted }) ∧
    (s.cfg.stackTop ≤ s.sp →
      exec .exit s = .next (s.faultedWith .stackUnderflow 0 none .none))

/-- R202: a run that reaches EXIT with a stack top and without a prior error terminates, and its result
is the stack top at that instant: of the steps from any RUNNING state, and of `run`, when the state its
reset, loads and start lead to reaches such an EXIT after `k` steps. -/
def Obligations.RunThatReachesExitReturnsTheStackTop : Prop :=
  (∀ (s u : State) (k fuel : Nat), s.runState = .running →
    Host.Core.run Sys2Proof.core k s = .next u → u.runState = .running → fetchDecode u = .ok .exit →
    u.hasTop → k < fuel →
    ∃ t, runSteps fuel s = .next (.exited u.top, t) ∧
      t = { u with pc := u.pcAfter 1, exitStatus := u.top, runState := .halted }) ∧
  ∀ (s s₁ s₂ s₃ u : State) (program data : List Nat) (entry : Option Nat) (frame : LaunchFrame)
    (k fuel : Nat), loadText program (hostReset s) = .next s₁ → loadData data s₁ = .next s₂ →
    start entry frame s₂ = .next s₃ → Host.Core.run Sys2Proof.core k s₃ = .next u →
    u.runState = .running → fetchDecode u = .ok .exit → u.hasTop → k < fuel →
    ∃ t, run fuel program data entry frame s = .next (.exited u.top, t) ∧
      t = { u with pc := u.pcAfter 1, exitStatus := u.top, runState := .halted }

/-- Derived from R202, R237, R255: a run that returns Exited(v) did execute EXIT, with v on the stack
top; and what `run` does is reset, load TEXT, load DATA, start, and steps. -/
def Obligations.ExitedMeansAnExitWasExecuted : Prop :=
  (∀ (s t : State) (v : Nat) (fuel : Nat), s.runState = .running →
    runSteps fuel s = .next (.exited v, t) →
    ∃ k u, k < fuel ∧ Host.Core.run Sys2Proof.core k s = .next u ∧ u.runState = .running ∧
      fetchDecode u = .ok .exit ∧ v = u.top ∧ step u = .next t) ∧
  ∀ (s t : State) (program data : List Nat) (entry : Option Nat) (frame : LaunchFrame) (v : Nat)
    (fuel : Nat), run fuel program data entry frame s = .next (.exited v, t) →
    ∃ s₁ s₂ s₃, loadText program (hostReset s) = .next s₁ ∧ loadData data s₁ = .next s₂ ∧
      start entry frame s₂ = .next s₃ ∧ s₃.runState = .running ∧ runSteps fuel s₃ = .next (.exited v, t)

/-! ## Frames -/

/-- Derived from R26 (its column "writes"): a register an instruction does not write keeps its value, and
PC is advanced by the length where the instruction does not write it. -/
def Obligations.OnlyTheListedRegistersAreWritten : Prop :=
  ∀ (i : Instr) (s t : State), exec i s = .next t →
    (i.mnemonic.writesAx = false → t.ax = s.ax) ∧ (i.mnemonic.writesSp = false → t.sp = s.sp) ∧
    (i.mnemonic.writesBp = false → t.bp = s.bp) ∧
    (i.mnemonic.writesPc = false → t.runState ≠ .faulted →
      t.pc = s.pcAfter i.mnemonic.length)

/-- Derived from R26 (its column "reads"): a register an instruction does not read has no influence on
what it does: it only stays as it was, or is overwritten. -/
def Obligations.UnreadRegistersHaveNoInfluence : Prop :=
  ∀ (i : Instr) (s : State) (x : Nat),
    (i.mnemonic.readsAx = false →
      exec i { s with ax := x } =
        if i.mnemonic.writesAx then exec i s else mapNext (fun t => { t with ax := x }) (exec i s)) ∧
    (i.mnemonic.readsBp = false →
      exec i { s with bp := x } = mapNext (fun t => { t with bp := x }) (exec i s)) ∧
    (i.mnemonic.readsSp = false → s.runState ≠ .faulted →
      exec i { s with sp := x } =
        mapNext (fun t => if i.mnemonic.writesSp ∧ t.runState ≠ .faulted then t else { t with sp := x })
          (exec i s))

/-- Derived from R9, R54, R58, R60: every cell keeps its value but the one the instruction stores to: the
cell below the stack top for PUSH, CALL and ENT, the popped address for SI and SC, none for the other
27 instructions. -/
def Obligations.OnlyTheStoredCellChanges : Prop :=
  ∀ (i : Instr) (s t : State), exec i s = .next t →
    ∀ b, storedCell i s ≠ some b → t.mem.read b = s.mem.read b

/-- Derived from R32, and for the codes from the instructions' own "Faults" lines as R216 gathers them
(R216 is an inference of the spec): RUN_STATE, the fault record, EXIT_STATUS and the parameters change
only as EXIT and fault entry (R221) change them. -/
def Obligations.StatusChangesOnlyByExitAndFault : Prop :=
  ∀ (i : Instr) (s t : State), exec i s = .next t →
    t.cfg = s.cfg ∧
    ((t.runState = s.runState ∧ t.fault = s.fault ∧ t.exitStatus = s.exitStatus) ∨
      (i = .exit ∧ t.runState = .halted ∧ t.fault = s.fault ∧ t.exitStatus = s.top) ∨
      (t.runState = .faulted ∧ t.fault.code ∈ i.mnemonic.executionFaults ∧ t.exitStatus = s.exitStatus))

/-- Derived from the instructions' rules (R216, an inference of the spec): the faults of an executing
instruction are among those of its row, and for every instruction each fault of its row is raised by
some safe state and operand. -/
def Obligations.ExecutionFaultsAreThoseOfTheTable : Prop :=
  (∀ (i : Instr) (s t : State), s.runState ≠ .faulted → exec i s = .next t → t.runState = .faulted →
    t.fault.code ∈ i.mnemonic.executionFaults) ∧
  ∀ (k : Mnemonic) (c : FaultCode), c ∈ k.executionFaults →
    ∃ (v : Nat) (s t : State), s.Inv ∧ v < 2 ^ s.cfg.width ∧ s.runState = .running ∧
      exec (k.toInstr v) s = .next t ∧ t.runState = .faulted ∧ t.fault.code = c

/-! ## The call-frame protocol -/

/-- Derived from R120, R124, R126 (R130, an inference of the spec): the activation record after a
caller pushes its arguments, calls, and the callee enters: the caller's BP at BP, the return address
above it, the arguments above that, last pushed lowest; SP `n` cells below BP, and no cell below BP
cleared. -/
def Obligations.ActivationRecordLayout : Prop :=
  ∀ (s s₀ s₁ s₂ : State) (args : List Nat) (f n : Nat), s.Inv → s.runState = .running →
    pushArgs args s = some s₀ → exec (.call f) s₀ = .next s₁ → s₁.runState = .running →
    exec (.ent n) s₁ = .next s₂ → s₂.runState = .running →
    s₂.mem.read s₂.bp = s.bp ∧ s₂.mem.read (s₂.bp + 1) = s₀.pcAfter 2 ∧
    (∀ (j : Nat) (hj : j < args.length),
      s₂.mem.read (s₂.bp + (args.length - j) + 1) = args[j]'hj) ∧
    (s₂.sp : Int) = s₂.bp - s.signed n ∧
    (∀ a, a < s₂.bp → s₂.mem.read a = s.mem.read a) ∧
    s₂.bp + args.length + 2 = s.sp

/-- Derived from R124, R126, R128 (R133, an inference of the spec): frame balance. If the callee's body
leaves BP and the saved-BP and return cells unchanged, then after its LEV SP and BP are as before the
CALL and PC is past the CALL. -/
def Obligations.FramesBalance : Prop :=
  ∀ (s s₁ s₂ s₃ s₄ : State) (f n : Nat), s.cfg.wellFormed = true → s.mem.wf →
    s.sp < 2 ^ s.cfg.width → s.runState = .running → exec (.call f) s = .next s₁ → s₁.runState = .running →
    exec (.ent n) s₁ = .next s₂ → s₂.runState = .running →
    s₃.cfg = s.cfg → s₃.bp = s₂.bp → s₃.mem.read s₂.bp = s₂.mem.read s₂.bp →
    s₃.mem.read (s₂.bp + 1) = s₂.mem.read (s₂.bp + 1) →
    exec .lev s₃ = .next s₄ → s₄.runState = .running →
    s₄.sp = s.sp ∧ s₄.bp = s.bp ∧ s₄.pc = s.pcAfter 2

/-- Derived from R124, R125 (R134, an inference of the spec): frameless call. If the callee returns
with RET when SP is back to its value after the CALL and the return cell is unchanged, SP is as before
the CALL and PC is past the CALL. -/
def Obligations.FramelessCallsReturn : Prop :=
  ∀ (s s₁ s₂ s₃ : State) (f : Nat), s.cfg.wellFormed = true → s.mem.wf →
    s.sp < 2 ^ s.cfg.width → s.runState = .running → exec (.call f) s = .next s₁ → s₁.runState = .running →
    s₂.cfg = s.cfg → s₂.sp = s₁.sp → s₂.mem.read s₁.sp = s₁.mem.read s₁.sp →
    exec .ret s₂ = .next s₃ → s₃.runState = .running →
    s₃.sp = s.sp ∧ s₃.pc = s.pcAfter 2

/-- Derived from R126, R128 (R132, an inference of the spec): a completed ENT adds one link to the
saved-BP chain and a completed LEV removes one. -/
def Obligations.EntAndLevLinkTheBpChain : Prop :=
  (∀ (s t : State) (n launch : Nat) (links : List Nat), s.cfg.wellFormed = true → s.mem.wf → s.hasRoom →
    isBpChain s.mem launch s.bp links = true → (∀ b ∈ links, s.sp ≤ b) →
    s.sp - 1 ≠ launch → exec (.ent n) s = .next t → t.runState ≠ .faulted →
    isBpChain t.mem launch t.bp (t.bp :: links) = true) ∧
  ∀ (s t : State) (b launch : Nat) (links : List Nat), s.cfg.wellFormed = true →
    isBpChain s.mem launch s.bp (b :: links) = true → exec .lev s = .next t → t.runState ≠ .faulted →
    isBpChain t.mem launch t.bp links = true

/-! ## The host interface -/

/-- R251: in IDLE an image that fits is written to the cells from the start of its segment and nothing
else changes; a longer one is refused with an OutOfBounds record at the first address past the window
and no cell past it is written, and `run` returns that error before any step. -/
def Obligations.LoadPlacesOrRefusesImages : Prop :=
  ∀ (s : State) (image : List Nat), s.cfg.wellFormed = true → s.mem.wf → s.runState = .idle →
    (image.length ≤ s.cfg.textLen → (∀ v ∈ image, v < 2 ^ s.cfg.width) →
      ∃ t, loadText image s = .next t ∧ t = { s with mem := t.mem } ∧
        (∀ (k : Nat) (hk : k < image.length), t.mem.read (s.cfg.textBase + k) = image[k]'hk) ∧
        ∀ a, a < s.cfg.textBase ∨ s.cfg.textBase + image.length ≤ a → t.mem.read a = s.mem.read a) ∧
    (image.length ≤ s.cfg.dataLen → (∀ v ∈ image, v < 2 ^ s.cfg.width) →
      ∃ t, loadData image s = .next t ∧ t = { s with mem := t.mem } ∧
        (∀ (k : Nat) (hk : k < image.length), t.mem.read (s.cfg.dataBase + k) = image[k]'hk) ∧
        ∀ a, a < s.cfg.dataBase ∨ s.cfg.dataBase + image.length ≤ a → t.mem.read a = s.mem.read a) ∧
    (s.cfg.textLen < image.length →
      ∃ t, loadText image s = .next t ∧ t = { s with runState := .faulted, fault := t.fault, mem := t.mem } ∧
        (∀ a, a < s.cfg.textBase ∨ s.cfg.textEnd ≤ a → t.mem.read a = s.mem.read a) ∧
        t.fault = ⟨.outOfBounds, 0, 0, s.cfg.textEnd, some .text, .none⟩) ∧
    (s.cfg.dataLen < image.length →
      ∃ t, loadData image s = .next t ∧ t = { s with runState := .faulted, fault := t.fault, mem := t.mem } ∧
        (∀ a, a < s.cfg.dataBase ∨ s.cfg.dataEnd ≤ a → t.mem.read a = s.mem.read a) ∧
        t.fault = ⟨.outOfBounds, 0, 0, s.cfg.dataEnd, some .data, .none⟩) ∧
    (∀ (fuel : Nat) (other : List Nat) (entry : Option Nat) (frame : LaunchFrame),
      (s.cfg.textLen < image.length →
        ∃ t, run fuel image other entry frame s = .next (.error t.fault, t) ∧
          loadText image (hostReset s) = .next t) ∧
      (other.length ≤ s.cfg.textLen → s.cfg.dataLen < image.length →
        ∃ t u, run fuel other image entry frame s = .next (.error t.fault, t) ∧
          loadText other (hostReset s) = .next u ∧ loadData image u = .next t))

/-- R252, with the default of ENTRY_PC from R5: start sets PC to the host's entry, to TEXT_BASE when the
host gives none, and RUN_STATE to RUNNING; without a frame nothing else changes; with a C-main frame
from an empty stack the three cells below `STACK_TOP` hold argc, argv and RET_STUB and SP is
`STACK_TOP - 3`. -/
def Obligations.StartLaunchesTheRun : Prop :=
  ∀ (s : State) (entry : Option Nat) (argc argv stub : Nat), s.cfg.wellFormed = true → s.mem.wf →
    s.runState = .idle → s.sp = s.cfg.stackTop →
    (∃ t, start entry .none s = .next t ∧ t = { s with pc := t.pc, runState := .running } ∧
      (∀ e, entry = some e → e < 2 ^ s.cfg.width → t.pc = e) ∧ (entry = none → t.pc = s.cfg.textBase)) ∧
    (3 ≤ s.cfg.stackLen → argc < 2 ^ s.cfg.width → argv < 2 ^ s.cfg.width → inText s.cfg stub = true →
      ∃ t, start entry (.cMain argc argv stub) s = .next t ∧
        t = { s with pc := t.pc, sp := s.cfg.stackTop - 3, mem := t.mem, runState := .running } ∧
        (∀ e, entry = some e → e < 2 ^ s.cfg.width → t.pc = e) ∧ (entry = none → t.pc = s.cfg.textBase) ∧
        t.mem.read (s.cfg.stackTop - 1) = argc ∧ t.mem.read (s.cfg.stackTop - 2) = argv ∧
        t.mem.read (s.cfg.stackTop - 3) = stub ∧
        ∀ a, a < s.cfg.stackTop - 3 ∨ s.cfg.stackTop ≤ a → t.mem.read a = s.mem.read a)

/-- Derived from R254 and item U15: outside IDLE the interface offers neither load nor start; the model
refuses them by name (log entry 15). -/
def Obligations.LoadAndStartAreOfferedOnlyInIdle : Prop :=
  ∀ (s : State) (image : List Nat) (entry : Option Nat) (frame : LaunchFrame), s.runState ≠ .idle →
    loadText image s = .refused .notIdle ∧ loadData image s = .refused .notIdle ∧
      start entry frame s = .refused .notIdle

/-- Derived from the constraint "RET_STUB a TEXT address" of R5: in IDLE a start with a C-main frame
whose RET_STUB is no TEXT address is refused; that it is refused, and by this name, is the model's
choice (log entry 23). -/
def Obligations.StartRefusesAStubOutsideText : Prop :=
  ∀ (s : State) (entry : Option Nat) (argc argv stub : Nat), s.runState = .idle →
    inText s.cfg stub = false → start entry (.cMain argc argv stub) s = .refused .retStubNotInText

/-- Derived from R251, R252, R82 (the model's own placing, log entry 8): an instruction word placed for
the next fetch is the one the next step executes, at the width and under the map the word is read with.
-/
def Obligations.PlacedInstructionIsExecuted : Prop :=
  ∀ (s : State) (i : Instr) (nbits w : Nat), s.cfg.wellFormed = true → s.mem.wf → s.cfg.width = 64 →
    s.cfg.opcodeMap = defaultOpcodeMap → 2 ≤ s.cfg.textLen → decodeTableWord nbits w = some i →
    step (s.withFetchWord nbits w) = exec i (s.withFetchWord nbits w)
end

