-- ==== Sys2Proof/Laws/Dispatch.lean ====
section
/-! SUPPORT. The dispatch, one equation per constructor: the transaction an instruction is. -/

namespace Sys2Proof.Machine

theorem exec_lea (n : Nat) (s : State) : exec (.lea n) s = transact 2 (pseudoLea n) s := rfl

theorem exec_imm (v : Nat) (s : State) : exec (.imm v) s = transact 2 (pseudoImm v) s := rfl

theorem exec_jmp (target : Nat) (s : State) : exec (.jmp target) s = transact 2 (pseudoJmp target) s := rfl

theorem exec_call (target : Nat) (s : State) : exec (.call target) s = transact 2 (pseudoCall target) s := rfl

theorem exec_jz (target : Nat) (s : State) : exec (.jz target) s = transact 2 (pseudoJz target) s := rfl

theorem exec_jnz (target : Nat) (s : State) : exec (.jnz target) s = transact 2 (pseudoJnz target) s := rfl

theorem exec_ent (n : Nat) (s : State) : exec (.ent n) s = transact 2 (pseudoEnt n) s := rfl

theorem exec_adj (n : Nat) (s : State) : exec (.adj n) s = transact 2 (pseudoAdj n) s := rfl

theorem exec_lev (s : State) : exec .lev s = transact 1 pseudoLev s := rfl

theorem exec_li (s : State) : exec .li s = transact 1 pseudoLi s := rfl

theorem exec_lc (s : State) : exec .lc s = transact 1 pseudoLc s := rfl

theorem exec_si (s : State) : exec .si s = transact 1 pseudoSi s := rfl

theorem exec_sc (s : State) : exec .sc s = transact 1 pseudoSc s := rfl

theorem exec_push (s : State) : exec .push s = transact 1 pseudoPush s := rfl

theorem exec_or (s : State) : exec .or s = transact 1 (binaryOp (fun _ l r => .ok (aluOr l r))) s := rfl

theorem exec_xor (s : State) : exec .xor s = transact 1 (binaryOp (fun _ l r => .ok (aluXor l r))) s := rfl

theorem exec_and (s : State) : exec .and s = transact 1 (binaryOp (fun _ l r => .ok (aluAnd l r))) s := rfl

theorem exec_eq (s : State) : exec .eq s = transact 1 (binaryOp (fun _ l r => .ok (aluEq l r))) s := rfl

theorem exec_ne (s : State) : exec .ne s = transact 1 (binaryOp (fun _ l r => .ok (aluNe l r))) s := rfl

theorem exec_lt (s : State) : exec .lt s = transact 1 (binaryOp (fun w l r => .ok (aluLt w l r))) s := rfl

theorem exec_gt (s : State) : exec .gt s = transact 1 (binaryOp (fun w l r => .ok (aluGt w l r))) s := rfl

theorem exec_le (s : State) : exec .le s = transact 1 (binaryOp (fun w l r => .ok (aluLe w l r))) s := rfl

theorem exec_ge (s : State) : exec .ge s = transact 1 (binaryOp (fun w l r => .ok (aluGe w l r))) s := rfl

theorem exec_shl (s : State) : exec .shl s = transact 1 (binaryOp (fun w l r => .ok (aluShl w l r))) s := rfl

theorem exec_shr (s : State) : exec .shr s = transact 1 (binaryOp (fun w l r => .ok (aluShr w l r))) s := rfl

theorem exec_add (s : State) : exec .add s = transact 1 (binaryOp (fun w l r => .ok (aluAdd w l r))) s := rfl

theorem exec_sub (s : State) : exec .sub s = transact 1 (binaryOp (fun w l r => .ok (aluSub w l r))) s := rfl

theorem exec_mul (s : State) : exec .mul s = transact 1 (binaryOp (fun w l r => .ok (aluMul w l r))) s := rfl

theorem exec_div (s : State) : exec .div s = transact 1 (binaryOp aluDiv) s := rfl

theorem exec_mod (s : State) : exec .mod s = transact 1 (binaryOp aluMod) s := rfl

theorem exec_exit (s : State) : exec .exit s = transact 1 pseudoExit s := rfl

theorem exec_ret (s : State) : exec .ret s = transact 1 pseudoRet s := rfl

end Sys2Proof.Machine
end

