-- ==== Sys2Proof/Laws/Memory.lean ====
section
/-! SUPPORT. The laws of the canonical memory: read after write, and every write keeps the form. -/

namespace Sys2Proof.Machine

@[simp] theorem Memory.read_nil (a : Nat) : Memory.read [] a = 0 := rfl

theorem Memory.read_eq_zero_of_not_mem {m : Memory} {a : Nat} (h : a ∉ m.map Prod.fst) :
    m.read a = 0 := by
  induction m with
  | nil => rfl
  | cons e m ih =>
    obtain ⟨b, x⟩ := e
    simp only [List.map_cons, List.mem_cons, not_or] at h
    simp [Memory.read, h.1, ih h.2]

/-- The entries of a written memory are the written one, unless its value is 0, and old ones. -/
theorem Memory.mem_write {m : Memory} {a : Nat} {v : Nat} {e : Nat × Nat} (h : e ∈ m.write a v) :
    (e = (a, v) ∧ v ≠ 0) ∨ e ∈ m := by
  induction m with
  | nil =>
    unfold Memory.write at h
    split at h <;> simp_all
  | cons f m ih =>
    unfold Memory.write at h
    simp only [List.mem_cons]
    split_ifs at h with h1 h2 h3 h4
    · exact .inr (List.mem_cons.1 h)
    · rcases List.mem_cons.1 h with h | h
      · exact .inl ⟨h, h2⟩
      · exact .inr (List.mem_cons.1 h)
    · exact .inr (.inr h)
    · rcases List.mem_cons.1 h with h | h
      · exact .inl ⟨h, h4⟩
      · exact .inr (.inr h)
    · rcases List.mem_cons.1 h with h | h
      · exact .inr (.inl h)
      · exact (ih h).imp_right .inr

/-- The keys of a written memory are old keys or the written one. -/
theorem Memory.keys_write {m : Memory} {a : Nat} {v : Nat} {k : Nat}
    (h : k ∈ (m.write a v).map Prod.fst) : k = a ∨ k ∈ m.map Prod.fst := by
  obtain ⟨e, he, rfl⟩ := List.mem_map.1 h
  rcases Memory.mem_write he with ⟨rfl, -⟩ | he
  · exact .inl rfl
  · exact .inr (List.mem_map_of_mem he)

/-- Every write keeps the canonical form. -/
theorem Memory.write_wf {m : Memory} (h : m.wf) (a : Nat) (v : Nat) : (m.write a v).wf := by
  refine ⟨?_, fun x hx => ?_⟩
  · have hs := h.1
    clear h
    induction m with
    | nil => unfold Memory.write; split <;> simp
    | cons e m ih =>
      obtain ⟨b, y⟩ := e
      simp only [List.map_cons, List.pairwise_cons] at hs
      unfold Memory.write
      split_ifs with h1 h2 h3 h4
      · simpa using hs
      · simp only [List.map_cons, List.pairwise_cons, List.mem_cons]
        refine ⟨fun k hk => ?_, hs⟩
        rcases hk with rfl | hk
        · exact h1
        · exact lt_trans h1 (hs.1 k hk)
      · exact hs.2
      · subst h3; simpa using hs
      · simp only [List.map_cons, List.pairwise_cons]
        refine ⟨fun k hk => ?_, ih hs.2⟩
        rcases Memory.keys_write hk with rfl | hk
        · omega
        · exact hs.1 k hk
  · rcases Memory.mem_write hx with ⟨rfl, h0⟩ | hx
    · exact h0
    · exact h.2 x hx

/-- A write leaves every other cell alone, whatever the form of the memory. -/
theorem Memory.read_write_other {m : Memory} {a b : Nat} (hb : b ≠ a) (v : Nat) :
    (m.write a v).read b = m.read b := by
  induction m with
  | nil => unfold Memory.write; split_ifs <;> simp [Memory.read, hb]
  | cons e m ih =>
    unfold Memory.write
    split_ifs with h1 h2 h3 h4 <;> simp_all [Memory.read]

/-- A cell below every listed address reads 0. -/
theorem Memory.read_below {m : Memory} {c b : Nat} (h : ∀ k ∈ m.map Prod.fst, c < k) (hb : b ≤ c) :
    m.read b = 0 :=
  Memory.read_eq_zero_of_not_mem (fun hm => absurd (h b hm) (by omega))

/-- A written cell reads as what was written. -/
theorem Memory.read_write_same {m : Memory} (h : m.wf) (a : Nat) (v : Nat) :
    (m.write a v).read a = v := by
  have hs := h.1
  clear h
  induction m with
  | nil => unfold Memory.write; split_ifs <;> simp_all [Memory.read]
  | cons e m ih =>
    simp only [List.map_cons, List.pairwise_cons] at hs
    unfold Memory.write
    split_ifs with h1 h2 h3 h4
    · simp [Memory.read, h1.ne, h2, Memory.read_below hs.1 h1.le]
    · simp [Memory.read]
    · rw [h4, Memory.read_below hs.1 h3.le]
    · simp [Memory.read]
    · simp [Memory.read, h3, ih hs.2]

/-- Read after write, both cases. -/
theorem Memory.read_write {m : Memory} (h : m.wf) (a : Nat) (v : Nat) (b : Nat) :
    (m.write a v).read b = if b = a then v else m.read b := by
  split_ifs with hb
  · rw [hb, Memory.read_write_same h]
  · exact Memory.read_write_other hb v

/-- Writing a list of values keeps the canonical form. -/
theorem Memory.writeList_wf (vs : List Nat) : ∀ {m : Memory}, m.wf → ∀ a, (m.writeList a vs).wf := by
  induction vs with
  | nil => exact fun h _ => h
  | cons v vs ih => exact fun h a => ih (Memory.write_wf h a v) (a + 1)

/-- The keys of a memory with a list written are old keys or lie in the written row. -/
theorem Memory.keys_writeList {k : Nat} (vs : List Nat) : ∀ {m : Memory} {a : Nat},
    k ∈ (m.writeList a vs).map Prod.fst → (a ≤ k ∧ k < a + vs.length) ∨ k ∈ m.map Prod.fst := by
  induction vs with
  | nil => exact fun h => .inr h
  | cons v vs ih =>
    intro m a h
    rcases ih h with h | h
    · simp only [List.length_cons]; omega
    · rcases Memory.keys_write h with h | h
      · simp only [List.length_cons]; omega
      · exact .inr h

/-- What a memory with a list written reads as. -/
theorem Memory.read_writeList (vs : List Nat) : ∀ {m : Memory}, m.wf → ∀ a b,
    (m.writeList a vs).read b = if h : a ≤ b ∧ b - a < vs.length then vs[b - a]'h.2 else m.read b := by
  induction vs with
  | nil => intro m _ a b; simp [Memory.writeList]
  | cons v vs ih =>
    intro m hm a b
    rw [Memory.writeList, ih (Memory.write_wf hm a v), Memory.read_write hm]
    rcases lt_trichotomy b a with h | rfl | h
    · rw [dif_neg (by omega), dif_neg (by omega), if_neg (by omega)]
    · simp
    · obtain ⟨j, rfl⟩ : ∃ j, b = a + 1 + j := ⟨b - a - 1, by omega⟩
      have h1 : a + 1 + j - (a + 1) = j := by omega
      have h2 : a + 1 + j - a = j + 1 := by omega
      simp only [h1, h2, List.length_cons, Nat.add_lt_add_iff_right, List.getElem_cons_succ]
      by_cases hj : j < vs.length
      · rw [dif_pos ⟨by omega, hj⟩, dif_pos ⟨by omega, hj⟩]
      · rw [dif_neg (by omega), dif_neg (by omega), if_neg (by omega)]

/-- Every cell of a memory whose entries are below a bound reads below it. -/
theorem Memory.read_lt {m : Memory} {bound : Nat} (h : ∀ e ∈ m, e.2 < bound) (h0 : 0 < bound) (a : Nat) :
    m.read a < bound := by
  induction m with
  | nil => exact h0
  | cons e m ih =>
    unfold Memory.read
    split_ifs
    · exact h e (by simp)
    · exact ih fun x hx => h x (by simp [hx])

/-- A write of a value below a bound keeps every entry below it. -/
theorem Memory.write_lt {m : Memory} {bound : Nat} (h : ∀ e ∈ m, e.2 < bound) {v : Nat} (hv : v < bound)
    (a : Nat) : ∀ e ∈ m.write a v, e.2 < bound := fun e he => by
  rcases Memory.mem_write he with ⟨rfl, -⟩ | he
  · exact hv
  · exact h e he

/-- Writing a list of values below a bound keeps every entry below it. -/
theorem Memory.writeList_lt {bound : Nat} (vs : List Nat) : ∀ {m : Memory}, (∀ e ∈ m, e.2 < bound) →
    (∀ v ∈ vs, v < bound) → ∀ a, ∀ e ∈ m.writeList a vs, e.2 < bound := by
  induction vs with
  | nil => exact fun h _ _ => h
  | cons v vs ih =>
    exact fun h hv a => ih (Memory.write_lt h (hv v (by simp)) a) (fun x hx => hv x (by simp [hx])) (a + 1)

/-- Equal canonical memories are equal data: they are equal when every cell reads the same. -/
theorem Memory.ext_of_read {m n : Memory} (hm : m.wf) (hn : n.wf) (h : ∀ a, m.read a = n.read a) :
    m = n := by
  induction m generalizing n with
  | nil =>
    cases n with
    | nil => rfl
    | cons e n =>
      have h0 := h e.1
      simp only [Memory.read, if_true] at h0
      exact absurd h0.symm (hn.2 e (by simp))
  | cons e m ih =>
    have hms := hm.1
    simp only [List.map_cons, List.pairwise_cons] at hms
    cases n with
    | nil =>
      have h0 := h e.1
      simp only [Memory.read, if_true] at h0
      exact absurd h0 (hm.2 e (by simp))
    | cons f n =>
      have hns := hn.1
      simp only [List.map_cons, List.pairwise_cons] at hns
      have hk : e.1 = f.1 := by
        rcases lt_trichotomy e.1 f.1 with hl | he | hl
        · have h0 := h e.1
          simp only [Memory.read, if_true, if_neg hl.ne, Memory.read_below hns.1 hl.le] at h0
          exact absurd h0 (hm.2 e (by simp))
        · exact he
        · have h0 := h f.1
          simp only [Memory.read, if_true, if_neg hl.ne, Memory.read_below hms.1 hl.le] at h0
          exact absurd h0.symm (hn.2 f (by simp))
      have hv : e.2 = f.2 := by
        have h0 := h e.1
        simpa only [Memory.read, hk, if_true] using h0
      have ht : m = n := by
        refine ih ⟨hms.2, fun x hx => hm.2 x (by simp [hx])⟩ ⟨hns.2, fun x hx => hn.2 x (by simp [hx])⟩
          (fun a => ?_)
        by_cases ha : a = e.1
        · rw [Memory.read_below hms.1 ha.le, Memory.read_below hns.1 (ha.trans hk).le]
        · have h0 := h a
          simpa only [Memory.read, if_neg ha, if_neg (hk ▸ ha)] using h0
      rw [ht, Prod.ext hk hv]

end Sys2Proof.Machine
end

