-- ==== Sys2Proof/Laws/Word.lean ====
section
/-! SUPPORT. What `wrap` and `sint` (R6) are on numbers that fit, their agreement with bit-vectors, and the
bounds well-formed parameters give. -/

namespace Sys2Proof

theorem two_pow_pos_int (w : Nat) : (0 : Int) < 2 ^ w := by positivity

/-- `2^w` is twice `2^(w-1)`. -/
theorem two_pow_half {w : Nat} (h : 0 < w) : 2 * 2 ^ (w - 1) = 2 ^ w := by
  obtain ⟨k, rfl⟩ := Nat.exists_eq_succ_of_ne_zero h.ne'
  simp [pow_succ, mul_comm]

/-- `wrap` always answers a word. -/
theorem wrap_lt (w : Nat) (z : Int) : wrap w z < 2 ^ w := by
  have h1 := Int.emod_lt_of_pos z (two_pow_pos_int w)
  have h0 := Int.emod_nonneg z (two_pow_pos_int w).ne'
  simp only [wrap]
  zify
  omega

/-- The value of `wrap`, as the rule states it. -/
theorem wrap_cast (w : Nat) (z : Int) : (wrap w z : Int) = z % 2 ^ w :=
  Int.toNat_of_nonneg (Int.emod_nonneg z (two_pow_pos_int w).ne')

/-- `wrap` of an integer that fits a word keeps its value. -/
theorem wrap_of_fits {w : Nat} {z : Int} (h0 : 0 ≤ z) (h1 : z < 2 ^ w) : (wrap w z : Int) = z := by
  rw [wrap_cast, Int.emod_eq_of_lt h0 h1]

/-- `wrap` of a number is its remainder. -/
theorem wrap_natCast (w n : Nat) : wrap w (n : Int) = n % 2 ^ w := by
  have h := wrap_cast w n
  exact_mod_cast h

/-- `wrap` of a number that fits a word keeps it. -/
theorem wrap_nat {w n : Nat} (h : n < 2 ^ w) : wrap w (n : Int) = n := by
  rw [wrap_natCast, Nat.mod_eq_of_lt h]

theorem wrap_add_nat (w a n : Nat) : wrap w ((a : Int) + n) = (a + n) % 2 ^ w := by
  rw [← wrap_natCast]
  push_cast
  rfl

/-- The word above a word that is not the greatest. -/
theorem wrap_add_one {w a : Nat} (h : a + 1 < 2 ^ w) : wrap w ((a : Int) + 1) = a + 1 := by
  have := wrap_nat h
  rwa [Nat.cast_succ] at this

/-- The word below a word that is not 0. -/
theorem wrap_sub_one {w a : Nat} (h0 : 0 < a) (h : a ≤ 2 ^ w) : wrap w ((a : Int) - 1) = a - 1 := by
  rw [← Nat.cast_pred h0, wrap_nat (by omega)]

/-- The range of `sint` (R6). -/
theorem sint_range {w : Nat} (hw : 0 < w) {v : Nat} (h : v < 2 ^ w) :
    -2 ^ (w - 1) ≤ sint w v ∧ sint w v < 2 ^ (w - 1) := by
  have h2 := two_pow_half hw
  unfold sint
  zify at *
  split_ifs <;> omega

/-- `wrap` of a word's `sint` is the word. -/
theorem wrap_sint {w : Nat} {v : Nat} (h : v < 2 ^ w) : wrap w (sint w v) = v := by
  zify
  rw [wrap_cast]
  unfold sint
  zify at h
  split_ifs
  · exact Int.emod_eq_of_lt (by omega) h
  · rw [Int.sub_emod_right, Int.emod_eq_of_lt (by omega) h]

/-- `sint` of an integer in the signed range, wrapped, is that integer. -/
theorem sint_wrap {w : Nat} (hw : 0 < w) {z : Int} (h0 : -2 ^ (w - 1) ≤ z) (h1 : z < 2 ^ (w - 1)) :
    sint w (wrap w z) = z := by
  have h2 := two_pow_half hw
  have hc := wrap_cast w z
  unfold sint
  zify at h2 ⊢
  rcases lt_or_ge z 0 with hz | hz
  · rw [← Int.add_emod_right, Int.emod_eq_of_lt (by omega) (by omega)] at hc
    rw [if_neg (by omega)]
    omega
  · rw [Int.emod_eq_of_lt hz (by omega)] at hc
    rw [if_pos (by omega)]
    exact hc

/-- `sint` is the two's-complement reading of a bit-vector. -/
theorem sint_toNat {w : Nat} (v : BitVec w) : sint w v.toNat = v.toInt := by
  rw [BitVec.toInt_eq_toNat_cond]
  unfold sint
  rcases Nat.eq_zero_or_pos w with rfl | hw
  · have := v.isLt
    simp_all
  · have h2 := two_pow_half hw
    have h3 : v.toNat < 2 ^ (w - 1) ↔ 2 * v.toNat < 2 ^ w := by omega
    simp only [h3]
    push_cast
    rfl

/-- `wrap` is the bit-vector of an integer. -/
theorem wrap_eq_ofInt (w : Nat) (z : Int) : wrap w z = (BitVec.ofInt w z).toNat := by
  rw [BitVec.toNat_ofInt]
  simp only [wrap]
  push_cast
  rfl

/-- `sint` and `uint` of a number are congruent modulo `2^w`, so `wrap` does not tell them apart. -/
theorem sint_emod (w v : Nat) : sint w v % 2 ^ w = (v : Int) % 2 ^ w := by
  unfold sint
  split_ifs <;> simp

/-- The bounds on the windows that well-formed parameters give (R5, R23, D32). -/
theorem Config.bounds {c : Config} (h : c.wellFormed = true) :
    16 ≤ c.width ∧ c.textEnd ≤ c.stackTop ∧ c.dataEnd < 2 ^ c.width ∧ c.stackTop < 2 ^ c.width ∧
      c.stackTop ≤ 2 ^ (c.width - 1) := by
  simp only [Config.wellFormed, Bool.and_eq_true, decide_eq_true_eq] at h
  obtain ⟨⟨⟨⟨⟨⟨⟨⟨⟨⟨⟨h16, -⟩, -⟩, -⟩, -⟩, -⟩, -⟩, -⟩, h1⟩, h2⟩, h3⟩, -⟩ := h
  have h4 := two_pow_half (w := c.width) (by omega)
  have h5 : 0 < 2 ^ (c.width - 1) := by positivity
  omega

end Sys2Proof
end

