-- ==== Sys2Proof/Laws/State.lean ====
section
/-! SUPPORT. One lemma per field per named update of the state, each true by rfl. -/

namespace Sys2Proof.Machine

@[simp] theorem advance_pc (n : Nat) (s : State) :
    (advance n s).pc = wrap s.cfg.width (s.pc + n) := rfl

/-- The advance of PC as a remainder. -/
theorem advance_pc_eq (n : Nat) (s : State) : (advance n s).pc = s.pcAfter n := wrap_add_nat _ _ _

@[simp] theorem advance_sp (n : Nat) (s : State) :
    (advance n s).sp = s.sp := rfl

@[simp] theorem advance_bp (n : Nat) (s : State) :
    (advance n s).bp = s.bp := rfl

@[simp] theorem advance_ax (n : Nat) (s : State) :
    (advance n s).ax = s.ax := rfl

@[simp] theorem advance_mem (n : Nat) (s : State) :
    (advance n s).mem = s.mem := rfl

@[simp] theorem advance_runState (n : Nat) (s : State) :
    (advance n s).runState = s.runState := rfl

@[simp] theorem advance_fault (n : Nat) (s : State) :
    (advance n s).fault = s.fault := rfl

@[simp] theorem advance_exitStatus (n : Nat) (s : State) :
    (advance n s).exitStatus = s.exitStatus := rfl

@[simp] theorem advance_cfg (n : Nat) (s : State) :
    (advance n s).cfg = s.cfg := rfl

@[simp] theorem enterFault_pc (op : Nat) (e : FaultCause) (s : State) :
    (enterFault op e s).pc = s.pc := rfl

@[simp] theorem enterFault_sp (op : Nat) (e : FaultCause) (s : State) :
    (enterFault op e s).sp = s.sp := rfl

@[simp] theorem enterFault_bp (op : Nat) (e : FaultCause) (s : State) :
    (enterFault op e s).bp = s.bp := rfl

@[simp] theorem enterFault_ax (op : Nat) (e : FaultCause) (s : State) :
    (enterFault op e s).ax = s.ax := rfl

@[simp] theorem enterFault_mem (op : Nat) (e : FaultCause) (s : State) :
    (enterFault op e s).mem = s.mem := rfl

@[simp] theorem enterFault_runState (op : Nat) (e : FaultCause) (s : State) :
    (enterFault op e s).runState = .faulted := rfl

@[simp] theorem enterFault_fault (op : Nat) (e : FaultCause) (s : State) :
    (enterFault op e s).fault = ⟨e.code, s.pc, op, e.addr, e.seg, e.kind⟩ := rfl

@[simp] theorem enterFault_exitStatus (op : Nat) (e : FaultCause) (s : State) :
    (enterFault op e s).exitStatus = s.exitStatus := rfl

@[simp] theorem enterFault_cfg (op : Nat) (e : FaultCause) (s : State) :
    (enterFault op e s).cfg = s.cfg := rfl

@[simp] theorem faultedWith_pc (s : State) (code : FaultCode) (addr : Nat)
    (seg : Option Segment) (kind : FaultKind) :
    (s.faultedWith code addr seg kind).pc = s.pc := rfl

@[simp] theorem faultedWith_sp (s : State) (code : FaultCode) (addr : Nat)
    (seg : Option Segment) (kind : FaultKind) :
    (s.faultedWith code addr seg kind).sp = s.sp := rfl

@[simp] theorem faultedWith_bp (s : State) (code : FaultCode) (addr : Nat)
    (seg : Option Segment) (kind : FaultKind) :
    (s.faultedWith code addr seg kind).bp = s.bp := rfl

@[simp] theorem faultedWith_ax (s : State) (code : FaultCode) (addr : Nat)
    (seg : Option Segment) (kind : FaultKind) :
    (s.faultedWith code addr seg kind).ax = s.ax := rfl

@[simp] theorem faultedWith_mem (s : State) (code : FaultCode) (addr : Nat)
    (seg : Option Segment) (kind : FaultKind) :
    (s.faultedWith code addr seg kind).mem = s.mem := rfl

@[simp] theorem faultedWith_runState (s : State) (code : FaultCode) (addr : Nat)
    (seg : Option Segment) (kind : FaultKind) :
    (s.faultedWith code addr seg kind).runState = .faulted := rfl

@[simp] theorem faultedWith_fault (s : State) (code : FaultCode) (addr : Nat)
    (seg : Option Segment) (kind : FaultKind) :
    (s.faultedWith code addr seg kind).fault = ⟨code, s.pc, s.mem.read s.pc, addr, seg, kind⟩ := rfl

@[simp] theorem faultedWith_exitStatus (s : State) (code : FaultCode) (addr : Nat)
    (seg : Option Segment) (kind : FaultKind) :
    (s.faultedWith code addr seg kind).exitStatus = s.exitStatus := rfl

@[simp] theorem faultedWith_cfg (s : State) (code : FaultCode) (addr : Nat)
    (seg : Option Segment) (kind : FaultKind) :
    (s.faultedWith code addr seg kind).cfg = s.cfg := rfl

@[simp] theorem fetchFaulted_pc (s : State) : s.fetchFaulted.pc = s.pc := rfl

@[simp] theorem fetchFaulted_sp (s : State) : s.fetchFaulted.sp = s.sp := rfl

@[simp] theorem fetchFaulted_bp (s : State) : s.fetchFaulted.bp = s.bp := rfl

@[simp] theorem fetchFaulted_ax (s : State) : s.fetchFaulted.ax = s.ax := rfl

@[simp] theorem fetchFaulted_mem (s : State) : s.fetchFaulted.mem = s.mem := rfl

@[simp] theorem fetchFaulted_exitStatus (s : State) : s.fetchFaulted.exitStatus = s.exitStatus := rfl

@[simp] theorem fetchFaulted_cfg (s : State) : s.fetchFaulted.cfg = s.cfg := rfl

@[simp] theorem fetchFaulted_runState (s : State) : s.fetchFaulted.runState = .faulted := rfl

@[simp] theorem fetchFaulted_fault (s : State) :
    s.fetchFaulted.fault = ⟨.outOfBounds, s.pc, 0, s.pc, some .text, .none⟩ := rfl

@[simp] theorem initial_pc (c : Config) :
    (State.initial c).pc = wrap c.width c.textBase := rfl

@[simp] theorem initial_sp (c : Config) :
    (State.initial c).sp = wrap c.width c.stackTop := rfl

@[simp] theorem initial_bp (c : Config) :
    (State.initial c).bp = wrap c.width c.stackTop := rfl

@[simp] theorem initial_ax (c : Config) :
    (State.initial c).ax = 0 := rfl

@[simp] theorem initial_mem (c : Config) :
    (State.initial c).mem = [] := rfl

@[simp] theorem initial_runState (c : Config) :
    (State.initial c).runState = .idle := rfl

@[simp] theorem initial_fault (c : Config) :
    (State.initial c).fault = FaultRecord.empty := rfl

@[simp] theorem initial_exitStatus (c : Config) :
    (State.initial c).exitStatus = 0 := rfl

@[simp] theorem initial_cfg (c : Config) :
    (State.initial c).cfg = c := rfl

@[simp] theorem refuseImage_pc (seg : Segment) (e : Nat) (s : State) :
    (refuseImage seg e s).pc = s.pc := rfl

@[simp] theorem refuseImage_sp (seg : Segment) (e : Nat) (s : State) :
    (refuseImage seg e s).sp = s.sp := rfl

@[simp] theorem refuseImage_bp (seg : Segment) (e : Nat) (s : State) :
    (refuseImage seg e s).bp = s.bp := rfl

@[simp] theorem refuseImage_ax (seg : Segment) (e : Nat) (s : State) :
    (refuseImage seg e s).ax = s.ax := rfl

@[simp] theorem refuseImage_mem (seg : Segment) (e : Nat) (s : State) :
    (refuseImage seg e s).mem = s.mem := rfl

@[simp] theorem refuseImage_runState (seg : Segment) (e : Nat) (s : State) :
    (refuseImage seg e s).runState = .faulted := rfl

@[simp] theorem refuseImage_fault (seg : Segment) (e : Nat) (s : State) :
    (refuseImage seg e s).fault = ⟨.outOfBounds, 0, 0, wrap s.cfg.width e, some seg, .none⟩ := rfl

@[simp] theorem refuseImage_exitStatus (seg : Segment) (e : Nat) (s : State) :
    (refuseImage seg e s).exitStatus = s.exitStatus := rfl

@[simp] theorem refuseImage_cfg (seg : Segment) (e : Nat) (s : State) :
    (refuseImage seg e s).cfg = s.cfg := rfl

@[simp] theorem placeCells_pc (op v : Nat) (s : State) :
    (placeCells op v s).pc = wrap s.cfg.width (placeAddress s) := rfl

@[simp] theorem placeCells_sp (op v : Nat) (s : State) :
    (placeCells op v s).sp = s.sp := rfl

@[simp] theorem placeCells_bp (op v : Nat) (s : State) :
    (placeCells op v s).bp = s.bp := rfl

@[simp] theorem placeCells_ax (op v : Nat) (s : State) :
    (placeCells op v s).ax = s.ax := rfl

@[simp] theorem placeCells_mem (op v : Nat) (s : State) :
    (placeCells op v s).mem = (s.mem.write (placeAddress s) op).write (placeAddress s + 1) v := rfl

@[simp] theorem placeCells_runState (op v : Nat) (s : State) :
    (placeCells op v s).runState = .running := rfl

@[simp] theorem placeCells_fault (op v : Nat) (s : State) :
    (placeCells op v s).fault = s.fault := rfl

@[simp] theorem placeCells_exitStatus (op v : Nat) (s : State) :
    (placeCells op v s).exitStatus = s.exitStatus := rfl

@[simp] theorem placeCells_cfg (op v : Nat) (s : State) :
    (placeCells op v s).cfg = s.cfg := rfl

end Sys2Proof.Machine
end

