-- ==== Sys2Proof/Laws/Ops.lean ====
section
/-! SUPPORT. One spec lemma per shared operation: when it answers, with what, and what it can raise. -/

namespace Sys2Proof.Machine

/-! ## Windows and `Decode` -/

theorem cellExists_of_inText {c : Config} {a : Nat} (h : inText c a = true) : cellExists c a = true := by
  simp [cellExists, h]

theorem cellExists_of_inStack {c : Config} {a : Nat} (h : inStack c a = true) : cellExists c a = true := by
  simp [cellExists, h]

theorem inStack_iff {c : Config} {a : Nat} : inStack c a = true ↔ c.stackBase ≤ a ∧ a < c.stackTop := by
  simp [inStack]

theorem inText_iff {c : Config} {a : Nat} : inText c a = true ↔ c.textBase ≤ a ∧ a < c.textEnd := by
  simp [inText]

/-- `Decode` names a cell exactly when one exists (R53). -/
theorem decodeAddress_eq_none_iff {c : Config} {w : Nat} :
    decodeAddress c w = none ↔ cellExists c w = false := by
  unfold decodeAddress cellExists
  split_ifs <;> simp_all

/-- `Decode` names a segment and an offset inside it (R53). -/
theorem decodeAddress_eq_some {c : Config} {w : Nat} {g : Segment} {n : Nat}
    (h : decodeAddress c w = some (g, n)) :
    (g = .text ∧ inText c w = true ∧ n = w - c.textBase) ∨
      (g = .data ∧ inData c w = true ∧ n = w - c.dataBase) ∨
        (g = .stack ∧ inStack c w = true ∧ n = w - c.stackBase) := by
  unfold decodeAddress at h
  split_ifs at h <;> simp_all

/-! ## Access primitives -/

theorem readCell_of_exists {s : State} {a : Nat} (h : cellExists s.cfg a = true) :
    readCell a s = .ok (s.mem.read a) := by simp [readCell, h]

/-- A stack read answers the cell's value or finds no cell. -/
theorem readCell_cases {s : State} {a : Nat} {r : Except Stop Nat} (h : readCell a s = r) :
    (cellExists s.cfg a = true ∧ r = .ok (s.mem.read a)) ∨
      (cellExists s.cfg a = false ∧ r = .error (.noCell a)) := by
  unfold readCell at h
  split_ifs at h <;> simp_all

theorem memRead_eq (w : Nat) (s : State) :
    memRead w s = if cellExists s.cfg w then .ok (s.mem.read w)
      else .error (.raise (.outOfBounds w none)) := by
  unfold memRead
  cases h : decodeAddress s.cfg w with
  | none => simp [decodeAddress_eq_none_iff.1 h]
  | some d =>
    have h1 : cellExists s.cfg w ≠ false := fun h0 => by
      simp [decodeAddress_eq_none_iff.2 h0] at h
    simp_all

theorem memReadByte_eq (w : Nat) (s : State) :
    memReadByte w s = if cellExists s.cfg w then .ok (lowByte (s.mem.read w))
      else .error (.raise (.outOfBounds w none)) := by
  unfold memReadByte
  rw [memRead_eq]
  split_ifs <;> rfl

theorem memWrite_eq (w v : Nat) (s : State) :
    memWrite w v s = if inText s.cfg w then .error (.raise (.outOfBounds w (some .text)))
      else if cellExists s.cfg w then .ok { s with mem := s.mem.write w v }
      else .error (.raise (.outOfBounds w none)) := by
  unfold memWrite decodeAddress
  split_ifs <;> simp_all [cellExists]

/-- `Push` with room (R60); SP does not wrap under well-formed parameters. -/
theorem push_of_room {s : State} (hc : s.cfg.wellFormed = true) (h : s.hasRoom) (v : Nat) :
    push v s = .ok { s with sp := s.sp - 1, mem := s.mem.write (s.sp - 1) v } := by
  obtain ⟨h1, h2⟩ := h
  have hb := Config.bounds hc
  have h3 : wrap s.cfg.width ((s.sp : Int) - 1) = s.sp - 1 := wrap_sub_one (by omega) (by omega)
  have h4 : cellExists s.cfg (s.sp - 1) = true :=
    cellExists_of_inStack (inStack_iff.2 ⟨by omega, by omega⟩)
  simp only [push, if_neg (not_le.2 h1), h3, writeCell, h4, if_true]

/-- `Push` on a full stack (R60). -/
theorem push_of_full {s : State} (h : s.sp ≤ s.cfg.stackBase) (v : Nat) :
    push v s = .error (.raise .stackOverflow) := by simp [push, h]

/-- Everything `Push` can do (R60). -/
theorem push_cases (v : Nat) (s : State) :
    (s.sp ≤ s.cfg.stackBase ∧ push v s = .error (.raise .stackOverflow)) ∨
      (s.cfg.stackBase < s.sp ∧ cellExists s.cfg (wrap s.cfg.width (s.sp - 1)) = true ∧
        push v s = .ok { s with
          sp := wrap s.cfg.width (s.sp - 1)
          mem := s.mem.write (wrap s.cfg.width (s.sp - 1)) v }) ∨
      (s.cfg.stackBase < s.sp ∧ cellExists s.cfg (wrap s.cfg.width (s.sp - 1)) = false ∧
        push v s = .error (.noCell (wrap s.cfg.width (s.sp - 1)))) := by
  by_cases h : s.sp ≤ s.cfg.stackBase
  · exact .inl ⟨h, push_of_full h v⟩
  · right
    cases h4 : cellExists s.cfg (wrap s.cfg.width (s.sp - 1)) <;>
      simp only [push, if_neg h, writeCell, h4, not_le.1 h, if_true, Bool.false_eq_true, if_false,
        or_true, or_false, reduceCtorEq, and_false, and_self]

/-- `Pop` of a stack with a top (R61, R34); SP does not wrap under well-formed parameters. -/
theorem pop_of_top {s : State} (hc : s.cfg.wellFormed = true) (h : s.hasTop) :
    pop s = .ok (s.top, { s with sp := s.sp + 1 }) := by
  have hb := Config.bounds hc
  have h3 : wrap s.cfg.width ((s.sp : Int) + 1) = s.sp + 1 := wrap_add_one (by have := h.2; omega)
  have h4 : cellExists s.cfg s.sp = true := cellExists_of_inStack (inStack_iff.2 h)
  simp only [pop, if_neg (not_le.2 h.2), readCell_of_exists h4, h3, State.top]

/-- `Pop` of an empty stack (R61). -/
theorem pop_of_empty {s : State} (h : s.cfg.stackTop ≤ s.sp) :
    pop s = .error (.raise .stackUnderflow) := by simp [pop, h]

/-- Everything `Pop` can do (R61). -/
theorem pop_cases (s : State) :
    (s.cfg.stackTop ≤ s.sp ∧ pop s = .error (.raise .stackUnderflow)) ∨
      (s.sp < s.cfg.stackTop ∧ cellExists s.cfg s.sp = true ∧
        pop s = .ok (s.top, { s with sp := wrap s.cfg.width (s.sp + 1) })) ∨
      (s.sp < s.cfg.stackTop ∧ cellExists s.cfg s.sp = false ∧
        pop s = .error (.noCell s.sp)) := by
  by_cases h : s.cfg.stackTop ≤ s.sp
  · exact .inl ⟨h, pop_of_empty h⟩
  · right
    cases h4 : cellExists s.cfg s.sp <;> simp [pop, h, readCell, h4, State.top, not_le.1 h]

/-- `SetSP` in range (R62). -/
theorem setSP_of_range {s : State} {z : Int} (h0 : (s.cfg.stackBase : Int) ≤ z)
    (h1 : z ≤ s.cfg.stackTop) : setSP z s = .ok { s with sp := wrap s.cfg.width z } := by
  simp [setSP, not_lt.2 h0, not_lt.2 h1]

/-- Everything `SetSP` can do (R62). -/
theorem setSP_cases (z : Int) (s : State) :
    (z < s.cfg.stackBase ∧ setSP z s = .error (.raise .stackOverflow)) ∨
      ((s.cfg.stackBase : Int) ≤ z ∧ (s.cfg.stackTop : Int) < z ∧
        setSP z s = .error (.raise .stackUnderflow)) ∨
      ((s.cfg.stackBase : Int) ≤ z ∧ z ≤ s.cfg.stackTop ∧ setSP z s = .ok { s with sp := wrap s.cfg.width z }) := by
  unfold setSP
  split_ifs with h1 h2
  · exact .inl ⟨h1, rfl⟩
  · exact .inr (.inl ⟨not_lt.1 h1, h2, rfl⟩)
  · exact .inr (.inr ⟨not_lt.1 h1, not_lt.1 h2, rfl⟩)

/-! ## The transaction -/

/-- A next state of a transaction is what the body answers, or fault entry from the state before (R9). -/
theorem transact_next {n : Nat} {body : State → Except Stop State} {s t : State}
    (h : transact n body s = .next t) :
    body (advance n s) = .ok t ∨
      ∃ e, body (advance n s) = .error (.raise e) ∧ t = enterFault (opcodeCell s) e s := by
  unfold transact at h
  split at h
  · next t' h' => exact .inl (by simpa [h'] using h)
  · next e h' => exact .inr ⟨e, h', by simpa using h.symm⟩
  · simp at h

theorem transact_of_ok {n : Nat} {body : State → Except Stop State} {s t : State}
    (h : body (advance n s) = .ok t) : transact n body s = .next t := by simp [transact, h]

theorem transact_of_raise {n : Nat} {body : State → Except Stop State} {s : State} {e : FaultCause}
    (h : body (advance n s) = .error (.raise e)) :
    transact n body s = .next (enterFault (opcodeCell s) e s) := by simp [transact, h]

/-- Fault entry of an executing instruction, field by field (R221). -/
theorem enterFault_opcodeCell (e : FaultCause) (s : State) :
    enterFault (opcodeCell s) e s = s.faultedWith e.code e.addr e.seg e.kind := rfl

/-! ## The shared operand rule -/

/-- Everything a completing binary operator does (R160). -/
theorem binaryOp_ok {f : Nat → Nat → Nat → Except Stop Nat} {s t : State} (h : binaryOp f s = .ok t) :
    s.sp < s.cfg.stackTop ∧ ∃ v, f s.cfg.width s.top s.ax = .ok v ∧
      t = { s with sp := wrap s.cfg.width (s.sp + 1), ax := v } := by
  rcases pop_cases s with ⟨-, hp⟩ | ⟨h1, -, hp⟩ | ⟨-, -, hp⟩ <;> simp only [binaryOp, hp] at h
  · cases h
  · split at h
    · cases h
    · next v hv => exact ⟨h1, v, hv, by simpa using h.symm⟩
  · cases h

/-- A binary operator of a stack with a top, when its function answers (R160). -/
theorem binaryOp_of_top {f : Nat → Nat → Nat → Except Stop Nat} {s : State} {v : Nat}
    (hc : s.cfg.wellFormed = true) (h : s.hasTop) (hf : f s.cfg.width s.top s.ax = .ok v) :
    binaryOp f s = .ok { s with sp := s.sp + 1, ax := v } := by
  simp only [binaryOp, pop_of_top hc h, hf]

end Sys2Proof.Machine
end

