-- ==== Sys2Proof/Laws/PerInstr.lean ====
section
/-! SUPPORT. One law of every instruction as syntax, one lemma per constructor: under the map of rule R85
and at every width, an instruction whose operand is a word is well-formed, its encoding has one cell
for format F0 and two for format F1 (R84, R88), and the decoder reads it back. -/

namespace Sys2Proof.Laws.CellCount

/-- Well-formed under the default map, with as many cells as its length says, and read back from them. -/
def Statement (i : Instr) : Prop :=
  ∀ w, 16 ≤ w → (∀ v, i.operand? = some v → v < 2 ^ w) →
    i.wellFormed w defaultOpcodeMap = true ∧
      ∃ cells, encode w defaultOpcodeMap i = some cells ∧ cells.length = i.mnemonic.length ∧
        decode defaultOpcodeMap cells = .ok (i, [])

/-- The number the default map gives a mnemonic is small and stands for that mnemonic. -/
theorem number_of (k : Mnemonic) :
    ∃ n, defaultOpcodeMap.numberOf k = some n ∧ n < 2 ^ 16 ∧ opcodeOf defaultOpcodeMap n = some k := by
  cases k <;> exact ⟨_, rfl, by decide, rfl⟩

/-- The law from its two parts: the number, and what the two formats make of the cells. -/
theorem of_format {i : Instr} (hl : (n : Nat) → (n :: i.operand?.toList).length = i.mnemonic.length)
    (hd : ∀ n, opcodeOf defaultOpcodeMap n = some i.mnemonic →
      decode defaultOpcodeMap (n :: i.operand?.toList) = .ok (i, [])) : Statement i := by
  intro w hw hv
  obtain ⟨n, hn, hlt, hk⟩ := number_of i.mnemonic
  have h16 : n < 2 ^ w := hlt.trans_le (Nat.pow_le_pow_right (by decide) hw)
  have hwf : i.wellFormed w defaultOpcodeMap = true := by
    unfold Instr.wellFormed
    cases ho : i.operand? with
    | none => simp [hn, h16]
    | some v => simp [hn, h16, hv v ho]
  exact ⟨hwf, n :: i.operand?.toList, by simp [encode, hwf, hn], hl n, hd n hk⟩

theorem lea (v : Nat) : Statement (.lea v) :=
  of_format (fun _ => rfl) (fun n h => by simp only [decode, h]; rfl)

theorem imm (v : Nat) : Statement (.imm v) :=
  of_format (fun _ => rfl) (fun n h => by simp only [decode, h]; rfl)

theorem jmp (v : Nat) : Statement (.jmp v) :=
  of_format (fun _ => rfl) (fun n h => by simp only [decode, h]; rfl)

theorem call (v : Nat) : Statement (.call v) :=
  of_format (fun _ => rfl) (fun n h => by simp only [decode, h]; rfl)

theorem jz (v : Nat) : Statement (.jz v) :=
  of_format (fun _ => rfl) (fun n h => by simp only [decode, h]; rfl)

theorem jnz (v : Nat) : Statement (.jnz v) :=
  of_format (fun _ => rfl) (fun n h => by simp only [decode, h]; rfl)

theorem ent (v : Nat) : Statement (.ent v) :=
  of_format (fun _ => rfl) (fun n h => by simp only [decode, h]; rfl)

theorem adj (v : Nat) : Statement (.adj v) :=
  of_format (fun _ => rfl) (fun n h => by simp only [decode, h]; rfl)

theorem lev : Statement .lev :=
  of_format (fun _ => rfl) (fun n h => by simp only [decode, h]; rfl)

theorem li : Statement .li :=
  of_format (fun _ => rfl) (fun n h => by simp only [decode, h]; rfl)

theorem lc : Statement .lc :=
  of_format (fun _ => rfl) (fun n h => by simp only [decode, h]; rfl)

theorem si : Statement .si :=
  of_format (fun _ => rfl) (fun n h => by simp only [decode, h]; rfl)

theorem sc : Statement .sc :=
  of_format (fun _ => rfl) (fun n h => by simp only [decode, h]; rfl)

theorem push : Statement .push :=
  of_format (fun _ => rfl) (fun n h => by simp only [decode, h]; rfl)

theorem or : Statement .or :=
  of_format (fun _ => rfl) (fun n h => by simp only [decode, h]; rfl)

theorem xor : Statement .xor :=
  of_format (fun _ => rfl) (fun n h => by simp only [decode, h]; rfl)

theorem and : Statement .and :=
  of_format (fun _ => rfl) (fun n h => by simp only [decode, h]; rfl)

theorem eq : Statement .eq :=
  of_format (fun _ => rfl) (fun n h => by simp only [decode, h]; rfl)

theorem ne : Statement .ne :=
  of_format (fun _ => rfl) (fun n h => by simp only [decode, h]; rfl)

theorem lt : Statement .lt :=
  of_format (fun _ => rfl) (fun n h => by simp only [decode, h]; rfl)

theorem gt : Statement .gt :=
  of_format (fun _ => rfl) (fun n h => by simp only [decode, h]; rfl)

theorem le : Statement .le :=
  of_format (fun _ => rfl) (fun n h => by simp only [decode, h]; rfl)

theorem ge : Statement .ge :=
  of_format (fun _ => rfl) (fun n h => by simp only [decode, h]; rfl)

theorem shl : Statement .shl :=
  of_format (fun _ => rfl) (fun n h => by simp only [decode, h]; rfl)

theorem shr : Statement .shr :=
  of_format (fun _ => rfl) (fun n h => by simp only [decode, h]; rfl)

theorem add : Statement .add :=
  of_format (fun _ => rfl) (fun n h => by simp only [decode, h]; rfl)

theorem sub : Statement .sub :=
  of_format (fun _ => rfl) (fun n h => by simp only [decode, h]; rfl)

theorem mul : Statement .mul :=
  of_format (fun _ => rfl) (fun n h => by simp only [decode, h]; rfl)

theorem div : Statement .div :=
  of_format (fun _ => rfl) (fun n h => by simp only [decode, h]; rfl)

theorem mod : Statement .mod :=
  of_format (fun _ => rfl) (fun n h => by simp only [decode, h]; rfl)

theorem exit : Statement .exit :=
  of_format (fun _ => rfl) (fun n h => by simp only [decode, h]; rfl)

theorem ret : Statement .ret :=
  of_format (fun _ => rfl) (fun n h => by simp only [decode, h]; rfl)

end Sys2Proof.Laws.CellCount
end

