-- ==== Sys2Proof/Laws/Step.lean ====
section
/-! SUPPORT. What a step and a run of steps are, by RUN_STATE. -/

namespace Sys2Proof.Machine

/-- A step of a RUNNING block fetches, decodes and executes (R235). -/
theorem step_running {s : State} (h : s.runState = .running) :
    step s = match fetchDecode s with
      | .ok i => exec i s
      | .error t => .next t := by
  cases hf : fetchDecode s <;> simp only [step, h, hf]

/-- A step outside RUNNING changes nothing (R236). -/
theorem step_stopped {s : State} (h : s.runState ≠ .running) : step s = .next s := by
  unfold step
  split <;> simp_all

theorem core_run_zero (s : State) : Host.Core.run Sys2Proof.core 0 s = .next s := rfl

/-- One more step of a run is a step, then the rest. -/
theorem core_run_succ {s t : State} (k : Nat) (h : step s = .next t) :
    Host.Core.run Sys2Proof.core (k + 1) s = Host.Core.run Sys2Proof.core k t := by
  simp only [Host.Core.run, core, h]

/-- A fetch that answers an instruction found its opcode cell in TEXT (R82). -/
theorem fetchDecode_ok {s : State} {i : Instr} (h : fetchDecode s = .ok i) :
    inText s.cfg s.pc = true := by
  unfold fetchDecode fetchCell at h
  by_contra h1
  simp only [h1, if_false] at h
  cases h

/-- A fetch that raises leaves fault entry, with the opcode cell if it was fetched and 0 if not (R82, R221). -/
theorem fetchDecode_error {s t : State} (h : fetchDecode s = .error t) :
    ∃ e, t = enterFault (if inText s.cfg s.pc then s.mem.read s.pc else 0) e s := by
  unfold fetchDecode fetchCell at h
  by_cases h1 : inText s.cfg s.pc
  · simp only [h1, if_true] at h ⊢
    split at h
    · cases h; exact ⟨_, rfl⟩
    · split at h
      · split_ifs at h
        cases h; exact ⟨_, rfl⟩
      · cases h
  · simp only [h1, if_false, Bool.false_eq_true] at h ⊢
    cases h; exact ⟨_, rfl⟩

end Sys2Proof.Machine
end

