-- ==== Sys2Proof/Machine/Assembler.lean ====
section
/-! DEFINITION. The assembly notation of rule R89: the text of a program, as a list of characters, to the
cells of its TEXT image. Not part of a step; the host's image for `loadText` can be written with it.
What the grammar leaves open is chosen in log entry 16. -/

namespace Sys2Proof.Machine

/-- Why a text is no program of rule R89. -/
inductive AsmError where
  /-- A word stands where a mnemonic must and is none of the 32 names. -/
  | unknownMnemonic (word : List Char)
  /-- A word before a colon is no label. -/
  | badLabel (word : List Char)
  /-- A label stands twice. -/
  | duplicateLabel (word : List Char)
  /-- An F1 mnemonic has no operand. -/
  | operandMissing (k : Mnemonic)
  /-- An F0 mnemonic has an operand, or a line has words left over. -/
  | wordsLeftOver (words : List (List Char))
  /-- An operand is neither an integer nor a label. -/
  | badOperand (word : List Char)
  /-- An operand is a label that stands nowhere. -/
  | undefinedLabel (word : List Char)
  /-- The opcode map gives the mnemonic no number that fits a cell. -/
  | noNumber (k : Mnemonic)
  deriving DecidableEq, Repr

/-- An operand as written (R89). -/
inductive AsmOperand where
  | integer (z : Int)
  | label (name : List Char)
  deriving DecidableEq, Repr

/-- A line that names a label or an instruction (R89). -/
inductive AsmItem where
  | label (name : List Char)
  | instr (k : Mnemonic) (operand : Option AsmOperand)
  deriving DecidableEq, Repr

/-- The name of a mnemonic in rule R85. -/
def asmName : Mnemonic → List Char
  | .lea => ['L', 'E', 'A']
  | .imm => ['I', 'M', 'M']
  | .jmp => ['J', 'M', 'P']
  | .call => ['C', 'A', 'L', 'L']
  | .jz => ['J', 'Z']
  | .jnz => ['J', 'N', 'Z']
  | .ent => ['E', 'N', 'T']
  | .adj => ['A', 'D', 'J']
  | .lev => ['L', 'E', 'V']
  | .li => ['L', 'I']
  | .lc => ['L', 'C']
  | .si => ['S', 'I']
  | .sc => ['S', 'C']
  | .push => ['P', 'U', 'S', 'H']
  | .or => ['O', 'R']
  | .xor => ['X', 'O', 'R']
  | .and => ['A', 'N', 'D']
  | .eq => ['E', 'Q']
  | .ne => ['N', 'E']
  | .lt => ['L', 'T']
  | .gt => ['G', 'T']
  | .le => ['L', 'E']
  | .ge => ['G', 'E']
  | .shl => ['S', 'H', 'L']
  | .shr => ['S', 'H', 'R']
  | .add => ['A', 'D', 'D']
  | .sub => ['S', 'U', 'B']
  | .mul => ['M', 'U', 'L']
  | .div => ['D', 'I', 'V']
  | .mod => ['M', 'O', 'D']
  | .exit => ['E', 'X', 'I', 'T']
  | .ret => ['R', 'E', 'T']

/-- Cut a text into lines at newline and `;`, dropping comments: a comment runs to the newline. -/
def asmLines (inComment : Bool) (lineRev : List Char) : List Char → List (List Char)
  | [] => [lineRev.reverse]
  | '\n' :: rest => lineRev.reverse :: asmLines false [] rest
  | '/' :: '/' :: rest => asmLines true lineRev rest
  | ch :: rest =>
    if inComment then asmLines true lineRev rest
    else if ch = ';' then lineRev.reverse :: asmLines false [] rest
    else asmLines false (ch :: lineRev) rest

/-- A word read so far, put in front of the words after it, if it has a character. -/
def asmFlush (wordRev : List Char) (words : List (List Char)) : List (List Char) :=
  if wordRev = [] then words else wordRev.reverse :: words

/-- Cut a line into words at spaces, tabs and returns; a colon is a word of its own. -/
def asmWords (wordRev : List Char) : List Char → List (List Char)
  | [] => asmFlush wordRev []
  | ch :: rest =>
    if ch = ' ' ∨ ch = '\t' ∨ ch = '\r' then asmFlush wordRev (asmWords [] rest)
    else if ch = ':' then asmFlush wordRev ([':'] :: asmWords [] rest)
    else asmWords (ch :: wordRev) rest

def isAsmLetter (ch : Char) : Bool :=
  decide ('A'.toNat ≤ ch.toNat ∧ ch.toNat ≤ 'Z'.toNat) || decide ('a'.toNat ≤ ch.toNat ∧ ch.toNat ≤ 'z'.toNat)

/-- The value of a decimal digit. -/
def decimalDigit (ch : Char) : Option Nat :=
  if '0'.toNat ≤ ch.toNat ∧ ch.toNat ≤ '9'.toNat then some (ch.toNat - '0'.toNat) else none

/-- The value of a hex digit, in either case. -/
def hexDigit (ch : Char) : Option Nat :=
  if 'A'.toNat ≤ ch.toNat ∧ ch.toNat ≤ 'F'.toNat then some (ch.toNat - 'A'.toNat + 10)
  else if 'a'.toNat ≤ ch.toNat ∧ ch.toNat ≤ 'f'.toNat then some (ch.toNat - 'a'.toNat + 10)
  else decimalDigit ch

/-- The value of a row of digits in a base, after the digits already read. -/
def asmDigits (base : Nat) (digit : Char → Option Nat) (acc : Nat) : List Char → Option Nat
  | [] => some acc
  | ch :: rest =>
    match digit ch with
    | some d => asmDigits base digit (acc * base + d) rest
    | none => none

/-- At least one digit. -/
def asmNatural (base : Nat) (digit : Char → Option Nat) (word : List Char) : Option Nat :=
  if word = [] then none else asmDigits base digit 0 word

/-- `integer := ['-'] decimal digits | '0x' hex digits` (R89). -/
def asmInteger : List Char → Option Int
  | '-' :: rest => (asmNatural 10 decimalDigit rest).map (fun n => -(n : Int))
  | '0' :: 'x' :: rest => (asmNatural 16 hexDigit rest).map (fun n => (n : Int))
  | word => (asmNatural 10 decimalDigit word).map (fun n => (n : Int))

/-- `label := letter ( letter | digit | '_' )*` (R89). -/
def isAsmLabel : List Char → Bool
  | [] => false
  | ch :: rest =>
    isAsmLetter ch && rest.all (fun d => isAsmLetter d || (decimalDigit d).isSome || d == '_')

/-- `operand := integer | label` (R89). -/
def asmOperand (word : List Char) : Except AsmError AsmOperand :=
  match asmInteger word with
  | some z => .ok (.integer z)
  | none => if isAsmLabel word then .ok (.label word) else .error (.badOperand word)

/-- `[ mnemonic [ operand ] ]`: an F1 mnemonic needs exactly one operand, an F0 mnemonic takes none. -/
def asmInstruction : List (List Char) → Except AsmError (List AsmItem)
  | [] => .ok []
  | word :: rest =>
    match Mnemonic.all.find? (fun k => asmName k == word) with
    | none => .error (.unknownMnemonic word)
    | some k =>
      match k.hasOperand, rest with
      | true, [] => .error (.operandMissing k)
      | true, [o] =>
        match asmOperand o with
        | .ok v => .ok [.instr k (some v)]
        | .error e => .error e
      | true, _ :: extra => .error (.wordsLeftOver extra)
      | false, [] => .ok [.instr k none]
      | false, extra => .error (.wordsLeftOver extra)

/-- `line := [ label ':' ] [ mnemonic [ operand ] ]`, from the line's words. -/
def asmLine (words : List (List Char)) : Except AsmError (List AsmItem) :=
  match words with
  | name :: [':'] :: rest =>
    if isAsmLabel name then
      match asmInstruction rest with
      | .ok items => .ok (.label name :: items)
      | .error e => .error e
    else .error (.badLabel name)
  | other => asmInstruction other

/-- The items of every line, in order. -/
def asmItems : List (List Char) → Except AsmError (List AsmItem)
  | [] => .ok []
  | line :: rest =>
    match asmLine (asmWords [] line) with
    | .error e => .error e
    | .ok items =>
      match asmItems rest with
      | .error e => .error e
      | .ok more => .ok (items ++ more)

/-- The TEXT cell address of every label: that of the first instruction after it. -/
def asmLabels (address : Nat) : List AsmItem → List (List Char × Nat)
  | [] => []
  | .label name :: rest => (name, address) :: asmLabels address rest
  | .instr k _ :: rest => asmLabels (address + k.length) rest

/-- The operand cell: `wrap(integer)`, or the label's address (R89). -/
def asmOperandCell (w : Nat) (labels : List (List Char × Nat)) : AsmOperand → Except AsmError Nat
  | .integer z => .ok (wrap w z)
  | .label name =>
    match labels.find? (fun e => e.1 == name) with
    | some e => .ok (wrap w e.2)
    | none => .error (.undefinedLabel name)

/-- The cells of one item. -/
def asmItemCells (c : Config) (labels : List (List Char × Nat)) : AsmItem → Except AsmError (List Nat)
  | .label _ => .ok []
  | .instr k operand =>
    match c.opcodeMap.numberOf k with
    | none => .error (.noNumber k)
    | some n =>
      match operand with
      | none => .ok [wrap c.width n]
      | some o =>
        match asmOperandCell c.width labels o with
        | .ok v => .ok [wrap c.width n, v]
        | .error e => .error e

/-- The cells of every item, in order. -/
def asmCells (c : Config) (labels : List (List Char × Nat)) : List AsmItem → Except AsmError (List Nat)
  | [] => .ok []
  | item :: rest =>
    match asmItemCells c labels item with
    | .error e => .error e
    | .ok cells =>
      match asmCells c labels rest with
      | .error e => .error e
      | .ok more => .ok (cells ++ more)

/-- The first name a list of labels holds twice. -/
def asmDuplicate : List (List Char × Nat) → Option (List Char)
  | [] => none
  | (name, _) :: rest => if rest.any (fun e => e.1 == name) then some name else asmDuplicate rest

/-- Assemble a program of rule R89 to the cells of a TEXT image loaded at `TEXT_BASE`. -/
def assemble (c : Config) (source : List Char) : Except AsmError (List Nat) :=
  match asmItems (asmLines false [] source) with
  | .error e => .error e
  | .ok items =>
    match asmDuplicate (asmLabels c.textBase items) with
    | some name => .error (.duplicateLabel name)
    | none => asmCells c (asmLabels c.textBase items) items

end Sys2Proof.Machine
end

