-- ==== Sys2Proof/Tests/Slice0.lean ====
section
/-! SUPPORT. The model's own tests. Expected results are those of 95_test_vectors.md (vector ids V, T, P)
or of the rule named; the last part shows, for each statement with hypotheses, states that meet them. -/

namespace Sys2Proof.Tests

open Sys2Proof.Machine

-- One theorem at a time: many kernel evaluations at once need more threads than the memory limit allows.
set_option Elab.async false

/-! ## Helpers -/

/-- The word of the default width for an integer, as the vectors write operands (R6). -/
def word (z : Int) : Nat := if z < 0 then 2 ^ 64 - z.natAbs else z.natAbs

/-- Memory holding the listed cells. -/
def memoryOf (cells : List (Nat × Int)) : Memory := cells.foldl (fun m e => m.write e.1 (word e.2)) []

/-- The start state of the vectors: reset, RUNNING, `code` at `opc`, the given registers, more cells. -/
def machine (code : List Int) (opc : Nat) (ax : Int) (sp bp : Nat) (cells : List (Nat × Int)) : State :=
  { State.reset with
    pc := opc
    sp := sp
    bp := bp
    ax := word ax
    mem := (memoryOf cells).writeList opc (code.map word)
    runState := .running }

/-- "top = v": SP 98303 and `v` in that cell. -/
def withTop (code : List Int) (v ax : Int) (cells : List (Nat × Int)) : State :=
  machine code 0 ax 98303 98304 ((98303, v) :: cells)

/-- The same state in a block with `LC_SIGNED = false`. -/
def unsignedBytes (s : State) : State := { s with cfg := { s.cfg with lcSigned := false } }

/-- The state an outcome carries, or reset where it carries none. -/
def nextOf : Host.Outcome State Fault Refusal → State
  | .next t => t
  | .fault _ => State.reset
  | .refused _ => State.reset

def isNext : Host.Outcome State Fault Refusal → Bool
  | .next _ => true
  | .fault _ => false
  | .refused _ => false

theorem eq_next_of {o : Host.Outcome State Fault Refusal} (h : isNext o = true) : o = .next (nextOf o) := by
  cases o with
  | next t => rfl
  | fault e => cases h
  | refused r => cases h

/-- PC, SP, BP and `sint(AX)` after one step. -/
def after (s : State) : Nat × Nat × Nat × Int :=
  let t := nextOf (step s)
  (t.pc, t.sp, t.bp, sint 64 t.ax)

/-- The cell at `a` after one step. -/
def cellAfter (s : State) (a : Nat) : Nat := (nextOf (step s)).mem.read a

/-- The fault record after one step as the vectors print it (code, PC, opcode, address, segment, kind);
`none` unless the step faulted and kept every register and cell (R221). -/
def recordAfter (s : State) : Option (List Nat) :=
  let t := nextOf (step s)
  if { t with fault := s.fault, runState := s.runState } = s ∧ t.runState = .faulted then
    some [t.fault.code.number, t.fault.pc, t.fault.opcode, t.fault.addr,
      segmentNumber t.fault.seg, t.fault.kind.number]
  else none

/-- A small block of 16-bit words: eight cells a segment (R5 asks for nothing more). -/
def narrowConfig : Config :=
  { defaultConfig with
    width := 16, textLen := 8, dataLen := 8, stackLen := 8, textBase := 0, dataBase := 8, stackBase := 16 }

/-- The 16-bit block after reset, RUNNING at `code`, with `top` on the stack and `ax` in AX. -/
def narrow (code : List Nat) (top ax : Nat) : State :=
  { State.initial narrowConfig with
    sp := 23, ax := ax, mem := (Memory.write [] 23 top).writeList 0 code, runState := .running }

/-- `sint` of a binary operator's result in AX, and SP and PC after it. -/
def alu (op l r : Int) : Int × Nat × Nat :=
  let t := nextOf (step (withTop [op] l r []))
  (sint 64 t.ax, t.sp, t.pc)

/-- The most negative and the greatest `sint` of a word. -/
def MIN : Int := -2 ^ 63
def MAX : Int := 2 ^ 63 - 1

/-! ## Well-formedness: an ill-formed term for each check -/

theorem test_default_wellFormed : defaultConfig.wellFormed = true ∧ defaultOpcodeMap.wellFormed 64 = true := by
  decide

theorem test_map_refuses_repeated_number :
    OpcodeMap.wellFormed 64 (defaultOpcodeMap.dropLast ++ [(37, .ret)]) = false := by decide

theorem test_map_refuses_repeated_mnemonic :
    OpcodeMap.wellFormed 64 (defaultOpcodeMap ++ [(39, .ret)]) = false := by decide

theorem test_map_refuses_wide_number :
    OpcodeMap.wellFormed 64 (defaultOpcodeMap.dropLast ++ [(2 ^ 64, .ret)]) = false := by decide

theorem test_map_refuses_missing_mnemonic :
    OpcodeMap.wellFormed 64 defaultOpcodeMap.dropLast = false := by decide

theorem test_config_refuses_empty_segments :
    Config.wellFormed { defaultConfig with textLen := 0 } = false ∧
      Config.wellFormed { defaultConfig with dataLen := 0 } = false ∧
      Config.wellFormed { defaultConfig with stackLen := 0 } = false := by decide

theorem test_config_refuses_overlaps :
    Config.wellFormed { defaultConfig with dataBase := 32767 } = false ∧
      Config.wellFormed { defaultConfig with textBase := 65536, stackBase := 98303 } = false ∧
      Config.wellFormed { defaultConfig with stackBase := 65535 } = false := by decide

theorem test_config_refuses_text_above_the_stack :
    Config.wellFormed { defaultConfig with textBase := 98304 } = false := by decide

theorem test_config_refuses_windows_past_the_half :
    Config.wellFormed { defaultConfig with dataBase := 2 ^ 63 - 32767 } = false ∧
      Config.wellFormed { defaultConfig with stackBase := 2 ^ 63 - 32767 } = false := by decide

theorem test_config_refuses_bad_map :
    Config.wellFormed { defaultConfig with opcodeMap := [] } = false := by decide

theorem test_instr_needs_a_number :
    Instr.wellFormed 64 defaultOpcodeMap (.imm (2 ^ 64 - 1)) = true ∧ Instr.wellFormed 64 [] .add = false ∧
      Instr.wellFormed 64 [(2 ^ 64, .add)] .add = false := by decide

theorem test_instr_operand_is_a_word :
    Instr.wellFormed 64 defaultOpcodeMap (.imm (2 ^ 64)) = false ∧
      Instr.wellFormed 32 defaultOpcodeMap (.jmp (2 ^ 32)) = false := by decide

/-- R5: `W` is a power of two and at least 16. -/
theorem test_config_refuses_width :
    Config.wellFormed { narrowConfig with width := 8 } = false ∧
      Config.wellFormed { narrowConfig with width := 24 } = false ∧ narrowConfig.wellFormed = true ∧
      Config.wellFormed { narrowConfig with width := 128 } = true := by decide

/-! ## Decoding: words from the table of rule R85 -/

/-- Opcode numbers 0 to 7, each with an operand cell (F1). -/
theorem test_decode_f1 :
    decodeTableWord 128 (7 * 2 ^ 64 + 0) = some (.lea 7) ∧
      decodeTableWord 128 (10 * 2 ^ 64 + 1) = some (.imm 10) ∧
      decodeTableWord 128 (7 * 2 ^ 64 + 2) = some (.jmp 7) ∧
      decodeTableWord 128 (2 * 2 ^ 64 + 3) = some (.call 2) ∧
      decodeTableWord 128 (20 * 2 ^ 64 + 4) = some (.jz 20) ∧
      decodeTableWord 128 (20 * 2 ^ 64 + 5) = some (.jnz 20) ∧
      decodeTableWord 128 ((2 ^ 64 - 3) * 2 ^ 64 + 6) = some (.ent (2 ^ 64 - 3)) ∧
      decodeTableWord 128 (1 * 2 ^ 64 + 7) = some (.adj 1) := by decide

/-- Opcode numbers 8 to 13, 37 and 38, one cell (F0). -/
theorem test_decode_f0 :
    decodeTableWord 64 8 = some .lev ∧ decodeTableWord 64 9 = some .li ∧ decodeTableWord 64 10 = some .lc ∧
      decodeTableWord 64 11 = some .si ∧ decodeTableWord 64 12 = some .sc ∧
      decodeTableWord 64 13 = some .push ∧ decodeTableWord 64 37 = some .exit ∧
      decodeTableWord 64 38 = some .ret := by decide

/-- Opcode numbers 14 to 29, the binary operators. -/
theorem test_decode_operators :
    [14, 15, 16, 17, 18, 19, 20, 21, 22, 23, 24, 25, 26, 27, 28, 29].map (decodeTableWord 64) =
      [some .or, some .xor, some .and, some .eq, some .ne, some .lt, some .gt, some .le, some .ge,
        some .shl, some .shr, some .add, some .sub, some .mul, some .div, some .mod] := by decide

/-- R86, V5: what is no number of the map; R84: a cell with any high bit set is another number. -/
theorem test_decode_refuses :
    [30, 36, 39, 99, 2 ^ 64 - 1, 2 ^ 63 + 25].map (decodeTableWord 64) =
      [none, none, none, none, none, none] ∧
      decode defaultOpcodeMap [] = .error .noCell ∧
      decode defaultOpcodeMap [30] = .error (.unknownOpcode 30) ∧
      decode defaultOpcodeMap [1] = .error (.missingOperand .imm) := by decide

/-- P1's encoding read to its end. -/
theorem test_encode_program :
    [Instr.imm 10, .push, .imm 20, .add, .push, .exit].flatMap (fun i => (encode 64 defaultOpcodeMap i).getD []) =
      [1, 10, 13, 1, 20, 25, 13, 37] := by decide

/-- V1, V3: the assembler on the source's example, and labels and a negative operand. -/
theorem test_assemble :
    assemble defaultConfig
        ['I','M','M',' ','1','0',';',' ','P','U','S','H',';',' ','I','M','M',' ','2','0',';','A','D','D',';',
          'P','U','S','H',';','E','X','I','T'] = .ok [1, 10, 13, 1, 20, 25, 13, 37] ∧
      assemble defaultConfig
        ['J','M','P',' ','e',';','L','E','A',' ','-','3','\n','e',':',' ','R','E','T'] =
          .ok [2, 4, 0, 2 ^ 64 - 3, 38] ∧
      assemble defaultConfig ['A','D','D',' ','1'] = .error (.wordsLeftOver [['1']]) := by decide +kernel

/-! ## Reset and the step -/

/-- R35, R5: the numbers of the reset table. -/
theorem test_reset :
    State.reset.pc = 0 ∧ State.reset.sp = 98304 ∧ State.reset.bp = 98304 ∧
      State.reset.runState = .idle ∧ State.reset.mem.wf := by decide +kernel

/-- T5.1: a step before start changes nothing and reports NotStarted. -/
theorem test_step_in_idle : nextOf (step State.reset) = State.reset ∧ stepReport State.reset = .notStarted := by
  decide +kernel

/-- V6: fetch past TEXT, operand past TEXT; V5: an opcode outside the map. -/
theorem test_fetch_faults :
    recordAfter (machine [] 32768 0 98304 98304 []) = some [2, 32768, 0, 32768, 0, 0] ∧
      recordAfter (machine [1] 32767 0 98304 98304 []) = some [2, 32767, 1, 32768, 0, 0] ∧
      recordAfter (machine [39] 0 0 98304 98304 []) = some [1, 0, 39, 0, 3, 0] := by decide +kernel

/-- The first step after reset runs a placed word (R85: 25 is ADD, on an empty stack; T3.61). -/
theorem test_withFetchWord :
    recordAfter (State.reset.withFetchWord 64 25) = some [3, 0, 25, 0, 3, 0] ∧
      after (State.reset.withFetchWord 128 (10 * 2 ^ 64 + 1)) = (2, 98304, 98304, 10) := by decide +kernel

/-! ## Other widths: W is the block's parameter (R5, R6) -/

/-- 16-bit words: ADD and SUB wrap at `2^16` (R172, R173), SHL and SHR use 4 bits of the count (R170, R171),
DIV of MIN by -1 is MIN (R175), LT is signed (R166). -/
theorem test_operators_at_width_16 :
    [narrow [25] 0x7FFF 1, narrow [26] 0 1, narrow [23] 3 17, narrow [24] 0x8000 15, narrow [28] 0x8000 0xFFFF,
        narrow [19] 0xFFFF 0].map (fun s => (nextOf (step s)).ax) =
      [0x8000, 0xFFFF, 6, 0xFFFF, 0x8000, 1] := by decide +kernel

/-- R101 and R129 at 16 bits: a byte from 0x80 is sign-extended to 16, and `BP + sint(operand)` wraps at
`2^16`; R86: a cell is an opcode number of the map only as a whole. -/
theorem test_extension_at_width_16 :
    (nextOf (step (narrow [10] 0x12FF 23))).ax = 0xFFFF ∧
      (nextOf (step { narrow [0, 0xFFFE] 0 0 with bp := 1 })).ax = 0xFFFF ∧
      (nextOf (step (narrow [0xFF19] 0 0))).fault.code = .unknownInstruction := by decide +kernel

/-! ## Memory access (T1) -/

/-- T1.1, T1.2. -/
theorem test_imm :
    after (machine [1, 10] 0 0 98304 98304 []) = (2, 98304, 98304, 10) ∧
      after (machine [1, -1] 0 0 98304 98304 []) = (2, 98304, 98304, -1) := by decide +kernel

/-- T1.3, T1.4, T1.5. -/
theorem test_lc :
    after (machine [10] 0 32768 98304 98304 [(32768, 0x1FF)]) = (1, 98304, 98304, -1) ∧
      after (unsignedBytes (machine [10] 0 32768 98304 98304 [(32768, 0x1FF)])) = (1, 98304, 98304, 255) ∧
      after (machine [10, 0x41] 0 1 98304 98304 []) = (1, 98304, 98304, 65) := by decide +kernel

/-- T1.6, V6. -/
theorem test_lc_faults :
    recordAfter (machine [10] 0 98304 98304 98304 []) = some [2, 0, 10, 98304, 3, 0] ∧
      recordAfter (machine [10] 0 (-1) 98304 98304 []) = some [2, 0, 10, 2 ^ 64 - 1, 3, 0] := by
  decide +kernel

/-- T1.7, T1.8, T1.9. -/
theorem test_li :
    after (machine [9] 0 32769 98304 98304 [(32769, 7)]) = (1, 98304, 98304, 7) ∧
      after (machine [9] 0 40000 98304 98304 []) = (1, 98304, 98304, 0) ∧
      after (machine [9] 0 98303 98304 98304 [(98303, 8)]) = (1, 98304, 98304, 8) := by decide +kernel

/-- T1.10. -/
theorem test_li_faults :
    recordAfter (machine [9] 0 200000 98304 98304 []) = some [2, 0, 9, 200000, 3, 0] := by decide +kernel

/-- T1.11, T1.12. -/
theorem test_sc :
    after (withTop [12] 32768 0x3AB [(32768, 0x1200)]) = (1, 98304, 98304, -85) ∧
      cellAfter (withTop [12] 32768 0x3AB [(32768, 0x1200)]) 32768 = 0x12AB ∧
      after (unsignedBytes (withTop [12] 32768 0x3AB [(32768, 0x1200)])) = (1, 98304, 98304, 171) := by
  decide +kernel

/-- T1.14, T1.15. -/
theorem test_sc_faults :
    recordAfter (withTop [12] 3 5 []) = some [2, 0, 12, 3, 0, 0] ∧
      recordAfter (machine [12] 0 5 98304 98304 []) = some [3, 0, 12, 0, 3, 0] := by decide +kernel

/-- T1.16, T1.19. -/
theorem test_si :
    after (withTop [11] 32768 42 []) = (1, 98304, 98304, 42) ∧
      cellAfter (withTop [11] 32768 42 []) 32768 = 42 ∧
      cellAfter (withTop [11] 98303 9 []) 98303 = 9 := by decide +kernel

/-- T1.17, T1.18. -/
theorem test_si_faults :
    recordAfter (machine [11] 0 42 98304 98304 []) = some [3, 0, 11, 0, 3, 0] ∧
      recordAfter (withTop [11] 98304 42 []) = some [2, 0, 11, 98304, 3, 0] := by decide +kernel

/-! ## Stack and control flow (T2) -/

/-- T2.1, T2.2. -/
theorem test_push :
    after (machine [13] 0 5 98304 98304 []) = (1, 98303, 98304, 5) ∧
      cellAfter (machine [13] 0 5 98304 98304 []) 98303 = 5 ∧
      recordAfter (machine [13] 0 1 65536 98304 []) = some [4, 0, 13, 0, 3, 0] := by decide +kernel

/-- T2.3, T2.4. -/
theorem test_jmp :
    after (machine [2, 7] 0 0 98304 98304 []) = (7, 98304, 98304, 0) ∧
      after (machine [2, 40000] 0 0 98304 98304 []) = (40000, 98304, 98304, 0) := by decide +kernel

/-- T2.5, T2.6, T2.7. -/
theorem test_jz :
    after (machine [4, 20] 4 0 98304 98304 []) = (20, 98304, 98304, 0) ∧
      after (machine [4, 20] 4 3 98304 98304 []) = (6, 98304, 98304, 3) ∧
      after (machine [4, 20] 4 (-1) 98304 98304 []) = (6, 98304, 98304, -1) := by decide +kernel

/-- T2.10: the operand is fetched even when the jump would not be taken. -/
theorem test_jz_operand_fetch :
    recordAfter (machine [4] 32767 5 98304 98304 []) = some [2, 32767, 4, 32768, 0, 0] := by decide +kernel

/-- T2.8, T2.9. -/
theorem test_jnz :
    after (machine [5, 20] 4 3 98304 98304 []) = (20, 98304, 98304, 3) ∧
      after (machine [5, 20] 4 0 98304 98304 []) = (6, 98304, 98304, 0) := by decide +kernel

/-- T2.11, T2.12. -/
theorem test_call :
    after (machine [3, 30] 10 0 98302 98304 []) = (30, 98301, 98304, 0) ∧
      cellAfter (machine [3, 30] 10 0 98302 98304 []) 98301 = 12 ∧
      recordAfter (machine [3, 30] 10 0 65536 98304 []) = some [4, 10, 3, 0, 3, 0] := by decide +kernel

/-- T2.13, T2.14. -/
theorem test_ret :
    after (machine [38] 0 0 98301 98304 [(98301, 12)]) = (12, 98302, 98304, 0) ∧
      recordAfter (machine [38] 0 0 98304 98304 []) = some [3, 0, 38, 0, 3, 0] := by decide +kernel

/-- T2.15, T2.16, T2.19, T2.20. -/
theorem test_ent :
    after (machine [6, 2] 0 0 98301 98304 []) = (2, 98298, 98300, 0) ∧
      cellAfter (machine [6, 2] 0 0 98301 98304 []) 98300 = 98304 ∧
      after (machine [6, 0] 0 0 98301 98304 []) = (2, 98300, 98300, 0) ∧
      after (machine [6, -3] 0 0 98301 98304 []) = (2, 98303, 98300, 0) ∧
      after (machine [6, -4] 0 0 98301 98304 []) = (2, 98304, 98300, 0) := by decide +kernel

/-- T2.17, T2.18, T2.21. -/
theorem test_ent_faults :
    recordAfter (machine [6, 40000] 0 0 98301 98304 []) = some [4, 0, 6, 0, 3, 0] ∧
      recordAfter (machine [6, 0] 0 0 65536 98304 []) = some [4, 0, 6, 0, 3, 0] ∧
      recordAfter (machine [6, -5] 0 0 98301 98304 []) = some [3, 0, 6, 0, 3, 0] := by decide +kernel

/-- T2.22, T2.23, T2.24. -/
theorem test_adj :
    after (machine [7, 2] 0 0 98299 98304 []) = (2, 98301, 98304, 0) ∧
      after (machine [7, 0] 0 0 98299 98304 []) = (2, 98299, 98304, 0) ∧
      after (machine [7, 5] 0 0 98299 98304 []) = (2, 98304, 98304, 0) := by decide +kernel

/-- T2.25, T2.26. -/
theorem test_adj_faults :
    recordAfter (machine [7, 6] 0 0 98299 98304 []) = some [3, 0, 7, 0, 3, 0] ∧
      recordAfter (machine [7, -40000] 0 0 98299 98304 []) = some [4, 0, 7, 0, 3, 0] := by decide +kernel

/-- T2.27. -/
theorem test_lev :
    after (machine [8] 0 0 98290 98300 [(98300, 98304), (98301, 12)]) = (12, 98302, 98304, 0) := by
  decide +kernel

/-- T2.28, T2.29, T2.30, T2.31. -/
theorem test_lev_faults :
    recordAfter (machine [8] 0 0 98290 98304 []) = some [3, 0, 8, 0, 3, 0] ∧
      recordAfter (machine [8] 0 0 98290 98303 []) = some [3, 0, 8, 0, 3, 0] ∧
      recordAfter (machine [8] 0 0 98290 100 []) = some [4, 0, 8, 0, 3, 0] ∧
      recordAfter (machine [8] 0 0 98290 98305 []) = some [3, 0, 8, 0, 3, 0] := by decide +kernel

/-- T2.32, T2.33, T2.34. -/
theorem test_lea :
    after (machine [0, 2] 0 0 98304 98300 []) = (2, 98304, 98300, 98302) ∧
      after (machine [0, -1] 0 0 98304 98300 []) = (2, 98304, 98300, 98299) ∧
      after (machine [0, -1] 0 0 98304 0 []) = (2, 98304, 0, -1) := by decide +kernel

/-! ## Arithmetic, logic, comparison (T3): result, SP, PC -/

/-- T3.1, T3.2. -/
theorem test_or : alu 14 12 10 = (14, 98304, 1) ∧ alu 14 0 (-1) = (-1, 98304, 1) := by decide +kernel

/-- T3.3, T3.4. -/
theorem test_xor : alu 15 12 10 = (6, 98304, 1) ∧ alu 15 (-1) (-1) = (0, 98304, 1) := by decide +kernel

/-- T3.5, T3.6. -/
theorem test_and : alu 16 12 10 = (8, 98304, 1) ∧ alu 16 (-1) 0x55 = (0x55, 98304, 1) := by decide +kernel

/-- T3.8, T3.9. -/
theorem test_eq : alu 17 (-1) 0xFFFFFFFFFFFFFFFF = (1, 98304, 1) ∧ alu 17 5 6 = (0, 98304, 1) := by
  decide +kernel

/-- T3.10, T3.11. -/
theorem test_ne : alu 18 5 6 = (1, 98304, 1) ∧ alu 18 5 5 = (0, 98304, 1) := by decide +kernel

/-- T3.12 to T3.15. -/
theorem test_lt :
    alu 19 3 4 = (1, 98304, 1) ∧ alu 19 (-1) 0 = (1, 98304, 1) ∧ alu 19 MAX MIN = (0, 98304, 1) ∧
      alu 19 4 4 = (0, 98304, 1) := by decide +kernel

/-- T3.19, T3.20. -/
theorem test_gt : alu 20 0 (-1) = (1, 98304, 1) ∧ alu 20 4 4 = (0, 98304, 1) := by decide +kernel

/-- T3.16, T3.17, T3.18. -/
theorem test_le :
    alu 21 4 4 = (1, 98304, 1) ∧ alu 21 5 4 = (0, 98304, 1) ∧ alu 21 MIN MAX = (1, 98304, 1) := by
  decide +kernel

/-- T3.21, T3.22. -/
theorem test_ge : alu 22 MIN MAX = (0, 98304, 1) ∧ alu 22 4 4 = (1, 98304, 1) := by decide +kernel

/-- T3.24 to T3.27. -/
theorem test_shl :
    alu 23 1 63 = (-2 ^ 63, 98304, 1) ∧ alu 23 1 64 = (1, 98304, 1) ∧ alu 23 1 (-1) = (-2 ^ 63, 98304, 1) ∧
      alu 23 3 65 = (6, 98304, 1) := by decide +kernel

/-- T3.28 to T3.33. -/
theorem test_shr :
    alu 24 (-16) 2 = (-4, 98304, 1) ∧ alu 24 (-1) 63 = (-1, 98304, 1) ∧ alu 24 (-7) 1 = (-4, 98304, 1) ∧
      alu 24 16 64 = (16, 98304, 1) := by decide +kernel

/-- T3.34, T3.35, T3.36. -/
theorem test_add :
    alu 25 10 20 = (30, 98304, 1) ∧ alu 25 MAX 1 = (-2 ^ 63, 98304, 1) ∧ alu 25 (-1) 1 = (0, 98304, 1) := by
  decide +kernel

/-- T3.37 to T3.40. -/
theorem test_sub :
    alu 26 3 10 = (-7, 98304, 1) ∧ alu 26 MIN 1 = (2 ^ 63 - 1, 98304, 1) ∧
      alu 26 0 MIN = (-2 ^ 63, 98304, 1) := by decide +kernel

/-- T3.41 to T3.44. -/
theorem test_mul :
    alu 27 (-3) 5 = (-15, 98304, 1) ∧ alu 27 MIN (-1) = (-2 ^ 63, 98304, 1) ∧
      alu 27 0x100000000 0x100000000 = (0, 98304, 1) := by decide +kernel

/-- T3.46 to T3.49. -/
theorem test_div :
    alu 28 (-7) 2 = (-3, 98304, 1) ∧ alu 28 7 (-2) = (-3, 98304, 1) ∧ alu 28 (-7) (-2) = (3, 98304, 1) ∧
      alu 28 MIN (-1) = (-2 ^ 63, 98304, 1) := by decide +kernel

/-- T3.53 to T3.56. -/
theorem test_mod :
    alu 29 (-7) 2 = (-1, 98304, 1) ∧ alu 29 7 (-2) = (1, 98304, 1) ∧ alu 29 (-7) (-2) = (-1, 98304, 1) ∧
      alu 29 MIN (-1) = (0, 98304, 1) := by decide +kernel

/-- T3.58 to T3.61. -/
theorem test_operator_faults :
    recordAfter (withTop [28] 7 0 []) = some [5, 0, 28, 0, 3, 1] ∧
      recordAfter (withTop [29] 7 0 []) = some [5, 0, 29, 0, 3, 1] ∧
      recordAfter (machine [28] 0 0 98304 98304 []) = some [3, 0, 28, 0, 3, 0] ∧
      recordAfter (machine [25] 0 1 98304 98304 []) = some [3, 0, 25, 0, 3, 0] := by decide +kernel

/-! ## Termination and the host interface -/

/-- T4.1, T4.2: EXIT reports the top and does not pop it. -/
theorem test_exit :
    after (withTop [37] 30 0 []) = (1, 98303, 98304, 0) ∧
      stepReport (nextOf (step (withTop [37] 30 0 []))) = .exited 30 ∧
      stepReport (nextOf (step (withTop [37] (-1) 0 []))) = .exited (2 ^ 64 - 1) := by decide +kernel

/-- T4.3, T4.4. -/
theorem test_exit_faults :
    recordAfter (machine [37] 0 0 98304 98304 []) = some [3, 0, 37, 0, 3, 0] ∧
      nextOf (step (nextOf (step (withTop [37] 30 0 [])))) = nextOf (step (withTop [37] 30 0 [])) := by
  decide +kernel

/-- T5.3: the C-main launch frame. -/
theorem test_start_c_main :
    let t := nextOf (start (some 17) (.cMain 1 32768 0) State.reset)
    (t.pc, t.sp, t.bp) = (17, 98301, 98304) ∧ t.runState = .running ∧
      (t.mem.read 98303, t.mem.read 98302, t.mem.read 98301) = (1, 32768, 0) := by decide +kernel

/-- R5: RET_STUB is a TEXT address; 32767 is the last, 32768 is DATA. -/
theorem test_start_refuses_stub :
    start none (.cMain 1 0 32768) State.reset = .refused .retStubNotInText ∧
      isNext (start none (.cMain 1 0 32767) State.reset) = true := by
  exact ⟨rfl, by decide +kernel⟩

/-- R251 on a block with a TEXT of 2 cells: 3 cells are refused, as in T5.4. -/
theorem test_load_refuses :
    let s := State.initial { defaultConfig with textLen := 2 }
    (nextOf (loadText [1, 2, 3] s)).fault = ⟨.outOfBounds, 0, 0, 2, some .text, .none⟩ ∧
      (nextOf (loadText [1, 2, 3] s)).mem = [] ∧
      (nextOf (loadText [1, 2] s)).mem = [(0, 1), (1, 2)] := by decide +kernel

/-! ## Witnesses: states that meet the hypotheses of the statements -/

/-- A RUNNING safe state at `PUSH; EXIT`, with 7 on the stack. -/
def safe : State := withTop [13, 37] 7 5 []

theorem safe_inv : safe.Inv := by
  constructor <;> first | decide +kernel | (constructor <;> decide +kernel)

theorem reset_inv : State.reset.Inv := by
  constructor <;> first | decide +kernel | (constructor <;> decide +kernel)

/-- The smallest parameters rule R5 admits, DATA first and STACK last. -/
def tinyConfig : Config :=
  { defaultConfig with textLen := 1, dataLen := 1, stackLen := 1, textBase := 1, dataBase := 0, stackBase := 2 }

theorem witness_ResetSatisfiesTheInvariant :
    defaultConfig.wellFormed = true ∧ tinyConfig.wellFormed = true ∧ narrowConfig.wellFormed = true := by decide

theorem witness_ResetLeavesTheTableOfR35 : safe.cfg.wellFormed = true := by decide

theorem witness_EveryStepKeepsTheInvariant : safe.Inv ∧ step safe = .next (nextOf (step safe)) :=
  ⟨safe_inv, eq_next_of (by decide +kernel)⟩

theorem witness_LoadAndStartKeepTheInvariant :
    State.reset.Inv ∧ loadText [13, 37] State.reset = .next (nextOf (loadText [13, 37] State.reset)) ∧
      loadData [72] State.reset = .next (nextOf (loadData [72] State.reset)) ∧
      start none (.cMain 1 32768 0) State.reset = .next (nextOf (start none (.cMain 1 32768 0) State.reset)) :=
  ⟨reset_inv, eq_next_of (by decide +kernel), eq_next_of (by decide +kernel), eq_next_of (by decide +kernel)⟩

theorem witness_NoStepOfASafeStateStops : safe.Inv ∧ State.reset.Inv := ⟨safe_inv, reset_inv⟩

theorem witness_StackPointerStaysInRange :
    safe.cfg.wellFormed = true ∧ safe.spInRange ∧ step safe = .next (nextOf (step safe)) :=
  ⟨by decide, by decide +kernel, eq_next_of (by decide +kernel)⟩

theorem witness_NoStepWritesText :
    safe.Inv ∧ step safe = .next (nextOf (step safe)) ∧ inText safe.cfg 0 = true ∧ inText safe.cfg 32767 = true :=
  ⟨safe_inv, eq_next_of (by decide +kernel), by decide, by decide⟩

theorem witness_NoStepChangesTheParameters : step safe = .next (nextOf (step safe)) :=
  eq_next_of (by decide +kernel)

theorem witness_DecodeReadsBackEncode :
    defaultOpcodeMap.wellFormed 64 = true ∧ defaultOpcodeMap.wellFormed 16 = true ∧
      OpcodeMap.wellFormed 64 (defaultOpcodeMap.map (fun r => (2 ^ 64 - 1 - r.1, r.2))) = true ∧
      (∀ v, (Instr.imm (2 ^ 64 - 1)).operand? = some v → v < 2 ^ 64) := by
  decide

theorem witness_DecodedCellsAreTheEncoding :
    defaultOpcodeMap.wellFormed 64 = true ∧ (∀ c ∈ [1, 10, 13], c < 2 ^ 64) ∧
      decode defaultOpcodeMap [1, 10, 13] = .ok (.imm 10, [13]) ∧
      decode defaultOpcodeMap [13] = .ok (.push, []) := by decide

theorem witness_ValuesOutsideTheMapAreIllegal :
    ∀ op ∈ [30, 36, 39, 2 ^ 64 - 1],
      let s := machine [op] 32767 0 98304 98304 []
      s.cfg.opcodeMap = defaultOpcodeMap ∧ s.runState = .running ∧ inText s.cfg s.pc = true ∧
        ((30 ≤ s.mem.read s.pc ∧ s.mem.read s.pc ≤ 36) ∨
          39 ≤ s.mem.read s.pc) := by decide +kernel

theorem witness_UnloadedTextExecutesLeaZero :
    let s := machine [] 32766 0 98304 98304 []
    s.cfg.opcodeMap = defaultOpcodeMap ∧ s.bp < 2 ^ s.cfg.width ∧ s.runState = .running ∧
      inText s.cfg s.pc = true ∧ inText s.cfg (s.pc + 1) = true ∧ s.mem.read s.pc = 0 ∧
      s.mem.read (s.pc + 1) = 0 := by
  decide +kernel

theorem witness_StepRunsTheDecodedInstruction :
    safe.runState = .running ∧ decode safe.cfg.opcodeMap (textCells safe) = .ok (.push, [37]) ∧
      (let s := machine [13] 32767 0 98304 98304 []
       decode s.cfg.opcodeMap (textCells s) = .ok (.push, [])) ∧
      (let s := machine [1, 10] 32766 0 98304 98304 []
       decode s.cfg.opcodeMap (textCells s) = .ok (.imm 10, [])) := by decide +kernel

/-- One state for each of the three clauses, at the last TEXT cell and the first cell past it. -/
theorem witness_FetchFaultsComeFirst :
    (let s := machine [] 32768 0 98304 98304 []
     s.runState = .running ∧ s.pc < 2 ^ s.cfg.width ∧ inText s.cfg s.pc = false) ∧
      (let s := machine [30] 32767 0 98304 98304 []
       s.runState = .running ∧ s.pc < 2 ^ s.cfg.width ∧ inText s.cfg s.pc = true ∧
         opcodeOf s.cfg.opcodeMap (s.mem.read s.pc) = none) ∧
      (let s := machine [1] 32767 0 98304 98304 []
       s.runState = .running ∧ s.pc < 2 ^ s.cfg.width ∧ inText s.cfg s.pc = true ∧
         opcodeOf s.cfg.opcodeMap (s.mem.read s.pc) = some .imm ∧ Mnemonic.imm.hasOperand = true ∧
         inText s.cfg (s.pc + 1) = false) := by decide +kernel

theorem witness_PcNeverWraps :
    defaultConfig.wellFormed = true ∧ fetchDecode (machine [13] 32767 0 98304 98304 []) = .ok .push ∧
      fetchDecode (machine [1, 10] 32766 0 98304 98304 []) = .ok (.imm 10) := by
  exact ⟨by decide, rfl, rfl⟩

theorem witness_StoppedBlocksStayAsTheyAre :
    State.reset.runState = .idle ∧ (nextOf (step (withTop [37] 30 0 []))).runState = .halted ∧
      (nextOf (step (machine [30] 0 0 98304 98304 []))).runState = .faulted := by decide +kernel

theorem witness_FaultsArePrecise :
    let s := withTop [28] 7 0 []
    s.runState = .running ∧ isNext (step s) = true ∧ (nextOf (step s)).runState = .faulted := by decide +kernel

/-- Both ends of each window, the first address past the last, and a word with a negative `sint`. -/
theorem witness_AddressesNeverAlias :
    defaultConfig.wellFormed = true ∧
      [0, 32767, 32768, 65535, 65536, 98303, 98304, 2 ^ 64 - 1].map (decodeAddress defaultConfig) =
        [some (.text, 0), some (.text, 32767), some (.data, 0), some (.data, 32767), some (.stack, 0),
          some (.stack, 32767), none, none] ∧ sint 64 (2 ^ 64 - 1) < 0 := by decide

/-- A byte on each side of the sign, both settings of `LC_SIGNED`, and no cell. -/
theorem witness_LcLoadsTheByte :
    (∀ v ∈ [127, 128], let s := machine [10] 0 98303 98304 98304 [(98303, (v : Int))]
      s.cfg.wellFormed = true ∧ (unsignedBytes s).cfg.wellFormed = true ∧ cellExists s.cfg s.ax = true ∧
        s.cfg.lcSigned = true ∧ (unsignedBytes s).cfg.lcSigned = false) ∧
      cellExists defaultConfig (machine [10] 0 98304 98304 98304 []).ax = false := by decide +kernel

theorem witness_LiLoadsTheCell :
    cellExists defaultConfig (machine [9] 0 98303 98304 98304 []).ax = true ∧
      cellExists defaultConfig (machine [9] 0 98304 98304 98304 []).ax = false := by decide +kernel

/-- The four clauses of SC and SI: the first DATA cell, an empty stack, no cell, the last TEXT cell. -/
theorem witness_ScAndSi :
    defaultConfig.wellFormed = true ∧ (∀ k ∈ [11, 12],
      (let s := withTop [k] 32768 5 []
       s.mem.wf ∧ s.hasTop ∧ inText s.cfg s.top = false ∧ cellExists s.cfg s.top = true) ∧
      (let s := machine [k] 0 5 98304 98304 []
       s.mem.wf ∧ s.cfg.stackTop ≤ s.sp) ∧
      (let s := withTop [k] 98304 5 []
       s.mem.wf ∧ s.hasTop ∧ cellExists s.cfg s.top = false) ∧
      (let s := withTop [k] 32767 5 []
       s.mem.wf ∧ s.hasTop ∧ inText s.cfg s.top = true)) := by decide +kernel

/-- Room for one cell at both ends of the range, and a full stack (PUSH, CALL). -/
theorem witness_PushAndCall :
    defaultConfig.wellFormed = true ∧ (machine [13] 0 5 65537 98304 []).mem.wf ∧
      (machine [13] 0 5 65537 98304 []).hasRoom ∧
      (machine [13] 0 5 98304 98304 []).hasRoom ∧
      (machine [13] 0 5 65536 98304 []).sp = defaultConfig.stackBase ∧
      (machine [13] 0 5 98304 98304 []).runState = .running ∧
      inText defaultConfig 32768 = false ∧ 32768 < 2 ^ defaultConfig.width := by decide +kernel

theorem witness_JmpGoesToItsOperand :
    safe.runState = .running ∧ 32768 < 2 ^ safe.cfg.width ∧ inText safe.cfg 32768 = false := by decide

theorem witness_JzAndJnzTestAx :
    (machine [4, 20] 4 0 98304 98304 []).ax = 0 ∧ (machine [4, 20] 4 (-1) 98304 98304 []).ax ≠ 0 ∧
      (let s := machine [4] 32767 5 98304 98304 []
       s.runState = .running ∧ inText s.cfg s.pc = true ∧ inText s.cfg (s.pc + 1) = false ∧
         opcodeOf s.cfg.opcodeMap (s.mem.read s.pc) = some .jz) ∧
      (let s := machine [5] 32767 5 98304 98304 []
       opcodeOf s.cfg.opcodeMap (s.mem.read s.pc) = some .jnz) := by decide +kernel

/-- A top cell at both ends of the stack, and an empty stack (RET, the operators, EXIT). -/
theorem witness_TopAndEmpty :
    defaultConfig.wellFormed = true ∧ (machine [38] 0 0 65536 98304 []).hasTop ∧
      (machine [38] 0 0 98303 98304 []).hasTop ∧
      (machine [38] 0 0 98304 98304 []).cfg.stackTop ≤ (machine [38] 0 0 98304 98304 []).sp ∧
      (withTop [38] 32768 0 []).hasTop ∧ (withTop [38] 32768 0 []).runState = .running ∧
      (withTop [38] 32768 0 []).WordsFit ∧ inText defaultConfig (withTop [38] 32768 0 []).top = false := by
  refine ⟨by decide, by decide +kernel, by decide +kernel, by decide, by decide +kernel, rfl, ?_, by decide +kernel⟩
  constructor <;> decide +kernel

/-- The four clauses of ENT at the ends of their ranges (T2.17 to T2.21). -/
theorem witness_EntBuildsTheFrame :
    let s := machine [6, 0] 0 0 98301 98304 []
    s.cfg.wellFormed = true ∧ s.mem.wf ∧ s.hasRoom ∧
      (∀ n ∈ ([-4, 0, 32764] : List Int), (s.cfg.stackBase : Int) ≤ s.sp - 1 - sint 64 (wrap 64 n) ∧
        (s.sp : Int) - 1 - sint 64 (wrap 64 n) ≤ s.cfg.stackTop) ∧
      (machine [6, 0] 0 0 65536 98304 []).sp = s.cfg.stackBase ∧
      (s.sp : Int) - 1 - sint 64 (word 32765) < s.cfg.stackBase ∧
      (s.cfg.stackTop : Int) < s.sp - 1 - sint 64 (word (-5)) := by decide +kernel

/-- The three clauses of ADJ at the ends of their ranges. -/
theorem witness_AdjMovesTheStackPointer :
    let s := machine [7, 0] 0 0 98299 98304 []
    s.cfg.wellFormed = true ∧
      (∀ n ∈ ([-32763, 5] : List Int), (s.cfg.stackBase : Int) ≤ s.sp + sint 64 (wrap 64 n) ∧
        (s.sp : Int) + sint 64 (wrap 64 n) ≤ s.cfg.stackTop) ∧
      (s.cfg.stackTop : Int) < s.sp + sint 64 (word 6) ∧
      (s.sp : Int) + sint 64 (word (-32764)) < s.cfg.stackBase := by decide

/-- The three clauses of LEV at the ends of their ranges (T2.27 to T2.31). -/
theorem witness_LevUnwindsTheFrame :
    defaultConfig.wellFormed = true ∧
      (∀ bp ∈ [65536, 98302], let s := machine [8] 0 0 98290 bp []
        s.cfg.stackBase ≤ s.bp ∧ s.bp + 2 ≤ s.cfg.stackTop) ∧
      (machine [8] 0 0 98290 65535 []).bp < defaultConfig.stackBase ∧
      (∀ bp ∈ [98303, 98304, 98305], let s := machine [8] 0 0 98290 bp []
        s.cfg.stackBase ≤ s.bp ∧ s.cfg.stackTop < s.bp + 2) ∧
      (let s := machine [8] 0 0 98290 98302 [(98303, 32768)]
       s.runState = .running ∧ s.WordsFit ∧ inText s.cfg (s.mem.read (s.bp + 1)) = false) := by
  refine ⟨by decide, by decide +kernel, by decide, by decide +kernel, rfl, ?_, by decide +kernel⟩
  constructor <;> decide +kernel

theorem witness_DivAndModTruncate :
    let s := withTop [28] MIN (-1) []
    s.cfg.wellFormed = true ∧ s.hasTop ∧ s.WordsFit ∧ s.ax ≠ 0 ∧ s.signed s.top = -2 ^ (s.cfg.width - 1) ∧
      s.signed s.ax = -1 ∧ (withTop [28] 7 0 []).hasTop ∧ (withTop [28] 7 0 []).ax = 0 := by
  refine ⟨by decide, by decide +kernel, ?_, by decide, by decide +kernel, by decide, by decide +kernel, by decide⟩
  constructor <;> decide +kernel

theorem witness_QuotientAndRemainderAgree :
    let s := withTop [28] (-7) 2 []
    s.cfg.wellFormed = true ∧ s.WordsFit ∧ s.hasTop ∧ s.ax ≠ 0 ∧ exec .div s = .next (nextOf (exec .div s)) ∧
      exec .mod s = .next (nextOf (exec .mod s)) ∧
      ¬(s.signed s.top = -2 ^ (s.cfg.width - 1) ∧ s.signed s.ax = -1) :=
  ⟨by decide, by constructor <;> decide +kernel, by decide +kernel, by decide, eq_next_of (by decide +kernel),
    eq_next_of (by decide +kernel), by decide +kernel⟩

theorem witness_OperatorsAreTheWordOperations : (5 : BitVec 8) ≠ 0 := by decide

/-- `PUSH; EXIT` and one cell of data, loaded into the reset block, and started at the default entry. -/
def textLoaded : State := nextOf (loadText [13, 37] (hostReset safe))
def dataLoaded : State := nextOf (loadData [72] textLoaded)
def started : State := nextOf (start none .none dataLoaded)

/-- One step from `safe`, and one from `started`, is at EXIT with a stack top. -/
theorem witness_RunThatReachesExitReturnsTheStackTop :
    (safe.runState = .running ∧ Host.Core.run Sys2Proof.core 1 safe = .next (nextOf (step safe)) ∧
      (nextOf (step safe)).runState = .running ∧ fetchDecode (nextOf (step safe)) = .ok .exit ∧
      (nextOf (step safe)).hasTop ∧ 1 < 2) ∧
      loadText [13, 37] (hostReset safe) = .next textLoaded ∧ loadData [72] textLoaded = .next dataLoaded ∧
      start none .none dataLoaded = .next started ∧
      Host.Core.run Sys2Proof.core 1 started = .next (nextOf (step started)) ∧
      (nextOf (step started)).runState = .running ∧ fetchDecode (nextOf (step started)) = .ok .exit ∧
      (nextOf (step started)).hasTop :=
  ⟨⟨rfl, core_run_succ 0 (eq_next_of (by decide +kernel)), by decide +kernel, rfl, by decide +kernel, by decide⟩,
    eq_next_of (by decide +kernel), eq_next_of (by decide +kernel), eq_next_of (by decide +kernel),
    core_run_succ 0 (eq_next_of (by decide +kernel)), by decide +kernel, rfl, by decide +kernel⟩

/-- The report of a run that ends, if it ends in a next outcome. -/
def reportOf : Host.Outcome (StepReport × State) Fault Refusal → StepReport
  | .next r => r.1
  | .fault _ => .continues
  | .refused _ => .continues

theorem run_eq_of {o : Host.Outcome (StepReport × State) Fault Refusal} {v : Nat}
    (h : reportOf o = .exited v) : ∃ t, o = .next (.exited v, t) := by
  cases o with
  | next r => exact ⟨r.2, by rw [← h]; rfl⟩
  | fault e => cases h
  | refused r => cases h

/-- `PUSH; EXIT` from a RUNNING state, and `IMM 7; PUSH; EXIT` from reset. -/
theorem witness_ExitedMeansAnExitWasExecuted :
    safe.runState = .running ∧ (∃ t, runSteps 2 safe = .next (.exited 5, t)) ∧
      ∃ t, run 3 [1, 7, 13, 37] [] none .none State.reset = .next (.exited 7, t) :=
  ⟨rfl, run_eq_of (by decide +kernel), run_eq_of (by decide +kernel)⟩

/-- An instruction that completes, with an unlisted register of each kind. -/
theorem witness_OnlyTheListedRegistersAreWritten :
    exec .push safe = .next (nextOf (exec .push safe)) ∧ Mnemonic.push.writesAx = false ∧
      Mnemonic.imm.writesSp = false ∧ Mnemonic.push.writesBp = false ∧ Mnemonic.push.writesPc = false ∧
      (nextOf (exec .push safe)).runState ≠ .faulted :=
  ⟨eq_next_of (by decide +kernel), by decide, by decide, by decide, by decide, by decide +kernel⟩

theorem witness_UnreadRegistersHaveNoInfluence :
    Mnemonic.imm.readsAx = false ∧ Mnemonic.call.readsAx = false ∧ Mnemonic.push.readsBp = false ∧
      Mnemonic.lev.readsSp = false ∧ Mnemonic.li.readsSp = false ∧ safe.runState ≠ .faulted := by decide

theorem witness_OnlyTheStoredCellChanges :
    exec .push safe = .next (nextOf (exec .push safe)) ∧ storedCell .push safe = some 98302 ∧
      storedCell .push safe ≠ some 98301 ∧ storedCell .add safe ≠ some 98303 :=
  ⟨eq_next_of (by decide +kernel), by decide +kernel, by decide +kernel, by decide +kernel⟩

theorem witness_StatusChangesOnlyByExitAndFault : exec .exit safe = .next (nextOf (exec .exit safe)) :=
  eq_next_of (by decide +kernel)

theorem witness_ExecutionFaultsAreThoseOfTheTable :
    let s := withTop [28] 7 0 []
    s.runState ≠ .faulted ∧ exec .div s = .next (nextOf (exec .div s)) ∧
      (nextOf (exec .div s)).runState = .faulted ∧
      FaultCode.arithmeticError ∈ Mnemonic.div.executionFaults :=
  ⟨by decide, eq_next_of (by decide +kernel), by decide +kernel, by decide⟩

/-- The states of a call of a frame with one local, from `safe`: two arguments pushed, CALL 100, ENT 1, LEV. -/
def pushed : State := (pushArgs [8, 9] safe).getD safe
def called : State := nextOf (exec (.call 100) pushed)
def entered : State := nextOf (exec (.ent 1) called)
def left : State := nextOf (exec .lev entered)
def returned : State := nextOf (exec .ret called)

theorem witness_ActivationRecordLayout :
    safe.Inv ∧ safe.runState = .running ∧ pushArgs [8, 9] safe = some pushed ∧
      exec (.call 100) pushed = .next called ∧ called.runState = .running ∧
      exec (.ent 1) called = .next entered ∧ entered.runState = .running :=
  ⟨safe_inv, rfl, by decide +kernel, eq_next_of (by decide +kernel), by decide +kernel,
    eq_next_of (by decide +kernel), by decide +kernel⟩

theorem witness_FramesBalance :
    pushed.cfg.wellFormed = true ∧ pushed.mem.wf ∧ pushed.sp < 2 ^ pushed.cfg.width ∧ pushed.runState = .running ∧
      exec (.call 100) pushed = .next called ∧ called.runState = .running ∧
      exec (.ent 1) called = .next entered ∧ entered.runState = .running ∧ entered.cfg = pushed.cfg ∧
      exec .lev entered = .next left ∧ left.runState = .running :=
  ⟨by decide +kernel, by decide +kernel, by decide +kernel, by decide +kernel, eq_next_of (by decide +kernel),
    by decide +kernel, eq_next_of (by decide +kernel), by decide +kernel, by decide +kernel,
    eq_next_of (by decide +kernel), by decide +kernel⟩

theorem witness_FramelessCallsReturn :
    pushed.cfg.wellFormed = true ∧ pushed.mem.wf ∧ pushed.sp < 2 ^ pushed.cfg.width ∧ pushed.runState = .running ∧
      exec (.call 100) pushed = .next called ∧ called.runState = .running ∧ called.cfg = pushed.cfg ∧
      exec .ret called = .next returned ∧ returned.runState = .running :=
  ⟨by decide +kernel, by decide +kernel, by decide +kernel, by decide +kernel, eq_next_of (by decide +kernel),
    by decide +kernel, by decide +kernel, eq_next_of (by decide +kernel), by decide +kernel⟩

/-- Depth 0 before ENT, depth 1 after it, and LEV from there. -/
theorem witness_EntAndLevLinkTheBpChain :
    called.cfg.wellFormed = true ∧ called.mem.wf ∧ called.hasRoom ∧ isBpChain called.mem 98304 called.bp [] = true ∧
      (∀ b ∈ ([] : List Nat), called.sp ≤ b) ∧ called.sp - 1 ≠ 98304 ∧ exec (.ent 1) called = .next entered ∧
      entered.runState ≠ .faulted ∧ entered.cfg.wellFormed = true ∧
      isBpChain entered.mem 98304 entered.bp [entered.bp] = true ∧ exec .lev entered = .next left ∧
      left.runState ≠ .faulted :=
  ⟨by decide +kernel, by decide +kernel, by decide +kernel, by decide +kernel, by decide +kernel,
    by decide +kernel, eq_next_of (by decide +kernel), by decide +kernel, by decide +kernel, by decide +kernel,
    eq_next_of (by decide +kernel), by decide +kernel⟩

/-- An image that just fits and one a cell too long, on segments of one cell. -/
theorem witness_LoadPlacesOrRefusesImages :
    let s := State.initial tinyConfig
    s.cfg.wellFormed = true ∧ s.mem.wf ∧ s.runState = .idle ∧
      (∀ v ∈ [1], v < 2 ^ s.cfg.width) ∧ ([1] : List Nat).length ≤ s.cfg.textLen ∧
      ([1] : List Nat).length ≤ s.cfg.dataLen ∧
      s.cfg.textLen < ([1, 2] : List Nat).length ∧ s.cfg.dataLen < ([1, 2] : List Nat).length := by decide +kernel

theorem witness_StartLaunchesTheRun :
    let s := State.reset
    s.cfg.wellFormed = true ∧ s.mem.wf ∧ s.runState = .idle ∧ s.sp = s.cfg.stackTop ∧ 17 < 2 ^ s.cfg.width ∧
      3 ≤ s.cfg.stackLen ∧ 32768 < 2 ^ s.cfg.width ∧ inText s.cfg 0 = true ∧ inText s.cfg 32767 = true := by decide

theorem witness_StartRefusesAStubOutsideText :
    State.reset.runState = .idle ∧ inText State.reset.cfg 32768 = false := by decide

theorem witness_LoadAndStartAreOfferedOnlyInIdle : safe.runState ≠ .idle := by decide

theorem witness_PlacedInstructionIsExecuted :
    State.reset.cfg.wellFormed = true ∧ State.reset.mem.wf ∧ State.reset.cfg.width = 64 ∧
      State.reset.cfg.opcodeMap = defaultOpcodeMap ∧ 2 ≤ State.reset.cfg.textLen ∧
      decodeTableWord 64 37 = some .exit := by decide

end Sys2Proof.Tests
end

section
/-! The state after reset (R35, R250): which bases are words, the registers reset loads with them, and
the cleared rest of the table. -/

namespace Sys2Proof.Machine

/-- TEXT begins below `STACK_TOP` (R23), so its base is a word. -/
theorem textBase_lt_two_pow_width {c : Config} (h : c.wellFormed = true) : c.textBase < 2 ^ c.width := by
  obtain ⟨-, htext, -, hstack, -⟩ := Config.bounds h
  have hbase : c.textBase ≤ c.textEnd := Nat.le_add_right _ _
  omega

theorem stackTop_lt_two_pow_width {c : Config} (h : c.wellFormed = true) : c.stackTop < 2 ^ c.width := by
  obtain ⟨-, -, -, hstack, -⟩ := Config.bounds h
  exact hstack

/-- The registers of R35's table: no base is changed by `wrap`. -/
theorem initial_registers {c : Config} (h : c.wellFormed = true) :
    (State.initial c).pc = c.textBase ∧ (State.initial c).sp = c.stackTop ∧
      (State.initial c).bp = c.stackTop := by
  have hbase := wrap_nat (textBase_lt_two_pow_width h)
  have htop := wrap_nat (stackTop_lt_two_pow_width h)
  exact ⟨(initial_pc c).trans hbase, (initial_sp c).trans htop, (initial_bp c).trans htop⟩

/-- The rows of R35's table that no parameter enters, and the parameters themselves. -/
theorem initial_cleared (c : Config) :
    (State.initial c).ax = 0 ∧ (∀ a, (State.initial c).mem.read a = 0) ∧
      (State.initial c).runState = .idle ∧
      (State.initial c).fault = ⟨.none, 0, 0, 0, none, .none⟩ ∧ (State.initial c).exitStatus = 0 ∧
      (State.initial c).cfg = c := by
  have hmem : ∀ a, (State.initial c).mem.read a = 0 := fun a => by
    rw [initial_mem, Memory.read_nil]
  exact ⟨initial_ax c, hmem, initial_runState c, initial_fault c, initial_exitStatus c, initial_cfg c⟩

theorem defaultConfig_wellFormed : defaultConfig.wellFormed = true := by decide

/-- Settles O1: both resets are `State.initial`, of the block's parameters and of the defaults. -/
theorem resetLeavesTheTableOfR35 : Obligations.ResetLeavesTheTableOfR35 := by
  unfold Obligations.ResetLeavesTheTableOfR35
  obtain ⟨hpc, hsp, hbp⟩ := initial_registers defaultConfig_wellFormed
  exact ⟨fun s => ⟨initial_registers, initial_cleared s.cfg⟩,
    hpc, hsp, hbp, initial_cleared defaultConfig⟩

end Sys2Proof.Machine
end

section
/-! `Decode` (R53): the windows of well-formed parameters are disjoint and lie below `2^(W-1)`, so that
an address word and a segment's offset determine one another. -/

namespace Sys2Proof.Machine

/-- First address of a segment's window (R51). -/
def windowBase (c : Config) : Segment → Nat
  | .text => c.textBase
  | .data => c.dataBase
  | .stack => c.stackBase

/-- Number of cells of a segment (R51). -/
def windowLen (c : Config) : Segment → Nat
  | .text => c.textLen
  | .data => c.dataLen
  | .stack => c.stackLen

theorem inData_iff {c : Config} {a : Nat} : inData c a = true ↔ c.dataBase ≤ a ∧ a < c.dataEnd := by
  simp [inData]

/-- No two windows share a cell (R5). -/
theorem windows_disjoint {c : Config} (h : c.wellFormed = true) :
    (c.textEnd ≤ c.dataBase ∨ c.dataEnd ≤ c.textBase) ∧
      (c.textEnd ≤ c.stackBase ∨ c.stackTop ≤ c.textBase) ∧
      (c.dataEnd ≤ c.stackBase ∨ c.stackTop ≤ c.dataBase) := by
  simp only [Config.wellFormed, windowsDisjoint, Bool.and_eq_true, decide_eq_true_eq] at h
  obtain ⟨⟨⟨⟨⟨⟨⟨-, htextData⟩, htextStack⟩, hdataStack⟩, -⟩, -⟩, -⟩, -⟩ := h
  exact ⟨htextData, htextStack, hdataStack⟩

/-- DATA lies in the non-negative half of the address words (D32). -/
theorem dataEnd_le_half {c : Config} (h : c.wellFormed = true) : c.dataEnd ≤ 2 ^ (c.width - 1) := by
  simp only [Config.wellFormed, Bool.and_eq_true, decide_eq_true_eq] at h
  obtain ⟨⟨⟨-, hdata⟩, -⟩, -⟩ := h
  exact hdata

/-- Every cell has an address in the non-negative half of the address words (D32). -/
theorem lt_half_of_cellExists {c : Config} (h : c.wellFormed = true) {a : Nat}
    (ha : cellExists c a = true) : a < 2 ^ (c.width - 1) := by
  obtain ⟨-, htext, -, -, hstack⟩ := Config.bounds h
  have hdata := dataEnd_le_half h
  simp only [cellExists, Bool.or_eq_true, inText_iff, inData_iff, inStack_iff] at ha
  omega

theorem sint_nonneg_of_lt_half {w v : Nat} (h : v < 2 ^ (w - 1)) : 0 ≤ sint w v := by
  rw [sint, if_pos h]
  exact Int.natCast_nonneg v

theorem decodeAddress_of_inText {c : Config} {w : Nat} (h : inText c w = true) :
    decodeAddress c w = some (.text, w - c.textBase) := by simp [decodeAddress, h]

/-- An address in the DATA window is not in TEXT, which `Decode` tries first. -/
theorem decodeAddress_of_inData {c : Config} (hc : c.wellFormed = true) {w : Nat}
    (h : inData c w = true) : decodeAddress c w = some (.data, w - c.dataBase) := by
  obtain ⟨htext, -, -⟩ := windows_disjoint hc
  have hnot : ¬ inText c w = true := by
    rw [inText_iff]
    rw [inData_iff] at h
    omega
  simp [decodeAddress, hnot, h]

/-- An address in the STACK window is in neither window that `Decode` tries before it. -/
theorem decodeAddress_of_inStack {c : Config} (hc : c.wellFormed = true) {w : Nat}
    (h : inStack c w = true) : decodeAddress c w = some (.stack, w - c.stackBase) := by
  obtain ⟨-, htext, hdata⟩ := windows_disjoint hc
  have hnotText : ¬ inText c w = true := by
    rw [inText_iff]
    rw [inStack_iff] at h
    omega
  have hnotData : ¬ inData c w = true := by
    rw [inData_iff]
    rw [inStack_iff] at h
    omega
  simp [decodeAddress, hnotText, hnotData, h]

/-- An address of a window of `len` cells from `base` has an offset below `len`. -/
theorem offset_of_window {base len a : Nat} (h : base ≤ a ∧ a < base + len) :
    a - base < len ∧ a = base + (a - base) := by omega

/-- What `Decode` names lies at base plus offset, inside its segment. -/
theorem address_of_decodeAddress {c : Config} {w : Nat} {g : Segment} {n : Nat}
    (h : decodeAddress c w = some (g, n)) : n < windowLen c g ∧ w = windowBase c g + n := by
  obtain ⟨rfl, hin, rfl⟩ | ⟨rfl, hin, rfl⟩ | ⟨rfl, hin, rfl⟩ := decodeAddress_eq_some h
  · exact offset_of_window (inText_iff.1 hin)
  · exact offset_of_window (inData_iff.1 hin)
  · exact offset_of_window (inStack_iff.1 hin)

/-- `Decode` reads back every offset of every segment. -/
theorem decodeAddress_base_add {c : Config} (hc : c.wellFormed = true) {g : Segment} {n : Nat}
    (hn : n < windowLen c g) : decodeAddress c (windowBase c g + n) = some (g, n) := by
  cases g with
  | text =>
    have hin : inText c (c.textBase + n) = true :=
      inText_iff.2 ⟨Nat.le_add_right _ _, Nat.add_lt_add_left hn _⟩
    rw [windowBase, decodeAddress_of_inText hin, Nat.add_sub_cancel_left]
  | data =>
    have hin : inData c (c.dataBase + n) = true :=
      inData_iff.2 ⟨Nat.le_add_right _ _, Nat.add_lt_add_left hn _⟩
    rw [windowBase, decodeAddress_of_inData hc hin, Nat.add_sub_cancel_left]
  | stack =>
    have hin : inStack c (c.stackBase + n) = true :=
      inStack_iff.2 ⟨Nat.le_add_right _ _, Nat.add_lt_add_left hn _⟩
    rw [windowBase, decodeAddress_of_inStack hc hin, Nat.add_sub_cancel_left]

theorem decodeAddress_eq_some_iff {c : Config} (hc : c.wellFormed = true) {w : Nat} (g : Segment)
    (n : Nat) : decodeAddress c w = some (g, n) ↔ n < windowLen c g ∧ w = windowBase c g + n := by
  constructor
  · exact address_of_decodeAddress
  · rintro ⟨hn, rfl⟩
    exact decodeAddress_base_add hc hn

/-- Words that name the same offset of the same segment are the same word. -/
theorem eq_of_decodeAddress_eq_some {c : Config} {w w' : Nat} {d : Segment × Nat}
    (h : decodeAddress c w = some d) (h' : decodeAddress c w' = some d) : w = w' := by
  obtain ⟨-, hw⟩ := address_of_decodeAddress h
  obtain ⟨-, hw'⟩ := address_of_decodeAddress h'
  rw [hw, hw']

/-- A word read as negative names no cell (D32). -/
theorem decodeAddress_of_sint_neg {c : Config} (hc : c.wellFormed = true) {w : Nat}
    (h : sint c.width w < 0) : decodeAddress c w = none := by
  rw [decodeAddress_eq_none_iff, ← Bool.not_eq_true]
  intro hw
  exact absurd (sint_nonneg_of_lt_half (lt_half_of_cellExists hc hw)) (not_le.2 h)

/-- Settles O19: each window's clause is `decodeAddress_eq_some_iff` at its segment. -/
theorem addressesNeverAlias : Obligations.AddressesNeverAlias := by
  unfold Obligations.AddressesNeverAlias
  intro c hc w
  exact ⟨decodeAddress_eq_some_iff hc .text, decodeAddress_eq_some_iff hc .data,
    decodeAddress_eq_some_iff hc .stack, decodeAddress_eq_none_iff,
    fun _ _ => eq_of_decodeAddress_eq_some, decodeAddress_of_sint_neg hc⟩

end Sys2Proof.Machine
end

section
/-! Decoding by the rows of an opcode map (R82, R84, R85): every row's number decodes to its mnemonic,
and a cell value without a row is illegal (R86). -/

namespace Sys2Proof

/-- A number is legal exactly when it stands in a row (R86). -/
theorem opcodeOf_eq_none_iff {m : OpcodeMap} {op : Nat} :
    opcodeOf m op = none ↔ op ∉ m.map Prod.fst := by
  simp only [opcodeOf, Option.map_eq_none_iff, List.find?_eq_none, beq_iff_eq, List.mem_map,
    not_exists, not_and]

/-- In a map without a repeated number, each row is found by its number (R85). -/
theorem opcodeOf_of_mem {m : OpcodeMap} (hm : (m.map Prod.fst).Nodup) {r : Nat × Mnemonic}
    (hr : r ∈ m) : opcodeOf m r.1 = some r.2 := by
  induction m with
  | nil => cases hr
  | cons r' m ih =>
    obtain ⟨hnew, hrest⟩ := List.nodup_cons.1 hm
    obtain rfl | hr := List.mem_cons.1 hr
    · simp [opcodeOf]
    · have hne : r'.1 ≠ r.1 := fun h => hnew (h ▸ List.mem_map_of_mem hr)
      have hskip : opcodeOf (r' :: m) r.1 = opcodeOf m r.1 := by simp [opcodeOf, hne]
      rw [hskip, ih hrest hr]

/-- With a next cell at hand, a legal opcode cell decodes: an F1 form takes that cell as its operand, an
F0 form leaves it (R82, R84). -/
theorem decode_of_opcodeOf {m : OpcodeMap} {op : Nat} {k : Mnemonic} (h : opcodeOf m op = some k)
    (v : Nat) (rest : List Nat) :
    decode m (op :: v :: rest) =
      .ok (if k.hasOperand then (k.toInstr v, rest) else (k.toInstr 0, v :: rest)) := by
  cases hk : k.hasOperand <;> simp [decode, h, hk]

/-- The numbers of R85's table: 0 to 29, 37 and 38. -/
theorem numbers_defaultOpcodeMap : defaultOpcodeMap.map Prod.fst = List.range 30 ++ [37, 38] := rfl

theorem nodup_numbers_defaultOpcodeMap : (defaultOpcodeMap.map Prod.fst).Nodup := by decide

/-- The illegal values of R86, as those the table's numbers leave. -/
theorem opcodeOf_defaultOpcodeMap_eq_none_iff (op : Nat) :
    opcodeOf defaultOpcodeMap op = none ↔ (30 ≤ op ∧ op ≤ 36) ∨ 39 ≤ op := by
  rw [opcodeOf_eq_none_iff, numbers_defaultOpcodeMap]
  simp only [List.mem_append, List.mem_range, List.mem_cons, List.not_mem_nil, or_false]
  omega

/-- Each row of R85's table decodes to its instruction, with any next cell. -/
theorem decode_row_defaultOpcodeMap (v : Nat) : ∀ r ∈ defaultOpcodeMap,
    decode defaultOpcodeMap [r.1, v] =
      .ok (if r.2.hasOperand then (r.2.toInstr v, []) else (r.2.toInstr 0, [v])) :=
  fun _ hr => decode_of_opcodeOf (opcodeOf_of_mem nodup_numbers_defaultOpcodeMap hr) v []

/-- Settles O11: its conjunction is `decode_row_defaultOpcodeMap` written out over the 32 rows, which is
what `List.Forall` of the table computes to. -/
theorem tableWordsDecode : Obligations.TableWordsDecode := by
  unfold Obligations.TableWordsDecode
  intro v
  exact List.forall_iff_forall_mem.2 (decode_row_defaultOpcodeMap v)

end Sys2Proof

namespace Sys2Proof.Machine

/-- `Fetch` inside TEXT answers the cell (R56). -/
theorem fetchCell_of_inText {s : State} {a : Nat} (h : inText s.cfg a = true) :
    fetchCell a s = .ok (s.mem.read a) := by
  simp [fetchCell, h]

/-- A fetched cell that is no opcode raises UnknownInstruction with that cell (R82, R86, R211). -/
theorem fetchDecode_of_unknown {s : State} (htext : inText s.cfg s.pc = true)
    (hop : opcodeOf s.cfg.opcodeMap (s.mem.read s.pc) = none) :
    fetchDecode s = .error (enterFault (s.mem.read s.pc) .unknownInstruction s) := by
  simp [fetchDecode, fetchCell_of_inText htext, hop]

/-- A RUNNING block whose fetch raises steps to the state after fault entry (R235, R221). -/
theorem step_of_fetchDecode_error {s t : State} (hrun : s.runState = .running)
    (h : fetchDecode s = .error t) : step s = .next t := by
  rw [step_running hrun, h]

/-- Settles O12: the illegal values are those without a row, and a step that fetches one ends in its
fault entry. -/
theorem valuesOutsideTheMapAreIllegal : Obligations.ValuesOutsideTheMapAreIllegal := by
  unfold Obligations.ValuesOutsideTheMapAreIllegal
  refine ⟨opcodeOf_defaultOpcodeMap_eq_none_iff, fun s hmap hrun htext hval => ?_⟩
  have hop : opcodeOf s.cfg.opcodeMap (s.mem.read s.pc) = none := by
    rw [hmap]
    exact (opcodeOf_defaultOpcodeMap_eq_none_iff _).2 hval
  exact step_of_fetchDecode_error hrun (fetchDecode_of_unknown htext hop)

end Sys2Proof.Machine
end

section
/-! The memory-access instructions (R100 to R104): the byte LC and SC leave in AX, the cell SC leaves in
memory, and for each instruction what its pseudocode answers under the conditions its rule names. -/

namespace Sys2Proof.Machine

/-! ## The transaction, from the advanced PC -/

theorem advance_eq (n : Nat) (s : State) : advance n s = { s with pc := s.pcAfter n } := by
  rw [← advance_pc_eq]
  rfl

/-- A pseudocode that completes after the fetch is the instruction's next state (R9, R82). -/
theorem transact_of_completes {n : Nat} {body : State → Except Stop State} {s t : State}
    (h : body { s with pc := s.pcAfter n } = .ok t) : transact n body s = .next t :=
  transact_of_ok (by rw [advance_eq, h])

/-- A pseudocode that raises leaves the state before the fetch with the cause recorded (R9, R221). -/
theorem transact_of_raises {n : Nat} {body : State → Except Stop State} {s : State} {e : FaultCause}
    (h : body { s with pc := s.pcAfter n } = .error (.raise e)) :
    transact n body s = .next (s.faultedWith e.code e.addr e.seg e.kind) := by
  have hadvance : body (advance n s) = .error (.raise e) := by rw [advance_eq, h]
  rw [transact_of_raise hadvance, enterFault_opcodeCell]

/-! ## Bytes -/

theorem lowByte_toNat (v : Nat) : (lowByte v).toNat = v % 256 := BitVec.toNat_ofNat v 8

theorem lowByte_toInt (v : Nat) :
    (lowByte v).toInt =
      if v % 256 < 128 then ((v % 256 : Nat) : Int) else ((v % 256 : Nat) : Int) - 256 := by
  rw [BitVec.toInt_eq_toNat_cond, lowByte_toNat]
  split_ifs <;> omega

/-- A byte's value is a word, of whatever width the parameters allow. -/
theorem byte_lt_two_pow_width {c : Config} (hc : c.wellFormed = true) (b : BitVec 8) :
    b.toNat < 2 ^ c.width := by
  obtain ⟨hwidth, -⟩ := Config.bounds hc
  exact b.isLt.trans_le (Nat.pow_le_pow_right (by decide) (by omega))

theorem extendByte_lt {c : Config} (hc : c.wellFormed = true) (b : BitVec 8) :
    extendByte c b < 2 ^ c.width := by
  unfold extendByte
  split
  · exact wrap_lt _ _
  · exact byte_lt_two_pow_width hc b

/-- Under `LC_SIGNED` the extended byte reads as the byte's signed value: a byte's range lies inside a
word's, so `wrap` keeps it. -/
theorem sint_extendByte {c : Config} (hc : c.wellFormed = true) (hs : c.lcSigned = true) (b : BitVec 8) :
    sint c.width (extendByte c b) = b.toInt := by
  obtain ⟨hwidth, -⟩ := Config.bounds hc
  have hhalf : (2 : Int) ^ 7 ≤ 2 ^ (c.width - 1) := pow_le_pow_right₀ (by decide) (by omega)
  have hlow : -2 ^ 7 ≤ b.toInt := b.le_toInt
  have hhigh : b.toInt < 2 ^ 7 := b.toInt_lt
  rw [extendByte, if_pos hs, sext8, sint_wrap (by omega) (by omega) (by omega)]

theorem extendByte_of_unsigned {c : Config} (hs : c.lcSigned = false) (b : BitVec 8) :
    extendByte c b = b.toNat := by
  simp [extendByte, hs, zext8]

/-- What LC and SC leave in AX for a cell value `v`, under either setting of `LC_SIGNED` (R101, R103). -/
theorem extendByte_lowByte {c : Config} (hc : c.wellFormed = true) (v : Nat) :
    extendByte c (lowByte v) < 2 ^ c.width ∧
      (c.lcSigned = true →
        sint c.width (extendByte c (lowByte v)) =
          if v % 256 < 128 then ((v % 256 : Nat) : Int) else ((v % 256 : Nat) : Int) - 256) ∧
      (c.lcSigned = false → extendByte c (lowByte v) = v % 256) := by
  refine ⟨extendByte_lt hc _, fun hs => ?_, fun hs => ?_⟩
  · rw [sint_extendByte hc hs, lowByte_toInt]
  · rw [extendByte_of_unsigned hs, lowByte_toNat]

/-- The byte of a cell after it is replaced (R58). -/
theorem replaceByte_mod (c : Nat) (b : BitVec 8) : replaceByte c b % 256 = b.toNat := by
  have hb := b.isLt
  unfold replaceByte
  omega

/-- The other bits of a cell after its byte is replaced (R58). -/
theorem replaceByte_div (c : Nat) (b : BitVec 8) : replaceByte c b / 256 = c / 256 := by
  have hb := b.isLt
  unfold replaceByte
  omega

/-! ## Data reads and writes -/

theorem inText_of_not_cellExists {c : Config} {a : Nat} (h : cellExists c a = false) :
    inText c a = false := by
  rw [← Bool.not_eq_true] at h ⊢
  exact mt cellExists_of_inText h

theorem memWrite_of_writable {s : State} {a : Nat} (v : Nat) (htext : inText s.cfg a = false)
    (ha : cellExists s.cfg a = true) : memWrite a v s = .ok { s with mem := s.mem.write a v } := by
  simp [memWrite_eq, htext, ha]

theorem memWrite_of_noCell {s : State} {a : Nat} (v : Nat) (ha : cellExists s.cfg a = false) :
    memWrite a v s = .error (.raise (.outOfBounds a none)) := by
  simp [memWrite_eq, inText_of_not_cellExists ha, ha]

theorem memWrite_of_inText {s : State} {a : Nat} (v : Nat) (ha : inText s.cfg a = true) :
    memWrite a v s = .error (.raise (.outOfBounds a (some .text))) := by
  simp [memWrite_eq, ha]

/-! ## Loads -/

/-- Settles O20: IMM's pseudocode cannot stop. -/
theorem immLoadsItsOperand : Obligations.ImmLoadsItsOperand := by
  unfold Obligations.ImmLoadsItsOperand
  intro s v
  rw [exec_imm]
  exact transact_of_completes rfl

theorem pseudoLi_of_exists {s : State} (h : cellExists s.cfg s.ax = true) :
    pseudoLi s = .ok { s with ax := s.mem.read s.ax } := by
  simp [pseudoLi, memRead_eq, h]

theorem pseudoLi_of_noCell {s : State} (h : cellExists s.cfg s.ax = false) :
    pseudoLi s = .error (.raise (.outOfBounds s.ax none)) := by
  simp [pseudoLi, memRead_eq, h]

/-- Settles O22, by whether the address names a cell. -/
theorem liLoadsTheCell : Obligations.LiLoadsTheCell := by
  unfold Obligations.LiLoadsTheCell
  intro s
  rw [exec_li]
  constructor
  · intro h
    exact transact_of_completes (pseudoLi_of_exists h)
  · intro h
    exact transact_of_raises (pseudoLi_of_noCell h)

theorem pseudoLc_of_exists {s : State} (h : cellExists s.cfg s.ax = true) :
    pseudoLc s = .ok { s with ax := extendByte s.cfg (lowByte (s.mem.read s.ax)) } := by
  simp [pseudoLc, memReadByte_eq, h]

theorem pseudoLc_of_noCell {s : State} (h : cellExists s.cfg s.ax = false) :
    pseudoLc s = .error (.raise (.outOfBounds s.ax none)) := by
  simp [pseudoLc, memReadByte_eq, h]

/-- Settles O21, by whether the address names a cell; the value is `extendByte_lowByte`. -/
theorem lcLoadsTheByte : Obligations.LcLoadsTheByte := by
  unfold Obligations.LcLoadsTheByte
  intro s hc
  rw [exec_lc]
  constructor
  · intro h
    exact ⟨_, transact_of_completes (pseudoLc_of_exists h), rfl, extendByte_lowByte hc _⟩
  · intro h
    exact transact_of_raises (pseudoLc_of_noCell h)

/-! ## Stores -/

theorem pseudoSi_of_empty {s : State} (h : s.cfg.stackTop ≤ s.sp) :
    pseudoSi s = .error (.raise .stackUnderflow) := by
  rw [pseudoSi, pop_of_empty h]

/-- With a stack top, SI is the write to the popped address (R104). -/
theorem pseudoSi_of_top {s : State} (hc : s.cfg.wellFormed = true) (h : s.hasTop) :
    pseudoSi s = memWrite s.top s.ax { s with sp := s.sp + 1 } := by
  rw [pseudoSi, pop_of_top hc h]

theorem pseudoSi_of_writable {s : State} (hc : s.cfg.wellFormed = true) (h : s.hasTop)
    (htext : inText s.cfg s.top = false) (hcell : cellExists s.cfg s.top = true) :
    pseudoSi s = .ok { s with sp := s.sp + 1, mem := s.mem.write s.top s.ax } :=
  (pseudoSi_of_top hc h).trans (memWrite_of_writable _ htext hcell)

theorem pseudoSi_of_noCell {s : State} (hc : s.cfg.wellFormed = true) (h : s.hasTop)
    (hcell : cellExists s.cfg s.top = false) :
    pseudoSi s = .error (.raise (.outOfBounds s.top none)) :=
  (pseudoSi_of_top hc h).trans (memWrite_of_noCell _ hcell)

theorem pseudoSi_of_inText {s : State} (hc : s.cfg.wellFormed = true) (h : s.hasTop)
    (htext : inText s.cfg s.top = true) :
    pseudoSi s = .error (.raise (.outOfBounds s.top (some .text))) :=
  (pseudoSi_of_top hc h).trans (memWrite_of_inText _ htext)

/-- Settles O24: without a stack top `Pop` raises; with one, the popped address decides. -/
theorem siStoresTheCell : Obligations.SiStoresTheCell := by
  unfold Obligations.SiStoresTheCell
  intro s hc hmem
  rw [exec_si]
  refine ⟨fun htop htext hcell => ?_, fun hempty => ?_, fun htop hcell => ?_, fun htop htext => ?_⟩
  · exact ⟨_, transact_of_completes (pseudoSi_of_writable hc htop htext hcell), rfl,
      Memory.read_write_same hmem _ _, fun b hb => Memory.read_write_other hb _⟩
  · exact transact_of_raises (pseudoSi_of_empty hempty)
  · exact transact_of_raises (pseudoSi_of_noCell hc htop hcell)
  · exact transact_of_raises (pseudoSi_of_inText hc htop htext)

theorem pseudoSc_of_empty {s : State} (h : s.cfg.stackTop ≤ s.sp) :
    pseudoSc s = .error (.raise .stackUnderflow) := by
  rw [pseudoSc, pop_of_empty h]

/-- The cell SC stores: the one at the popped address with its byte replaced by AX's (R58, R103). -/
def mergedCell (s : State) : Nat := replaceByte (s.mem.read s.top) (lowByte s.ax)

/-- When the write of the merged cell to the popped address completes, the stored byte is then read back
into AX (R103). -/
theorem pseudoSc_of_writes {s t : State} (hc : s.cfg.wellFormed = true) (h : s.hasTop)
    (hw : memWrite s.top (mergedCell s) { s with sp := s.sp + 1 } = .ok t) :
    pseudoSc s = .ok { t with ax := extendByte t.cfg (lowByte t.ax) } := by
  rw [mergedCell] at hw
  simp only [pseudoSc, pop_of_top hc h, memWriteByte, hw]

/-- When that write stops, so does SC, with the same cause (R103). -/
theorem pseudoSc_of_write_stops {s : State} {e : Stop} (hc : s.cfg.wellFormed = true) (h : s.hasTop)
    (hw : memWrite s.top (mergedCell s) { s with sp := s.sp + 1 } = .error e) :
    pseudoSc s = .error e := by
  rw [mergedCell] at hw
  simp only [pseudoSc, pop_of_top hc h, memWriteByte, hw]

theorem pseudoSc_of_writable {s : State} (hc : s.cfg.wellFormed = true) (h : s.hasTop)
    (htext : inText s.cfg s.top = false) (hcell : cellExists s.cfg s.top = true) :
    pseudoSc s = .ok { s with
      sp := s.sp + 1
      ax := extendByte s.cfg (lowByte s.ax)
      mem := s.mem.write s.top (mergedCell s) } :=
  pseudoSc_of_writes hc h (memWrite_of_writable _ htext hcell)

theorem pseudoSc_of_noCell {s : State} (hc : s.cfg.wellFormed = true) (h : s.hasTop)
    (hcell : cellExists s.cfg s.top = false) :
    pseudoSc s = .error (.raise (.outOfBounds s.top none)) :=
  pseudoSc_of_write_stops hc h (memWrite_of_noCell _ hcell)

theorem pseudoSc_of_inText {s : State} (hc : s.cfg.wellFormed = true) (h : s.hasTop)
    (htext : inText s.cfg s.top = true) :
    pseudoSc s = .error (.raise (.outOfBounds s.top (some .text))) :=
  pseudoSc_of_write_stops hc h (memWrite_of_inText _ htext)

/-- The bits of the cell SC stored (R103): AX's byte, and above it those of the old cell. -/
theorem read_write_mergedCell {s : State} (h : s.mem.wf) :
    (s.mem.write s.top (mergedCell s)).read s.top % 256 = s.ax % 256 ∧
      (s.mem.write s.top (mergedCell s)).read s.top / 256 = s.mem.read s.top / 256 := by
  rw [Memory.read_write_same h, mergedCell, replaceByte_mod, lowByte_toNat, replaceByte_div]
  exact ⟨rfl, rfl⟩

/-- Settles O23: without a stack top `Pop` raises; with one, the popped address decides, and the stored
cell is the merged one. -/
theorem scStoresTheByte : Obligations.ScStoresTheByte := by
  unfold Obligations.ScStoresTheByte
  intro s hc hmem
  rw [exec_sc]
  refine ⟨fun htop htext hcell => ?_, fun hempty => ?_, fun htop hcell => ?_, fun htop htext => ?_⟩
  · obtain ⟨hbyte, hrest⟩ := read_write_mergedCell hmem
    exact ⟨_, transact_of_completes (pseudoSc_of_writable hc htop htext hcell), rfl, hbyte, hrest,
      fun b hb => Memory.read_write_other hb _, extendByte_lowByte hc s.ax⟩
  · exact transact_of_raises (pseudoSc_of_empty hempty)
  · exact transact_of_raises (pseudoSc_of_noCell hc htop hcell)
  · exact transact_of_raises (pseudoSc_of_inText hc htop htext)

end Sys2Proof.Machine
end

section
/-! The stack and control-flow instructions (R120 to R129): the fetch faults a jump can lead to, SetSP by
the range of its argument, and for each instruction what its pseudocode answers under the conditions its
rule names. -/

namespace Sys2Proof.Machine

/-! ## Fetches outside TEXT -/

/-- `Fetch` outside TEXT raises OutOfBounds at the address word (R56). -/
theorem fetchCell_of_not_inText {s : State} {a : Nat} (h : inText s.cfg a = false) :
    fetchCell a s = .error (.outOfBounds (a % 2 ^ s.cfg.width) (some .text)) := by
  simp [fetchCell, h, wrap_natCast]

/-- A RUNNING block whose PC is a word outside TEXT faults at its opcode fetch (R82, R121). -/
theorem step_of_pc_not_inText {s : State} (hrun : s.runState = .running)
    (hpc : s.pc < 2 ^ s.cfg.width) (htext : inText s.cfg s.pc = false) :
    step s = .next s.fetchFaulted := by
  have hfetch : fetchDecode s = .error s.fetchFaulted := by
    rw [fetchDecode, fetchCell_of_not_inText htext, Nat.mod_eq_of_lt hpc]
    rfl
  exact step_of_fetchDecode_error hrun hfetch

/-- An F1 instruction in the last TEXT cell faults at its operand fetch, before it executes (R82). -/
theorem fetchDecode_of_operand_not_inText {s : State} {k : Mnemonic} (htext : inText s.cfg s.pc = true)
    (hop : opcodeOf s.cfg.opcodeMap (s.mem.read s.pc) = some k) (hk : k.hasOperand = true)
    (hoperand : inText s.cfg (s.pc + 1) = false) :
    fetchDecode s = .error (s.faultedWith .outOfBounds (s.pcAfter 1) (some .text) .none) := by
  simp only [fetchDecode, fetchCell_of_inText htext, hop, hk, if_true, fetchCell_of_not_inText hoperand]
  rfl

/-! ## Jumps -/

/-- Settles O26: JMP's pseudocode cannot stop, and the fetch at its target is `step_of_pc_not_inText`. -/
theorem jmpGoesToItsOperand : Obligations.JmpGoesToItsOperand := by
  unfold Obligations.JmpGoesToItsOperand
  intro s target htarget
  rw [exec_jmp]
  exact ⟨transact_of_completes rfl, fun hrun htext => step_of_pc_not_inText hrun htarget htext⟩

theorem pseudoJz_eq (target : Nat) (s : State) :
    pseudoJz target s = .ok (if s.ax = 0 then { s with pc := target } else s) := by
  by_cases h : s.ax = 0 <;> simp [pseudoJz, axIsZero, operandTarget, h]

theorem pseudoJnz_eq (target : Nat) (s : State) :
    pseudoJnz target s = .ok (if s.ax = 0 then s else { s with pc := target }) := by
  by_cases h : s.ax = 0 <;> simp [pseudoJnz, axIsZero, operandTarget, h]

/-- Settles O27, by whether AX is 0; the operand fetch comes before either test. -/
theorem jzAndJnzTestAx : Obligations.JzAndJnzTestAx := by
  unfold Obligations.JzAndJnzTestAx
  intro s target
  rw [exec_jz, exec_jnz]
  refine ⟨fun hzero => ⟨?_, ?_⟩, fun hzero => ⟨?_, ?_⟩, fun hrun htext hoperand hop => ?_⟩
  · exact transact_of_completes (by rw [pseudoJz_eq, if_pos hzero])
  · exact transact_of_completes (by rw [pseudoJnz_eq, if_pos hzero])
  · exact transact_of_completes (by rw [pseudoJz_eq, if_neg hzero])
  · exact transact_of_completes (by rw [pseudoJnz_eq, if_neg hzero])
  · rcases hop with hop | hop <;>
      exact step_of_fetchDecode_error hrun (fetchDecode_of_operand_not_inText htext hop rfl hoperand)

/-- Settles O33: LEA's pseudocode cannot stop, and its sum is what `wrap` says. -/
theorem leaAddsToTheBasePointer : Obligations.LeaAddsToTheBasePointer := by
  unfold Obligations.LeaAddsToTheBasePointer
  intro s n
  rw [exec_lea]
  exact ⟨_, transact_of_completes rfl, rfl, wrap_cast _ _⟩

/-! ## PUSH, CALL and RET -/

theorem pseudoPush_of_room {s : State} (hc : s.cfg.wellFormed = true) (h : s.hasRoom) :
    pseudoPush s = .ok { s with sp := s.sp - 1, mem := s.mem.write (s.sp - 1) s.ax } :=
  push_of_room hc h s.ax

theorem pseudoPush_of_full {s : State} (h : s.sp ≤ s.cfg.stackBase) :
    pseudoPush s = .error (.raise .stackOverflow) := push_of_full h s.ax

/-- Settles O25: PUSH is `Push` of AX. -/
theorem pushStoresAtTheNewTop : Obligations.PushStoresAtTheNewTop := by
  unfold Obligations.PushStoresAtTheNewTop
  intro s hc hmem
  rw [exec_push]
  constructor
  · intro hroom
    exact ⟨_, transact_of_completes (pseudoPush_of_room hc hroom), rfl,
      Memory.read_write_same hmem _ _, fun b hb => Memory.read_write_other hb _⟩
  · intro hfull
    exact transact_of_raises (pseudoPush_of_full hfull.le)

theorem pseudoCall_of_room {s : State} {target : Nat} (hc : s.cfg.wellFormed = true) (h : s.hasRoom) :
    pseudoCall target s =
      .ok { s with pc := target, sp := s.sp - 1, mem := s.mem.write (s.sp - 1) s.pc } := by
  rw [pseudoCall, push_of_room hc h]
  rfl

theorem pseudoCall_of_full {s : State} {target : Nat} (h : s.sp ≤ s.cfg.stackBase) :
    pseudoCall target s = .error (.raise .stackOverflow) := by
  rw [pseudoCall, push_of_full h]

/-- Settles O28: the PC that CALL pushes is the one the fetch advanced. -/
theorem callPushesTheReturnAddress : Obligations.CallPushesTheReturnAddress := by
  unfold Obligations.CallPushesTheReturnAddress
  intro s target htarget hc hmem
  rw [exec_call]
  constructor
  · intro hroom
    exact ⟨_, transact_of_completes (pseudoCall_of_room hc hroom), rfl,
      Memory.read_write_same hmem _ _, fun b hb => Memory.read_write_other hb _,
      fun hrun htext => step_of_pc_not_inText hrun htarget htext⟩
  · intro hfull
    exact transact_of_raises (pseudoCall_of_full hfull.le)

theorem pseudoRet_of_top {s : State} (hc : s.cfg.wellFormed = true) (h : s.hasTop) :
    pseudoRet s = .ok { s with pc := s.top, sp := s.sp + 1 } := by
  rw [pseudoRet, pop_of_top hc h]

theorem pseudoRet_of_empty {s : State} (h : s.cfg.stackTop ≤ s.sp) :
    pseudoRet s = .error (.raise .stackUnderflow) := by
  rw [pseudoRet, pop_of_empty h]

/-- Every cell of a state whose words fit reads as a word (R28). -/
theorem State.WordsFit.read_lt {s : State} (h : s.WordsFit) (a : Nat) :
    s.mem.read a < 2 ^ s.cfg.width :=
  Memory.read_lt h.mem (Nat.two_pow_pos _) a

/-- Settles O29: RET is `Pop` into PC. -/
theorem retPopsThePc : Obligations.RetPopsThePc := by
  unfold Obligations.RetPopsThePc
  intro s hc
  rw [exec_ret]
  constructor
  · intro htop
    exact ⟨transact_of_completes (pseudoRet_of_top hc htop),
      fun hrun hfit htext => step_of_pc_not_inText hrun (hfit.read_lt s.sp) htext⟩
  · intro hempty
    exact transact_of_raises (pseudoRet_of_empty hempty)

/-! ## SetSP -/

theorem setSP_of_below {s : State} {z : Int} (h : z < s.cfg.stackBase) :
    setSP z s = .error (.raise .stackOverflow) := by
  rw [setSP, if_pos h]

/-- `STACK_BASE` is not above `STACK_TOP`, so an integer above the stack's range is not below it. -/
theorem setSP_of_above {s : State} {z : Int} (h : (s.cfg.stackTop : Int) < z) :
    setSP z s = .error (.raise .stackUnderflow) := by
  have hbase : s.cfg.stackBase ≤ s.cfg.stackTop := Nat.le_add_right _ _
  rw [setSP, if_neg (by omega), if_pos h]

/-- In range, the SP that `SetSP` leaves is the integer itself: `STACK_TOP` is a word (R62). -/
theorem setSP_exact {s : State} {z : Int} (hc : s.cfg.wellFormed = true)
    (h0 : (s.cfg.stackBase : Int) ≤ z) (h1 : z ≤ s.cfg.stackTop) :
    ∃ p : Nat, setSP z s = .ok { s with sp := p } ∧ (p : Int) = z := by
  have htop : (s.cfg.stackTop : Int) < 2 ^ s.cfg.width := by exact_mod_cast stackTop_lt_two_pow_width hc
  exact ⟨_, setSP_of_range h0 h1, wrap_of_fits (by omega) (by omega)⟩

/-! ## ENT and ADJ -/

theorem pseudoEnt_of_full {s : State} {n : Nat} (h : s.sp ≤ s.cfg.stackBase) :
    pseudoEnt n s = .error (.raise .stackOverflow) := by
  rw [pseudoEnt, push_of_full h]

/-- With room for BP, ENT ends in the SetSP that reserves the local cells (R126). -/
theorem pseudoEnt_of_room {s : State} (hc : s.cfg.wellFormed = true) (h : s.hasRoom) (n : Nat) :
    pseudoEnt n s = setSP (s.sp - 1 - s.signed n)
      { s with sp := s.sp - 1, bp := s.sp - 1, mem := s.mem.write (s.sp - 1) s.bp } := by
  have hsp : ((s.sp - 1 : Nat) : Int) = s.sp - 1 := Nat.cast_pred (Nat.zero_lt_of_lt h.1)
  rw [pseudoEnt, push_of_room hc h, ← hsp]
  rfl

theorem pseudoEnt_of_range {s : State} {n : Nat} (hc : s.cfg.wellFormed = true) (h : s.hasRoom)
    (h0 : (s.cfg.stackBase : Int) ≤ s.sp - 1 - s.signed n)
    (h1 : (s.sp : Int) - 1 - s.signed n ≤ s.cfg.stackTop) :
    ∃ p : Nat, pseudoEnt n s =
        .ok { s with sp := p, bp := s.sp - 1, mem := s.mem.write (s.sp - 1) s.bp } ∧
      (p : Int) = s.sp - 1 - s.signed n := by
  rw [pseudoEnt_of_room hc h]
  exact setSP_exact hc h0 h1

theorem pseudoEnt_of_below {s : State} {n : Nat} (hc : s.cfg.wellFormed = true) (h : s.hasRoom)
    (hz : (s.sp : Int) - 1 - s.signed n < s.cfg.stackBase) :
    pseudoEnt n s = .error (.raise .stackOverflow) :=
  (pseudoEnt_of_room hc h n).trans (setSP_of_below hz)

theorem pseudoEnt_of_above {s : State} {n : Nat} (hc : s.cfg.wellFormed = true) (h : s.hasRoom)
    (hz : (s.cfg.stackTop : Int) < s.sp - 1 - s.signed n) :
    pseudoEnt n s = .error (.raise .stackUnderflow) :=
  (pseudoEnt_of_room hc h n).trans (setSP_of_above hz)

/-- Settles O30: a full stack stops the push; after it, the range of SetSP decides. -/
theorem entBuildsTheFrame : Obligations.EntBuildsTheFrame := by
  unfold Obligations.EntBuildsTheFrame
  intro s n hc hmem
  rw [exec_ent]
  refine ⟨fun hroom hbase htop => ?_, fun hfull => ?_, fun hroom hbelow => ?_, fun hroom habove => ?_⟩
  · obtain ⟨p, hent, hp⟩ := pseudoEnt_of_range (s := { s with pc := s.pcAfter 2 }) hc hroom hbase htop
    exact ⟨_, transact_of_completes hent, rfl, hp,
      Memory.read_write_same hmem _ _, fun b hb => Memory.read_write_other hb _⟩
  · exact transact_of_raises (pseudoEnt_of_full hfull.le)
  · exact transact_of_raises (pseudoEnt_of_below hc hroom hbelow)
  · exact transact_of_raises (pseudoEnt_of_above hc hroom habove)

/-- Settles O31: ADJ is SetSP of the sum, whose range decides. -/
theorem adjMovesTheStackPointer : Obligations.AdjMovesTheStackPointer := by
  unfold Obligations.AdjMovesTheStackPointer
  intro s n hc
  rw [exec_adj]
  refine ⟨fun hbase htop => ?_, fun habove => ?_, fun hbelow => ?_⟩
  · obtain ⟨p, hset, hp⟩ := setSP_exact (s := { s with pc := s.pcAfter 2 }) hc hbase htop
    exact ⟨_, transact_of_completes hset, rfl, hp⟩
  · exact transact_of_raises (setSP_of_above habove)
  · exact transact_of_raises (setSP_of_below hbelow)

/-! ## LEV -/

/-- LEV's first action, for a BP in the stack's range: SP is BP. -/
theorem setSP_bp {s : State} (hc : s.cfg.wellFormed = true) (h0 : s.cfg.stackBase ≤ s.bp)
    (h1 : s.bp ≤ s.cfg.stackTop) : setSP s.bp s = .ok { s with sp := s.bp } := by
  obtain ⟨p, hset, hp⟩ := setSP_exact hc (Int.ofNat_le.2 h0) (Int.ofNat_le.2 h1)
  rwa [Int.ofNat_inj.1 hp] at hset

/-- With a cell at BP, LEV's first pop answers the saved BP (R128). -/
theorem pop_at_bp {s : State} (hc : s.cfg.wellFormed = true) (h0 : s.cfg.stackBase ≤ s.bp)
    (h1 : s.bp < s.cfg.stackTop) :
    pop { s with sp := s.bp } = .ok (s.mem.read s.bp, { s with sp := s.bp + 1 }) :=
  pop_of_top (s := { s with sp := s.bp }) hc ⟨h0, h1⟩

theorem pseudoLev_of_frame {s : State} (hc : s.cfg.wellFormed = true) (h0 : s.cfg.stackBase ≤ s.bp)
    (h2 : s.bp + 2 ≤ s.cfg.stackTop) :
    pseudoLev s = .ok { s with
      sp := s.bp + 2
      bp := s.mem.read s.bp
      pc := s.mem.read (s.bp + 1) } := by
  have hreturn : pop { s with sp := s.bp + 1, bp := s.mem.read s.bp } =
      .ok (s.mem.read (s.bp + 1), { s with sp := s.bp + 2, bp := s.mem.read s.bp }) :=
    pop_of_top (s := { s with sp := s.bp + 1, bp := s.mem.read s.bp }) hc
      ⟨Nat.le_succ_of_le h0, h2⟩
  simp only [pseudoLev, setSP_bp hc h0 (by omega), pop_at_bp hc h0 (by omega), hreturn]

theorem pseudoLev_of_below {s : State} (h : s.bp < s.cfg.stackBase) :
    pseudoLev s = .error (.raise .stackOverflow) := by
  rw [pseudoLev, setSP_of_below (Int.ofNat_lt.2 h)]

/-- With fewer than two cells at BP, LEV underflows at its SetSP, its first pop or its second (R128). -/
theorem pseudoLev_of_short {s : State} (hc : s.cfg.wellFormed = true) (h0 : s.cfg.stackBase ≤ s.bp)
    (h2 : s.cfg.stackTop < s.bp + 2) : pseudoLev s = .error (.raise .stackUnderflow) := by
  rcases lt_trichotomy s.bp s.cfg.stackTop with hone | hnone | habove
  · have hreturn : pop { s with sp := s.bp + 1, bp := s.mem.read s.bp } =
        .error (.raise .stackUnderflow) := pop_of_empty (Nat.lt_succ_iff.1 h2)
    simp only [pseudoLev, setSP_bp hc h0 hone.le, pop_at_bp hc h0 hone, hreturn]
  · have hsaved : pop { s with sp := s.bp } = .error (.raise .stackUnderflow) := pop_of_empty hnone.ge
    simp only [pseudoLev, setSP_bp hc h0 hnone.le, hsaved]
  · rw [pseudoLev, setSP_of_above (Int.ofNat_lt.2 habove)]

/-- Settles O32: how many stack cells BP names decides. -/
theorem levUnwindsTheFrame : Obligations.LevUnwindsTheFrame := by
  unfold Obligations.LevUnwindsTheFrame
  intro s hc
  rw [exec_lev]
  refine ⟨fun hbase htop => ?_, fun hbelow => ?_, fun hbase hshort => ?_⟩
  · exact ⟨_, transact_of_completes (pseudoLev_of_frame hc hbase htop), rfl,
      fun hrun hfit htext => step_of_pc_not_inText hrun (hfit.read_lt (s.bp + 1)) htext⟩
  · exact transact_of_raises (pseudoLev_of_below hbelow)
  · exact transact_of_raises (pseudoLev_of_short hc hbase hshort)

end Sys2Proof.Machine
end

section
/-! The binary operators (R160 to R176): the shared operand rule as an instruction, and for each operator
the number its function leaves, read as its rule states it. -/

namespace Sys2Proof

/-! ## Signed words -/

/-- Only the word 0 reads as 0 (R6). -/
theorem sint_ne_zero {w v : Nat} (h : v < 2 ^ w) (hv : v ≠ 0) : sint w v ≠ 0 := by
  intro hzero
  have hwrap := wrap_sint h
  rw [hzero] at hwrap
  exact hv (hwrap.symm.trans (wrap_nat (Nat.two_pow_pos w)))

/-- `-MIN` is no signed word; wrapped, it is MIN again. -/
theorem sint_wrap_half {w : Nat} (hw : 0 < w) : sint w (wrap w (2 ^ (w - 1))) = -2 ^ (w - 1) := by
  have hhalf := two_pow_half hw
  have hpos := Nat.two_pow_pos (w - 1)
  have hwrap : wrap w (2 ^ (w - 1)) = 2 ^ (w - 1) := mod_cast wrap_nat (n := 2 ^ (w - 1)) (by omega)
  rw [hwrap, sint, if_neg (lt_irrefl _)]
  zify at hhalf ⊢
  omega

/-- Rounding down the division by a positive integer stays in a signed range. -/
theorem ediv_range {a m d : Int} (hd : 0 < d) (h0 : -m ≤ a) (h1 : a < m) : -m ≤ a / d ∧ a / d < m := by
  constructor
  · exact (Int.le_ediv_iff_mul_le hd).2 (by nlinarith)
  · exact Int.ediv_lt_of_lt_mul hd (by nlinarith)

/-- The truncated quotient leaves a signed range only for its least element and -1. -/
theorem tdiv_range {a b m : Int} (h0 : -m ≤ a) (h1 : a < m) (hcorner : ¬(a = -m ∧ b = -1)) :
    -m ≤ a.tdiv b ∧ a.tdiv b < m := by
  rcases Nat.lt_or_ge b.natAbs 2 with hsmall | hlarge
  · obtain rfl | rfl | rfl : b = 0 ∨ b = 1 ∨ b = -1 := by omega
    · rw [Int.tdiv_zero]; omega
    · rw [Int.tdiv_one]; omega
    · rw [Int.tdiv_neg, Int.tdiv_one]; omega
  · have hquot : (a.tdiv b).natAbs ≤ a.natAbs / 2 :=
      Int.natAbs_tdiv a b ▸ Nat.div_le_div_left hlarge (by decide)
    omega

/-- The remainder of a truncated division is smaller in magnitude than the divisor. -/
theorem tmod_range {a b m : Int} (hb : b ≠ 0) (h0 : -m ≤ b) (h1 : b < m) :
    -m ≤ a.tmod b ∧ a.tmod b < m := by
  have hlt : (a.tmod b).natAbs < b.natAbs :=
    Int.natAbs_tmod a b ▸ Nat.mod_lt _ (Int.natAbs_pos.2 hb)
  omega

end Sys2Proof

namespace Sys2Proof.Machine

/-! ## The operand rule as an instruction -/

/-- A binary operator with a stack top, when its function answers (R9, R160). -/
theorem transact_binaryOp_of_top {f : Nat → Nat → Nat → Except Stop Nat} {s : State} {v : Nat}
    (hc : s.cfg.wellFormed = true) (h : s.hasTop) (hf : f s.cfg.width s.top s.ax = .ok v) :
    transact 1 (binaryOp f) s = .next { s with pc := s.pcAfter 1, sp := s.sp + 1, ax := v } :=
  transact_of_completes (binaryOp_of_top (s := { s with pc := s.pcAfter 1 }) hc h hf)

/-- A binary operator that cannot fault, with a stack top. -/
theorem transact_pureBinaryOp_of_top {f : Nat → Nat → Nat → Nat} {s : State} {v : Nat}
    (hc : s.cfg.wellFormed = true) (h : s.hasTop) (hf : f s.cfg.width s.top s.ax = v) :
    transact 1 (binaryOp fun w l r => .ok (f w l r)) s =
      .next { s with pc := s.pcAfter 1, sp := s.sp + 1, ax := v } :=
  transact_binaryOp_of_top hc h (congrArg Except.ok hf)

/-- A binary operator with a stack top, when its function raises: nothing is popped (R160, R221). -/
theorem transact_binaryOp_of_raise {f : Nat → Nat → Nat → Except Stop Nat} {s : State} {e : FaultCause}
    (hc : s.cfg.wellFormed = true) (h : s.hasTop)
    (hf : f s.cfg.width s.top s.ax = .error (.raise e)) :
    transact 1 (binaryOp f) s = .next (s.faultedWith e.code e.addr e.seg e.kind) := by
  have hpop := pop_of_top (s := { s with pc := s.pcAfter 1 }) hc h
  have hf' : f s.cfg.width ({ s with pc := s.pcAfter 1 } : State).top s.ax = .error (.raise e) := hf
  exact transact_of_raises (by simp only [binaryOp, hpop, hf'])

/-- Every binary operator on an empty stack (R160). -/
theorem transact_binaryOp_of_empty {f : Nat → Nat → Nat → Except Stop Nat} {s : State}
    (h : s.cfg.stackTop ≤ s.sp) :
    transact 1 (binaryOp f) s = .next (s.faultedWith .stackUnderflow 0 none .none) :=
  transact_of_raises (e := .stackUnderflow)
    (by rw [binaryOp, pop_of_empty (s := { s with pc := s.pcAfter 1 }) h])

/-! ## Bitwise operators -/

/-- Settles O34: the functions of R161 to R163 under the operand rule. -/
theorem bitwiseOperators : Obligations.BitwiseOperators := by
  unfold Obligations.BitwiseOperators
  intro s hc
  rw [exec_or, exec_xor, exec_and]
  constructor
  · intro htop
    exact ⟨transact_pureBinaryOp_of_top hc htop rfl, transact_pureBinaryOp_of_top hc htop rfl,
      transact_pureBinaryOp_of_top hc htop rfl⟩
  · intro hempty
    exact ⟨transact_binaryOp_of_empty hempty, transact_binaryOp_of_empty hempty,
      transact_binaryOp_of_empty hempty⟩

/-! ## Comparisons -/

/-- The word of a test is 1 or 0 (R164 to R169). -/
theorem boolWord_decide (p : Prop) [Decidable p] : boolWord (decide p) = if p then 1 else 0 := by
  simp only [boolWord, decide_eq_true_eq]

/-- The word of a test that holds exactly when `p` does not. -/
theorem boolWord_decide_of_iff_not {p q : Prop} [Decidable p] [Decidable q] (h : q ↔ ¬p) :
    boolWord (decide q) = if p then 0 else 1 := by
  rw [boolWord_decide, if_congr h rfl rfl, ite_not]

/-- Settles O35: each comparison is the word of its test, NE, LE and GE that of the negated test. -/
theorem comparisonsLeaveOneOrZero : Obligations.ComparisonsLeaveOneOrZero := by
  unfold Obligations.ComparisonsLeaveOneOrZero
  intro s hc
  rw [exec_eq, exec_ne, exec_lt, exec_le, exec_gt, exec_ge]
  constructor
  · intro htop
    refine ⟨?eq, ?ne, ?lt, ?le, ?gt, ?ge⟩ <;> refine transact_pureBinaryOp_of_top hc htop ?_
    case eq => exact boolWord_decide _
    case ne => exact boolWord_decide_of_iff_not Iff.rfl
    case lt => exact boolWord_decide _
    case le => exact boolWord_decide_of_iff_not not_lt.symm
    case gt => exact boolWord_decide _
    case ge => exact boolWord_decide_of_iff_not not_lt.symm
  · intro hempty
    exact ⟨transact_binaryOp_of_empty hempty, transact_binaryOp_of_empty hempty,
      transact_binaryOp_of_empty hempty, transact_binaryOp_of_empty hempty,
      transact_binaryOp_of_empty hempty, transact_binaryOp_of_empty hempty⟩

/-! ## Shifts -/

/-- `W` is a power of two (R5). -/
theorem width_eq_two_pow {c : Config} (hc : c.wellFormed = true) : c.width = 2 ^ Nat.log2 c.width := by
  simp only [Config.wellFormed, isPowerOfTwo, Bool.and_eq_true, decide_eq_true_eq] at hc
  obtain ⟨⟨⟨⟨⟨⟨⟨⟨⟨⟨⟨-, hpow⟩, -⟩, -⟩, -⟩, -⟩, -⟩, -⟩, -⟩, -⟩, -⟩, -⟩ := hc
  exact hpow

/-- The low `log2(W)` bits of the count are its remainder by `W`. -/
theorem shiftCount_eq_mod {c : Config} (hc : c.wellFormed = true) (r : Nat) :
    shiftCount c.width r = r % c.width := by
  rw [shiftCount, ← width_eq_two_pow hc]

theorem aluShl_eq {c : Config} (hc : c.wellFormed = true) (l r : Nat) :
    aluShl c.width l r = l * 2 ^ (r % c.width) % 2 ^ c.width := by
  rw [aluShl, shiftCount_eq_mod hc, ← wrap_natCast]
  push_cast
  rfl

/-- Shifting right keeps the signed range, so `wrap` keeps the rounded quotient (R171). -/
theorem sint_aluShr {c : Config} (hc : c.wellFormed = true) {l : Nat} (hl : l < 2 ^ c.width) (r : Nat) :
    sint c.width (aluShr c.width l r) = sint c.width l / 2 ^ (r % c.width) := by
  obtain ⟨hwidth, -⟩ := Config.bounds hc
  have hpos := two_pow_pos_int (r % c.width)
  obtain ⟨hmin, hmax⟩ := sint_range (by omega) hl
  obtain ⟨hlow, hhigh⟩ := ediv_range hpos hmin hmax
  rw [aluShr, shiftCount_eq_mod hc, Int.fdiv_eq_ediv_of_nonneg _ hpos.le, sint_wrap (by omega) hlow hhigh]

/-- Settles O36: the two shifts by the count modulo `W`. -/
theorem shiftsMaskTheCount : Obligations.ShiftsMaskTheCount := by
  unfold Obligations.ShiftsMaskTheCount
  intro s hc
  rw [exec_shl, exec_shr]
  constructor
  · intro htop hfit
    exact ⟨transact_pureBinaryOp_of_top hc htop (aluShl_eq hc _ _),
      _, transact_pureBinaryOp_of_top hc htop rfl, rfl, wrap_lt _ _, sint_aluShr hc (hfit.read_lt _) _⟩
  · intro hempty
    exact ⟨transact_binaryOp_of_empty hempty, transact_binaryOp_of_empty hempty⟩

/-! ## Sum, difference and product -/

/-- Signed and unsigned operands have the same low half of the product (R174). -/
theorem aluMul_eq (w l r : Nat) : aluMul w l r = l * r % 2 ^ w := by
  zify
  rw [aluMul, wrap_cast, Int.mul_emod, sint_emod, sint_emod, ← Int.mul_emod]

/-- Settles O37: the exact sum, difference and product, wrapped. -/
theorem addSubMulWrap : Obligations.AddSubMulWrap := by
  unfold Obligations.AddSubMulWrap
  intro s hc
  rw [exec_add, exec_sub, exec_mul]
  constructor
  · intro htop
    exact ⟨transact_pureBinaryOp_of_top hc htop (wrap_add_nat _ _ _),
      ⟨_, transact_pureBinaryOp_of_top hc htop rfl, rfl, wrap_cast _ _⟩,
      ⟨_, transact_pureBinaryOp_of_top hc htop rfl, rfl, wrap_cast _ _, aluMul_eq _ _ _⟩⟩
  · intro hempty
    exact ⟨transact_binaryOp_of_empty hempty, transact_binaryOp_of_empty hempty,
      transact_binaryOp_of_empty hempty⟩

/-! ## Quotient and remainder -/

theorem aluDiv_of_ne {w l r : Nat} (h : r ≠ 0) :
    aluDiv w l r = .ok (wrap w (Int.tdiv (sint w l) (sint w r))) := if_neg h

theorem aluDiv_of_zero {w l r : Nat} (h : r = 0) : aluDiv w l r = .error (.raise .divideByZero) := if_pos h

theorem aluMod_of_ne {w l r : Nat} (h : r ≠ 0) :
    aluMod w l r = .ok (wrap w (sint w l - Int.tdiv (sint w l) (sint w r) * sint w r)) := if_neg h

theorem aluMod_of_zero {w l r : Nat} (h : r = 0) : aluMod w l r = .error (.raise .divideByZero) := if_pos h

/-- The signed quotient as a word: `MIN / -1` wraps to MIN, every other quotient fits (R175). -/
theorem sint_wrap_tdiv {w l : Nat} (hw : 0 < w) (hl : l < 2 ^ w) (r : Nat) :
    sint w (wrap w (Int.tdiv (sint w l) (sint w r))) =
      if sint w l = -2 ^ (w - 1) ∧ sint w r = -1 then -2 ^ (w - 1)
      else Int.tdiv (sint w l) (sint w r) := by
  obtain ⟨hmin, hmax⟩ := sint_range hw hl
  split_ifs with hcorner
  · obtain ⟨hleft, hright⟩ := hcorner
    rw [hleft, hright, Int.tdiv_neg, Int.tdiv_one, neg_neg, sint_wrap_half hw]
  · obtain ⟨hlow, hhigh⟩ := tdiv_range hmin hmax hcorner
    exact sint_wrap hw hlow hhigh

/-- The remainder by a word that is not 0 always fits (R176). -/
theorem sint_wrap_remainder {w r : Nat} (hw : 0 < w) (hr : r < 2 ^ w) (hzero : r ≠ 0) (l : Nat) :
    sint w (wrap w (sint w l - Int.tdiv (sint w l) (sint w r) * sint w r)) =
      sint w l - Int.tdiv (sint w l) (sint w r) * sint w r := by
  obtain ⟨hmin, hmax⟩ := sint_range hw hr
  obtain ⟨hlow, hhigh⟩ := tmod_range (a := sint w l) (sint_ne_zero hr hzero) hmin hmax
  rw [Int.tmod_def, mul_comm] at hlow hhigh
  exact sint_wrap hw hlow hhigh

/-- Settles O38: the empty stack is checked before the divisor, and the quotient's one overflow is
`sint_wrap_tdiv`'s first case. -/
theorem divAndModTruncate : Obligations.DivAndModTruncate := by
  unfold Obligations.DivAndModTruncate
  intro s hc
  obtain ⟨hwidth, -⟩ := Config.bounds hc
  have hpos : 0 < s.cfg.width := by omega
  rw [exec_div, exec_mod]
  refine ⟨fun htop hfit hax => ⟨?div, ?mod⟩, fun htop hax => ⟨?_, ?_⟩, fun hempty => ⟨?_, ?_⟩⟩
  case div => exact ⟨_, transact_binaryOp_of_top hc htop (aluDiv_of_ne hax), rfl, wrap_lt _ _,
      sint_wrap_tdiv hpos (hfit.read_lt _) _⟩
  case mod => exact ⟨_, transact_binaryOp_of_top hc htop (aluMod_of_ne hax), rfl, wrap_lt _ _,
      sint_wrap_remainder hpos hfit.ax hax _⟩
  · exact transact_binaryOp_of_raise hc htop (aluDiv_of_zero hax)
  · exact transact_binaryOp_of_raise hc htop (aluMod_of_zero hax)
  · exact transact_binaryOp_of_empty hempty
  · exact transact_binaryOp_of_empty hempty

end Sys2Proof.Machine
end

section
/-! EXIT and the run (R200 to R202, R237): what EXIT leaves, that a run which is RUNNING after `k` steps
was RUNNING all along, and `run` as the steps from the state its loads and start lead to. -/

namespace Sys2Proof.Machine

/-! ## EXIT -/

theorem pseudoExit_of_top {s : State} (h : s.hasTop) :
    pseudoExit s = .ok { s with exitStatus := s.top, runState := .halted } := by
  have hcell : cellExists s.cfg s.sp = true := cellExists_of_inStack (inStack_iff.2 h)
  obtain ⟨-, htop⟩ := h
  rw [pseudoExit, if_neg (not_le.2 htop), readCell_of_exists hcell]
  rfl

theorem pseudoExit_of_empty {s : State} (h : s.cfg.stackTop ≤ s.sp) :
    pseudoExit s = .error (.raise .stackUnderflow) := if_pos h

/-- The state after an EXIT that found a stack top (R200). -/
def State.afterExit (s : State) : State :=
  { s with pc := s.pcAfter 1, exitStatus := s.top, runState := .halted }

theorem exec_exit_of_top {s : State} (h : s.hasTop) : exec .exit s = .next s.afterExit := by
  rw [exec_exit]
  exact transact_of_completes (pseudoExit_of_top (s := { s with pc := s.pcAfter 1 }) h)

/-- Settles O41: with a stack top EXIT's pseudocode completes, on an empty stack it raises. -/
theorem exitReportsTheStackTop : Obligations.ExitReportsTheStackTop := by
  unfold Obligations.ExitReportsTheStackTop
  intro s
  constructor
  · exact exec_exit_of_top
  · intro hempty
    rw [exec_exit]
    exact transact_of_raises (pseudoExit_of_empty (s := { s with pc := s.pcAfter 1 }) hempty)

/-! ## Steps of a run -/

/-- The first of `k + 1` steps that are answered is answered (R235). -/
theorem core_run_succ_next {k : Nat} {s u : State}
    (h : Host.Core.run Sys2Proof.core (k + 1) s = .next u) :
    ∃ t, step s = .next t ∧ Host.Core.run Sys2Proof.core k t = .next u := by
  cases hstep : step s with
  | next t => exact ⟨t, rfl, (core_run_succ k hstep).symm.trans h⟩
  | fault f => simp only [Host.Core.run, core, hstep, reduceCtorEq] at h
  | refused r => simp only [Host.Core.run, core, hstep, reduceCtorEq] at h

/-- Outside RUNNING no number of steps changes anything (R236). -/
theorem core_run_stopped {s : State} (h : s.runState ≠ .running) (k : Nat) :
    Host.Core.run Sys2Proof.core k s = .next s := by
  induction k with
  | zero => exact core_run_zero s
  | succ k ih => rw [core_run_succ k (step_stopped h), ih]

/-- Only a RUNNING state leads to a RUNNING state: the others are absorbing (R201, R236). -/
theorem running_of_core_run {k : Nat} {s u : State}
    (h : Host.Core.run Sys2Proof.core k s = .next u) (hu : u.runState = .running) :
    s.runState = .running := by
  by_contra hs
  rw [core_run_stopped hs] at h
  cases h
  exact hs hu

/-! ## `runSteps` by the report of its first step -/

theorem stepReport_of_idle {s : State} (h : s.runState = .idle) : stepReport s = .notStarted := by
  rw [stepReport, h]

theorem stepReport_of_running {s : State} (h : s.runState = .running) : stepReport s = .continues := by
  rw [stepReport, h]

theorem stepReport_of_halted {s : State} (h : s.runState = .halted) :
    stepReport s = .exited s.exitStatus := by
  rw [stepReport, h]

theorem runSteps_succ_of_running {s t : State} (hstep : step s = .next t) (ht : t.runState = .running)
    (fuel : Nat) : runSteps (fuel + 1) s = runSteps fuel t := by
  simp only [runSteps, hstep, stepReport_of_running ht]

theorem runSteps_succ_of_halted {s t : State} (hstep : step s = .next t) (ht : t.runState = .halted)
    (fuel : Nat) : runSteps (fuel + 1) s = .next (.exited t.exitStatus, t) := by
  simp only [runSteps, hstep, stepReport_of_halted ht]

/-- Steps that lead to a RUNNING state all report Continue, so `runSteps` goes on from there. -/
theorem runSteps_of_core_run {k : Nat} {s u : State}
    (h : Host.Core.run Sys2Proof.core k s = .next u) (hu : u.runState = .running) (fuel : Nat) :
    runSteps (fuel + k) s = runSteps fuel u := by
  induction k generalizing s with
  | zero =>
    rw [core_run_zero] at h
    cases h
    rfl
  | succ k ih =>
    obtain ⟨t, hstep, hrest⟩ := core_run_succ_next h
    calc runSteps (fuel + k + 1) s
      _ = runSteps (fuel + k) t := runSteps_succ_of_running hstep (running_of_core_run hrest hu) _
      _ = runSteps fuel u := ih hrest

/-- A RUNNING block that fetches EXIT with a stack top ends the run with that top (R200, R237). -/
theorem runSteps_of_exit {u : State} (hu : u.runState = .running) (hexit : fetchDecode u = .ok .exit)
    (htop : u.hasTop) (fuel : Nat) :
    runSteps (fuel + 1) u = .next (.exited u.top, u.afterExit) := by
  have hstep : step u = .next u.afterExit := by
    rw [step_running hu, hexit]
    exact exec_exit_of_top htop
  exact runSteps_succ_of_halted hstep rfl fuel

/-- A run that is at EXIT with a stack top after `k` steps ends with that top, given fuel for one more. -/
theorem runSteps_of_reaches_exit {s u : State} {k fuel : Nat}
    (hrun : Host.Core.run Sys2Proof.core k s = .next u) (hu : u.runState = .running)
    (hexit : fetchDecode u = .ok .exit) (htop : u.hasTop) (hfuel : k < fuel) :
    runSteps fuel s = .next (.exited u.top, u.afterExit) := by
  obtain ⟨rest, rfl⟩ := Nat.exists_eq_add_of_lt hfuel
  rw [show k + rest + 1 = rest + 1 + k by omega, runSteps_of_core_run hrun hu,
    runSteps_of_exit hu hexit htop]

/-! ## `run` -/

/-- Images are loaded in IDLE only (R254). -/
theorem idle_of_loadSegment {g : Segment} {base len : Nat} {image : List Nat} {s t : State}
    (h : loadSegment g base len image s = .next t) : s.runState = .idle := by
  unfold loadSegment at h
  cases hs : s.runState with
  | idle => rfl
  | running | halted | faulted => simp only [hs, reduceCtorEq] at h

/-- A run is started in IDLE only (R254). -/
theorem idle_of_start {entry : Option Nat} {frame : LaunchFrame} {s t : State}
    (h : start entry frame s = .next t) : s.runState = .idle := by
  unfold start at h
  cases hs : s.runState with
  | idle => rfl
  | running | halted | faulted => simp only [hs, reduceCtorEq] at h

/-- `run` whose loads and start are answered is the steps from the started state (R237). -/
theorem run_eq_runSteps {s s₁ s₂ s₃ : State} {program data : List Nat} {entry : Option Nat}
    {frame : LaunchFrame} (htext : loadText program (hostReset s) = .next s₁)
    (hdata : loadData data s₁ = .next s₂) (hstart : start entry frame s₂ = .next s₃) (fuel : Nat) :
    run fuel program data entry frame s = runSteps fuel s₃ := by
  have hreport₁ := stepReport_of_idle (idle_of_loadSegment hdata)
  have hreport₂ := stepReport_of_idle (idle_of_start hstart)
  simp only [run, htext, hreport₁, hdata, hreport₂, startAndRun, hstart]

/-- Settles O42: both clauses are `runSteps_of_reaches_exit`, the second from the state `run` starts. -/
theorem runThatReachesExitReturnsTheStackTop : Obligations.RunThatReachesExitReturnsTheStackTop := by
  unfold Obligations.RunThatReachesExitReturnsTheStackTop
  constructor
  · intro s u k fuel _ hrun hu hexit htop hfuel
    exact ⟨_, runSteps_of_reaches_exit hrun hu hexit htop hfuel, rfl⟩
  · intro s s₁ s₂ s₃ u program data entry frame k fuel htext hdata hstart hrun hu hexit htop hfuel
    rw [run_eq_runSteps htext hdata hstart]
    exact ⟨_, runSteps_of_reaches_exit hrun hu hexit htop hfuel, rfl⟩

end Sys2Proof.Machine
end

section
/-! Stopped blocks and faults (R201, R221, R236): what a block that is not RUNNING reports, that no
instruction but EXIT changes RUN_STATE without a fault, and a step that ends FAULTED as fault entry from
the state before its fetch. -/

namespace Sys2Proof.Machine

/-! ## Stopped blocks -/

theorem stepReport_of_faulted {s : State} (h : s.runState = .faulted) :
    stepReport s = .error s.fault := by
  rw [stepReport, h]

/-- Settles O17: outside RUNNING steps change nothing, and the report reads RUN_STATE. -/
theorem stoppedBlocksStayAsTheyAre : Obligations.StoppedBlocksStayAsTheyAre := by
  unfold Obligations.StoppedBlocksStayAsTheyAre
  intro s k hstopped
  exact ⟨core_run_stopped hstopped k, stepReport_of_idle, stepReport_of_halted, stepReport_of_faulted⟩

/-! ## What completes without touching the status -/

/-- `t` has the parameters, RUN_STATE, fault record and EXIT_STATUS of `s`: the fields of the state
beside the registers and memory. -/
structure State.SameStatus (s t : State) : Prop where
  cfg : t.cfg = s.cfg
  runState : t.runState = s.runState
  fault : t.fault = s.fault
  exitStatus : t.exitStatus = s.exitStatus

theorem State.SameStatus.trans {s t u : State} (h₁ : s.SameStatus t) (h₂ : t.SameStatus u) :
    s.SameStatus u :=
  ⟨h₂.cfg.trans h₁.cfg, h₂.runState.trans h₁.runState, h₂.fault.trans h₁.fault,
    h₂.exitStatus.trans h₁.exitStatus⟩

theorem sameStatus_advance (n : Nat) (s : State) : s.SameStatus (advance n s) := ⟨rfl, rfl, rfl, rfl⟩

theorem sameStatus_of_push {v : Nat} {s t : State} (h : push v s = .ok t) : s.SameStatus t := by
  rcases push_cases v s with ⟨-, hpush⟩ | ⟨-, -, hpush⟩ | ⟨-, -, hpush⟩ <;> rw [hpush] at h <;> cases h
  exact ⟨rfl, rfl, rfl, rfl⟩

theorem sameStatus_of_pop {v : Nat} {s t : State} (h : pop s = .ok (v, t)) : s.SameStatus t := by
  rcases pop_cases s with ⟨-, hpop⟩ | ⟨-, -, hpop⟩ | ⟨-, -, hpop⟩ <;> rw [hpop] at h <;> cases h
  exact ⟨rfl, rfl, rfl, rfl⟩

theorem sameStatus_of_setSP {z : Int} {s t : State} (h : setSP z s = .ok t) : s.SameStatus t := by
  rcases setSP_cases z s with ⟨-, hset⟩ | ⟨-, -, hset⟩ | ⟨-, -, hset⟩ <;> rw [hset] at h <;> cases h
  exact ⟨rfl, rfl, rfl, rfl⟩

theorem sameStatus_of_memWrite {w v : Nat} {s t : State} (h : memWrite w v s = .ok t) :
    s.SameStatus t := by
  rw [memWrite_eq] at h
  split_ifs at h
  cases h
  exact ⟨rfl, rfl, rfl, rfl⟩

/-- A pseudocode that, when it completes, has changed registers and memory only. -/
def KeepsStatus (body : State → Except Stop State) : Prop :=
  ∀ {s t : State}, body s = .ok t → s.SameStatus t

theorem keepsStatus_imm (v : Nat) : KeepsStatus (pseudoImm v) := by
  rintro s t ⟨⟩
  exact ⟨rfl, rfl, rfl, rfl⟩

theorem keepsStatus_lea (n : Nat) : KeepsStatus (pseudoLea n) := by
  rintro s t ⟨⟩
  exact ⟨rfl, rfl, rfl, rfl⟩

theorem keepsStatus_jmp (target : Nat) : KeepsStatus (pseudoJmp target) := by
  rintro s t ⟨⟩
  exact ⟨rfl, rfl, rfl, rfl⟩

theorem keepsStatus_jz (target : Nat) : KeepsStatus (pseudoJz target) := by
  intro s t h
  rw [pseudoJz_eq] at h
  cases h
  split_ifs <;> exact ⟨rfl, rfl, rfl, rfl⟩

theorem keepsStatus_jnz (target : Nat) : KeepsStatus (pseudoJnz target) := by
  intro s t h
  rw [pseudoJnz_eq] at h
  cases h
  split_ifs <;> exact ⟨rfl, rfl, rfl, rfl⟩

theorem keepsStatus_lc : KeepsStatus pseudoLc := by
  intro s t h
  unfold pseudoLc at h
  split at h <;> cases h
  exact ⟨rfl, rfl, rfl, rfl⟩

theorem keepsStatus_li : KeepsStatus pseudoLi := by
  intro s t h
  unfold pseudoLi at h
  split at h <;> cases h
  exact ⟨rfl, rfl, rfl, rfl⟩

theorem keepsStatus_si : KeepsStatus pseudoSi := by
  intro s t h
  unfold pseudoSi at h
  split at h
  · cases h
  · next hpop => exact (sameStatus_of_pop hpop).trans (sameStatus_of_memWrite h)

theorem keepsStatus_sc : KeepsStatus pseudoSc := by
  intro s t h
  unfold pseudoSc at h
  split at h
  · cases h
  · next hpop =>
    split at h <;> cases h
    next hwrite =>
      exact ((sameStatus_of_pop hpop).trans (sameStatus_of_memWrite hwrite)).trans ⟨rfl, rfl, rfl, rfl⟩

theorem keepsStatus_push : KeepsStatus pseudoPush := sameStatus_of_push

theorem keepsStatus_call (target : Nat) : KeepsStatus (pseudoCall target) := by
  intro s t h
  unfold pseudoCall at h
  split at h <;> cases h
  next hpush => exact (sameStatus_of_push hpush).trans ⟨rfl, rfl, rfl, rfl⟩

theorem keepsStatus_ret : KeepsStatus pseudoRet := by
  intro s t h
  unfold pseudoRet at h
  split at h <;> cases h
  next hpop => exact (sameStatus_of_pop hpop).trans ⟨rfl, rfl, rfl, rfl⟩

theorem keepsStatus_ent (n : Nat) : KeepsStatus (pseudoEnt n) := by
  intro s t h
  unfold pseudoEnt at h
  split at h
  · cases h
  · next u hpush =>
    have hframe : u.SameStatus { u with bp := u.sp } := ⟨rfl, rfl, rfl, rfl⟩
    exact ((sameStatus_of_push hpush).trans hframe).trans (sameStatus_of_setSP h)

theorem keepsStatus_adj (n : Nat) : KeepsStatus (pseudoAdj n) := sameStatus_of_setSP

theorem keepsStatus_lev : KeepsStatus pseudoLev := by
  intro s t h
  unfold pseudoLev at h
  split at h
  · cases h
  next hset =>
    split at h
    · cases h
    next savedBp u hpopBp =>
      split at h <;> cases h
      next hpopPc =>
        have hframe : u.SameStatus { u with bp := savedBp } := ⟨rfl, rfl, rfl, rfl⟩
        have hpops := ((sameStatus_of_pop hpopBp).trans hframe).trans (sameStatus_of_pop hpopPc)
        exact ((sameStatus_of_setSP hset).trans hpops).trans ⟨rfl, rfl, rfl, rfl⟩

theorem keepsStatus_binaryOp (f : Nat → Nat → Nat → Except Stop Nat) : KeepsStatus (binaryOp f) := by
  intro s t h
  obtain ⟨-, v, -, rfl⟩ := binaryOp_ok h
  exact ⟨rfl, rfl, rfl, rfl⟩

/-! ## What an execution leaves of the status -/

/-- A transaction of such a pseudocode keeps the status, or is the fault entry of a raised cause (R9). -/
theorem transact_next_status {n : Nat} {body : State → Except Stop State} {s t : State}
    (hbody : KeepsStatus body) (h : transact n body s = .next t) :
    s.SameStatus t ∨ ∃ e, t = enterFault (opcodeCell s) e s := by
  rcases transact_next h with hok | ⟨e, -, rfl⟩
  · exact .inl ((sameStatus_advance n s).trans (hbody hok))
  · exact .inr ⟨e, rfl⟩

/-- EXIT ends the run, or is the fault entry of a raised cause (R200). -/
theorem exec_exit_next {s t : State} (h : exec .exit s = .next t) :
    t = s.afterExit ∨ ∃ e, t = enterFault (opcodeCell s) e s := by
  rcases transact_next h with hok | ⟨e, -, rfl⟩
  · left
    unfold pseudoExit at hok
    split_ifs at hok
    split at hok <;> cases hok
    next hread =>
      obtain ⟨-, hv⟩ | ⟨-, hv⟩ := readCell_cases hread <;> cases hv
      rw [advance_eq]
      rfl
  · exact .inr ⟨e, rfl⟩

/-- All an execution can do to the status: keep it, end the run by EXIT, or enter a fault from the state
before the fetch (R200, R221). -/
theorem exec_next_status {i : Instr} {s t : State} (h : exec i s = .next t) :
    s.SameStatus t ∨ (i = .exit ∧ t = s.afterExit) ∨ ∃ e, t = enterFault (opcodeCell s) e s := by
  by_cases hexit : i = .exit
  · subst hexit
    exact .inr ((exec_exit_next h).imp_left fun ht => ⟨rfl, ht⟩)
  refine Or.imp_right .inr ?_
  cases i with
  | lea n => exact transact_next_status (keepsStatus_lea n) h
  | imm v => exact transact_next_status (keepsStatus_imm v) h
  | jmp target => exact transact_next_status (keepsStatus_jmp target) h
  | call target => exact transact_next_status (keepsStatus_call target) h
  | jz target => exact transact_next_status (keepsStatus_jz target) h
  | jnz target => exact transact_next_status (keepsStatus_jnz target) h
  | ent n => exact transact_next_status (keepsStatus_ent n) h
  | adj n => exact transact_next_status (keepsStatus_adj n) h
  | lev => exact transact_next_status keepsStatus_lev h
  | li => exact transact_next_status keepsStatus_li h
  | lc => exact transact_next_status keepsStatus_lc h
  | si => exact transact_next_status keepsStatus_si h
  | sc => exact transact_next_status keepsStatus_sc h
  | push => exact transact_next_status keepsStatus_push h
  | ret => exact transact_next_status keepsStatus_ret h
  | exit => exact absurd rfl hexit
  | or | xor | and | eq | ne | lt | gt | le | ge | shl | shr | add | sub | mul | div | mod =>
    exact transact_next_status (keepsStatus_binaryOp _) h

/-! ## Precise faults -/

/-- A RUNNING block that fetched an instruction steps as that instruction executes (R235). -/
theorem step_of_fetchDecode_ok {s : State} {i : Instr} (hrun : s.runState = .running)
    (h : fetchDecode s = .ok i) : step s = exec i s := by
  rw [step_running hrun, h]

/-- A RUNNING step that ends FAULTED is the fault entry of some cause, from the state before the fetch:
a fetch that raises is one, and an execution from RUNNING is FAULTED in no other way (R221). -/
theorem eq_enterFault_of_step_faulted {s t : State} (hrun : s.runState = .running)
    (hstep : step s = .next t) (hfaulted : t.runState = .faulted) :
    ∃ e, t = enterFault (if inText s.cfg s.pc then s.mem.read s.pc else 0) e s := by
  cases hfetch : fetchDecode s with
  | error u =>
    rw [step_of_fetchDecode_error hrun hfetch] at hstep
    cases hstep
    exact fetchDecode_error hfetch
  | ok i =>
    rw [step_of_fetchDecode_ok hrun hfetch] at hstep
    rcases exec_next_status hstep with hsame | ⟨-, rfl⟩ | ⟨e, rfl⟩
    · rw [hsame.runState, hrun] at hfaulted
      cases hfaulted
    · cases hfaulted
    · exact ⟨e, by rw [if_pos (fetchDecode_ok hfetch)]; rfl⟩

/-- The record fields of a cause agree with its code (R30, R221). -/
theorem FaultCause.fields_agree (e : FaultCause) :
    e.code ≠ .none ∧ (e.code ≠ .outOfBounds → e.addr = 0 ∧ e.seg = none) ∧
      (e.code = .arithmeticError → e.kind = .divideByZero) ∧
      (e.code ≠ .arithmeticError → e.kind = .none) := by
  cases e <;> simp [FaultCause.code, FaultCause.addr, FaultCause.seg, FaultCause.kind]

/-- Settles O18: such a step is a fault entry, whose record is that of its cause. -/
theorem faultsArePrecise : Obligations.FaultsArePrecise := by
  unfold Obligations.FaultsArePrecise
  intro s t hrun hstep hfaulted
  obtain ⟨e, rfl⟩ := eq_enterFault_of_step_faulted hrun hstep hfaulted
  exact ⟨e, rfl, e.fields_agree⟩

end Sys2Proof.Machine
end

section
/-! Loading and starting (R251, R252): an image that fits and one that does not, `run` on a refused image,
and the entry and the pushes of a start. -/

namespace Sys2Proof.Machine

/-! ## Rows of cells -/

theorem Memory.read_writeList_getElem {m : Memory} (hm : m.wf) {vs : List Nat} {k : Nat}
    (hk : k < vs.length) (a : Nat) : (m.writeList a vs).read (a + k) = vs[k] := by
  have hin : a ≤ a + k ∧ k < vs.length := ⟨Nat.le_add_right a k, hk⟩
  simp only [Memory.read_writeList vs hm, Nat.add_sub_cancel_left, dif_pos hin]

theorem Memory.read_writeList_outside {m : Memory} (hm : m.wf) {vs : List Nat} {a b : Nat}
    (hb : b < a ∨ a + vs.length ≤ b) : (m.writeList a vs).read b = m.read b := by
  rw [Memory.read_writeList vs hm, dif_neg (by omega)]

/-- An image of words is taken as it is (log entry 22). -/
theorem map_wrap_of_words {w : Nat} {image : List Nat} (h : ∀ v ∈ image, v < 2 ^ w) :
    (image.map fun v : Nat => wrap w v) = image := by
  rw [List.map_congr_left fun v hv => wrap_nat (h v hv), List.map_id']

/-! ## Load -/

/-- The state after an image that fits is loaded from cell `base` (R251). -/
def State.withImage (s : State) (base : Nat) (image : List Nat) : State :=
  { s with mem := s.mem.writeList base (image.map fun v : Nat => wrap s.cfg.width v) }

section
variable {s : State} {g : Segment} {base len : Nat} {image : List Nat} (hidle : s.runState = .idle)
include hidle

theorem loadSegment_of_fits (hlen : image.length ≤ len) :
    loadSegment g base len image s = .next (s.withImage base image) := by
  simp only [loadSegment, hidle, if_pos hlen, State.withImage]

theorem loadSegment_of_long (hlen : len < image.length) :
    loadSegment g base len image s = .next (refuseImage g (base + len) s) := by
  simp only [loadSegment, hidle, if_neg (not_le.2 hlen)]

/-- An image of words that fits changes the row of cells it is written to and nothing else. -/
theorem loadSegment_places (hmem : s.mem.wf) (hlen : image.length ≤ len)
    (hwords : ∀ v ∈ image, v < 2 ^ s.cfg.width) :
    ∃ t, loadSegment g base len image s = .next t ∧ t = { s with mem := t.mem } ∧
      (∀ (k : Nat) (hk : k < image.length), t.mem.read (base + k) = image[k]'hk) ∧
      ∀ a, a < base ∨ base + image.length ≤ a → t.mem.read a = s.mem.read a := by
  refine ⟨_, loadSegment_of_fits hidle hlen, rfl, ?_⟩
  rw [State.withImage, map_wrap_of_words hwords]
  exact ⟨fun k hk => Memory.read_writeList_getElem hmem hk base,
    fun a ha => Memory.read_writeList_outside hmem ha⟩

/-- An image too long for a window that ends at a word leaves the fault record and no cell (log entry 12). -/
theorem loadSegment_refuses (hend : base + len < 2 ^ s.cfg.width) (hlen : len < image.length) :
    ∃ t, loadSegment g base len image s = .next t ∧
      t = { s with runState := .faulted, fault := t.fault, mem := t.mem } ∧
      (∀ a, a < base ∨ base + len ≤ a → t.mem.read a = s.mem.read a) ∧
      t.fault = ⟨.outOfBounds, 0, 0, base + len, some g, .none⟩ := by
  refine ⟨_, loadSegment_of_long hidle hlen, rfl, fun _ _ => rfl, ?_⟩
  rw [refuseImage_fault, wrap_nat hend]

end

theorem textEnd_lt_two_pow_width {c : Config} (h : c.wellFormed = true) : c.textEnd < 2 ^ c.width := by
  obtain ⟨-, htext, -, hstack, -⟩ := Config.bounds h
  exact htext.trans_lt hstack

theorem dataEnd_lt_two_pow_width {c : Config} (h : c.wellFormed = true) : c.dataEnd < 2 ^ c.width := by
  obtain ⟨-, -, hdata, -, -⟩ := Config.bounds h
  exact hdata

/-- `run` ends with the error of a refused TEXT image (R237, R251). -/
theorem run_of_text_faulted {s t : State} {program : List Nat}
    (htext : loadText program (hostReset s) = .next t) (ht : t.runState = .faulted) (fuel : Nat)
    (data : List Nat) (entry : Option Nat) (frame : LaunchFrame) :
    run fuel program data entry frame s = .next (.error t.fault, t) := by
  simp only [run, htext, stepReport_of_faulted ht]

/-- `run` ends with the error of a refused DATA image (R237, R251). -/
theorem run_of_data_faulted {s t u : State} {program data : List Nat}
    (htext : loadText program (hostReset s) = .next u) (hdata : loadData data u = .next t)
    (ht : t.runState = .faulted) (fuel : Nat) (entry : Option Nat) (frame : LaunchFrame) :
    run fuel program data entry frame s = .next (.error t.fault, t) := by
  have hu := stepReport_of_idle (idle_of_loadSegment hdata)
  simp only [run, htext, hu, hdata, stepReport_of_faulted ht]

theorem run_refuses_long_text {s : State} {program : List Nat} (hlen : s.cfg.textLen < program.length)
    (fuel : Nat) (data : List Nat) (entry : Option Nat) (frame : LaunchFrame) :
    ∃ t, run fuel program data entry frame s = .next (.error t.fault, t) ∧
      loadText program (hostReset s) = .next t := by
  have htext := loadSegment_of_long (g := .text) (base := s.cfg.textBase) (initial_runState s.cfg) hlen
  exact ⟨_, run_of_text_faulted htext rfl fuel data entry frame, htext⟩

theorem run_refuses_long_data {s : State} {program data : List Nat}
    (hfits : program.length ≤ s.cfg.textLen) (hlen : s.cfg.dataLen < data.length) (fuel : Nat)
    (entry : Option Nat) (frame : LaunchFrame) :
    ∃ t u, run fuel program data entry frame s = .next (.error t.fault, t) ∧
      loadText program (hostReset s) = .next u ∧ loadData data u = .next t := by
  have htext := loadSegment_of_fits (g := .text) (base := s.cfg.textBase) (initial_runState s.cfg) hfits
  have hdata := loadSegment_of_long (s := (hostReset s).withImage s.cfg.textBase program)
    (g := .data) (base := s.cfg.dataBase) (initial_runState s.cfg) hlen
  exact ⟨_, _, run_of_data_faulted htext hdata rfl fuel entry frame, htext, hdata⟩

/-- Settles O53: each segment is `loadSegment` at its window, by whether the image fits; `run` reports the
fault record of the load it stops at. -/
theorem loadPlacesOrRefusesImages : Obligations.LoadPlacesOrRefusesImages := by
  unfold Obligations.LoadPlacesOrRefusesImages
  intro s image hc hmem hidle
  exact ⟨loadSegment_places hidle hmem, loadSegment_places hidle hmem,
    loadSegment_refuses hidle (textEnd_lt_two_pow_width hc),
    loadSegment_refuses hidle (dataEnd_lt_two_pow_width hc),
    fun fuel other entry frame => ⟨fun hlen => run_refuses_long_text hlen fuel other entry frame,
      fun hfits hlen => run_refuses_long_data hfits hlen fuel entry frame⟩⟩

/-! ## Start -/

/-- The PC a run starts at: the host's entry, or `TEXT_BASE` (R252, R5). -/
def entryPc (c : Config) (entry : Option Nat) : Nat := wrap c.width (entry.getD c.textBase)

theorem entryPc_eq {c : Config} (hc : c.wellFormed = true) (entry : Option Nat) :
    (∀ e, entry = some e → e < 2 ^ c.width → entryPc c entry = e) ∧
      (entry = none → entryPc c entry = c.textBase) := by
  constructor
  · rintro e rfl he
    exact wrap_nat he
  · rintro rfl
    exact wrap_nat (textBase_lt_two_pow_width hc)

/-- A start whose frame is allowed and fits leaves the pushed frame, RUNNING (R252). -/
theorem start_of_pushes {s t : State} {entry : Option Nat} {frame : LaunchFrame}
    (hidle : s.runState = .idle) (hallowed : frame.allowed s.cfg = true)
    (hpush : pushLaunchFrame frame { s with pc := entryPc s.cfg entry } = .ok t) :
    start entry frame s = .next { t with runState := .running } := by
  simp only [entryPc, hidle] at hpush
  simp only [start, hidle, hallowed, if_true, hpush]

/-- Memory with a C-main frame below the address `top` (R252). -/
def Memory.withLaunchFrame (m : Memory) (top argc argv stub : Nat) : Memory :=
  ((m.write (top - 1) argc).write (top - 2) argv).write (top - 3) stub

theorem Memory.read_withLaunchFrame {m : Memory} (hm : m.wf) {top : Nat} (htop : 3 ≤ top)
    (argc argv stub : Nat) :
    (m.withLaunchFrame top argc argv stub).read (top - 1) = argc ∧
      (m.withLaunchFrame top argc argv stub).read (top - 2) = argv ∧
      (m.withLaunchFrame top argc argv stub).read (top - 3) = stub ∧
      ∀ a, a < top - 3 ∨ top ≤ a → (m.withLaunchFrame top argc argv stub).read a = m.read a := by
  have hm₁ := Memory.write_wf hm (top - 1) argc
  have hm₂ := Memory.write_wf hm₁ (top - 2) argv
  have hread : ∀ a, (m.withLaunchFrame top argc argv stub).read a =
      if a = top - 3 then stub else if a = top - 2 then argv else if a = top - 1 then argc
      else m.read a := fun a => by
    rw [withLaunchFrame, Memory.read_write hm₂, Memory.read_write hm₁, Memory.read_write hm]
  refine ⟨?_, ?_, ?_, fun a ha => ?_⟩
  · rw [hread, if_neg (by omega), if_neg (by omega), if_pos rfl]
  · rw [hread, if_neg (by omega), if_pos rfl]
  · rw [hread, if_pos rfl]
  · rw [hread, if_neg (by omega), if_neg (by omega), if_neg (by omega)]

/-- The state after a push with room (R60). -/
def State.pushed (s : State) (v : Nat) : State :=
  { s with sp := s.sp - 1, mem := s.mem.write (s.sp - 1) v }

@[simp] theorem pushed_cfg (s : State) (v : Nat) : (s.pushed v).cfg = s.cfg := rfl

@[simp] theorem pushed_sp (s : State) (v : Nat) : (s.pushed v).sp = s.sp - 1 := rfl

theorem push_eq_pushed {s : State} (h : s.hasRoom) (hc : s.cfg.wellFormed = true) (v : Nat) :
    push v s = .ok (s.pushed v) := push_of_room hc h v

/-- On a stack with room for its three cells, a C-main frame of words is pushed in the order argc, argv,
RET_STUB (R252). -/
theorem pushLaunchFrame_of_room {s : State} {argc argv stub : Nat} (hc : s.cfg.wellFormed = true)
    (hroom : s.cfg.stackBase + 3 ≤ s.sp) (htop : s.sp ≤ s.cfg.stackTop)
    (hargc : argc < 2 ^ s.cfg.width) (hargv : argv < 2 ^ s.cfg.width) (hstub : stub < 2 ^ s.cfg.width) :
    pushLaunchFrame (.cMain argc argv stub) s =
      .ok { s with sp := s.sp - 3, mem := s.mem.withLaunchFrame s.sp argc argv stub } := by
  have hroom₁ : s.hasRoom := ⟨by omega, htop⟩
  have hroom₂ : (s.pushed argc).hasRoom := by
    simp only [State.hasRoom, pushed_cfg, pushed_sp]
    omega
  have hroom₃ : ((s.pushed argc).pushed argv).hasRoom := by
    simp only [State.hasRoom, pushed_cfg, pushed_sp]
    omega
  simp only [pushLaunchFrame, wrap_nat hargc, push_eq_pushed hroom₁ hc, pushed_cfg, wrap_nat hargv,
    push_eq_pushed hroom₂ hc, wrap_nat hstub, push_eq_pushed hroom₃ hc]
  rfl

/-- A C-main start on an empty stack leaves its frame below `STACK_TOP` (R252). -/
theorem start_of_cMain {s : State} {argc argv stub : Nat} (hc : s.cfg.wellFormed = true)
    (hidle : s.runState = .idle) (hempty : s.sp = s.cfg.stackTop) (hlen : 3 ≤ s.cfg.stackLen)
    (hargc : argc < 2 ^ s.cfg.width) (hargv : argv < 2 ^ s.cfg.width)
    (hstub : inText s.cfg stub = true) (entry : Option Nat) :
    start entry (.cMain argc argv stub) s = .next { s with
      pc := entryPc s.cfg entry
      sp := s.cfg.stackTop - 3
      mem := s.mem.withLaunchFrame s.cfg.stackTop argc argv stub
      runState := .running } := by
  have hroom : s.cfg.stackBase + 3 ≤ s.sp := hempty ▸ Nat.add_le_add_left hlen _
  have hstubWord : stub < 2 ^ s.cfg.width := (inText_iff.1 hstub).2.trans (textEnd_lt_two_pow_width hc)
  have hpush := pushLaunchFrame_of_room (s := { s with pc := entryPc s.cfg entry }) hc hroom hempty.le
    hargc hargv hstubWord
  rw [start_of_pushes (frame := .cMain argc argv stub) hidle hstub hpush, hempty]

/-- Settles O54: without a frame nothing is pushed; a C-main frame is `start_of_cMain`. -/
theorem startLaunchesTheRun : Obligations.StartLaunchesTheRun := by
  unfold Obligations.StartLaunchesTheRun
  intro s entry argc argv stub hc hmem hidle hempty
  obtain ⟨hentry, hdefault⟩ := entryPc_eq hc entry
  constructor
  · exact ⟨_, start_of_pushes hidle rfl rfl, rfl, hentry, hdefault⟩
  · intro hlen hargc hargv hstub
    have htop : 3 ≤ s.cfg.stackTop := hlen.trans (Nat.le_add_left _ _)
    exact ⟨_, start_of_cMain hc hidle hempty hlen hargc hargv hstub entry, rfl, hentry, hdefault,
      Memory.read_withLaunchFrame hmem htop argc argv stub⟩

end Sys2Proof.Machine
end

section
/-! Every execution at a glance: what each instruction leaves when it completes, what it can raise, and
that only an SP out of R24's range stops the model. The frames, the invariant and the fault table are case
analyses of `Completed` and `exec_next_cases`. -/

namespace Sys2Proof.Machine

/-! ## The cells beside an address -/

/-- The cell below an address, as `Push` computes it (R60). -/
def cellBelow (c : Config) (a : Nat) : Nat := wrap c.width (a - 1)

/-- The cell above an address, as `Pop` computes it (R61). -/
def cellAbove (c : Config) (a : Nat) : Nat := wrap c.width (a + 1)

theorem cellBelow_lt (c : Config) (a : Nat) : cellBelow c a < 2 ^ c.width := wrap_lt _ _

theorem cellBelow_eq {c : Config} {a : Nat} (h0 : 0 < a) (h : a ≤ 2 ^ c.width) : cellBelow c a = a - 1 :=
  wrap_sub_one h0 h

theorem cellAbove_eq {c : Config} (hc : c.wellFormed = true) {a : Nat} (h : a < c.stackTop) :
    cellAbove c a = a + 1 := by
  have htop := stackTop_lt_two_pow_width hc
  exact wrap_add_one (by omega)

theorem cellBelow_of_room {s : State} (hc : s.cfg.wellFormed = true) (h : s.hasRoom) :
    cellBelow s.cfg s.sp = s.sp - 1 := by
  obtain ⟨hbase, htop⟩ := h
  have hlt := stackTop_lt_two_pow_width hc
  exact cellBelow_eq (by omega) (by omega)

/-- `Push` with room in R24's range finds its cell. -/
theorem not_spInRange_of_below_noCell {s : State} (hroom : s.cfg.stackBase < s.sp)
    (hcell : cellExists s.cfg (cellBelow s.cfg s.sp) = false) (hc : s.cfg.wellFormed = true) :
    ¬ s.spInRange := by
  rintro ⟨-, htop⟩
  rw [cellBelow_of_room hc ⟨hroom, htop⟩,
    cellExists_of_inStack (inStack_iff.2 ⟨by omega, by omega⟩)] at hcell
  cases hcell

/-- `Pop` below `STACK_TOP` in R24's range finds its cell. -/
theorem not_spInRange_of_top_noCell {s : State} (htop : s.sp < s.cfg.stackTop)
    (hcell : cellExists s.cfg s.sp = false) : ¬ s.spInRange := by
  rintro ⟨hbase, -⟩
  rw [cellExists_of_inStack (inStack_iff.2 ⟨hbase, htop⟩)] at hcell
  cases hcell

/-! ## The sixteen binary operators -/

/-- The function of a binary operator (R161 to R176). -/
def binaryFunction : Instr → Option (Nat → Nat → Nat → Except Stop Nat)
  | .or => some fun _ l r => .ok (aluOr l r)
  | .xor => some fun _ l r => .ok (aluXor l r)
  | .and => some fun _ l r => .ok (aluAnd l r)
  | .eq => some fun _ l r => .ok (aluEq l r)
  | .ne => some fun _ l r => .ok (aluNe l r)
  | .lt => some fun w l r => .ok (aluLt w l r)
  | .gt => some fun w l r => .ok (aluGt w l r)
  | .le => some fun w l r => .ok (aluLe w l r)
  | .ge => some fun w l r => .ok (aluGe w l r)
  | .shl => some fun w l r => .ok (aluShl w l r)
  | .shr => some fun w l r => .ok (aluShr w l r)
  | .add => some fun w l r => .ok (aluAdd w l r)
  | .sub => some fun w l r => .ok (aluSub w l r)
  | .mul => some fun w l r => .ok (aluMul w l r)
  | .div => some aluDiv
  | .mod => some aluMod
  | _ => none

theorem exec_of_binaryFunction {i : Instr} {f : Nat → Nat → Nat → Except Stop Nat}
    (h : binaryFunction i = some f) (s : State) : exec i s = transact 1 (binaryOp f) s := by
  cases i <;> cases h <;> rfl

/-- What the tables say of every binary operator: one cell, AX and SP written, and a row with
StackUnderflow. -/
structure BinaryRow (k : Mnemonic) : Prop where
  length : k.length = 1
  writesAx : k.writesAx = true
  writesSp : k.writesSp = true
  underflow : FaultCode.stackUnderflow ∈ k.executionFaults

theorem binaryRow_of_binaryFunction {i : Instr} {f : Nat → Nat → Nat → Except Stop Nat}
    (h : binaryFunction i = some f) : BinaryRow i.mnemonic := by
  cases i <;> cases h <;> exact ⟨rfl, rfl, rfl, by decide⟩

/-- An operator that raises is DIV or MOD at a zero divisor (R175, R176). -/
theorem binaryFunction_error {i : Instr} {f : Nat → Nat → Nat → Except Stop Nat} {w l r : Nat} {e : Stop}
    (h : binaryFunction i = some f) (he : f w l r = .error e) :
    e = .raise .divideByZero ∧ FaultCode.arithmeticError ∈ i.mnemonic.executionFaults := by
  cases i <;> cases h
  case div =>
    unfold aluDiv at he
    split_ifs at he
    cases he
    exact ⟨rfl, by decide⟩
  case mod =>
    unfold aluMod at he
    split_ifs at he
    cases he
    exact ⟨rfl, by decide⟩
  all_goals cases he

theorem boolWord_lt {w : Nat} (hw : 0 < w) (b : Bool) : boolWord b < 2 ^ w := by
  have htwo : 1 < 2 ^ w := Nat.one_lt_two_pow hw.ne'
  cases b
  · exact Nat.two_pow_pos w
  · exact htwo

/-- What an operator answers for two words is a word (R161 to R176). -/
theorem binaryFunction_lt {i : Instr} {f : Nat → Nat → Nat → Except Stop Nat} {w l r v : Nat}
    (h : binaryFunction i = some f) (hw : 0 < w) (hl : l < 2 ^ w) (hr : r < 2 ^ w)
    (hv : f w l r = .ok v) : v < 2 ^ w := by
  cases i <;> cases h
  case or => cases hv; exact Nat.or_lt_two_pow hl hr
  case xor => cases hv; exact Nat.xor_lt_two_pow hl hr
  case and => cases hv; exact Nat.and_lt_two_pow l hr
  case eq | ne | lt | gt | le | ge => cases hv; exact boolWord_lt hw _
  case shl | shr | add | sub | mul => cases hv; exact wrap_lt _ _
  case div =>
    unfold aluDiv at hv
    split_ifs at hv
    cases hv
    exact wrap_lt _ _
  case mod =>
    unfold aluMod at hv
    split_ifs at hv
    cases hv
    exact wrap_lt _ _

/-! ## Completed executions -/

/-- What each instruction leaves when it completes, with the conditions it completes under (R100 to
R176, R200). -/
inductive Completed (s : State) : Instr → State → Prop where
  | lea (n : Nat) : Completed s (.lea n)
      { s with pc := s.pcAfter 2, ax := wrap s.cfg.width (s.bp + s.signed n) }
  | imm (v : Nat) : Completed s (.imm v) { s with pc := s.pcAfter 2, ax := v }
  | jmp (target : Nat) : Completed s (.jmp target) { s with pc := target }
  | jz (target : Nat) : Completed s (.jz target) { s with pc := if s.ax = 0 then target else s.pcAfter 2 }
  | jnz (target : Nat) : Completed s (.jnz target) { s with pc := if s.ax = 0 then s.pcAfter 2 else target }
  | call (target : Nat) (hroom : s.cfg.stackBase < s.sp)
      (hcell : cellExists s.cfg (cellBelow s.cfg s.sp) = true) : Completed s (.call target)
      { s with
        pc := target
        sp := cellBelow s.cfg s.sp
        mem := s.mem.write (cellBelow s.cfg s.sp) (s.pcAfter 2) }
  | ent (n : Nat) (hroom : s.cfg.stackBase < s.sp)
      (hcell : cellExists s.cfg (cellBelow s.cfg s.sp) = true)
      (hlow : (s.cfg.stackBase : Int) ≤ cellBelow s.cfg s.sp - s.signed n)
      (hhigh : cellBelow s.cfg s.sp - s.signed n ≤ s.cfg.stackTop) : Completed s (.ent n)
      { s with
        pc := s.pcAfter 2
        sp := wrap s.cfg.width (cellBelow s.cfg s.sp - s.signed n)
        bp := cellBelow s.cfg s.sp
        mem := s.mem.write (cellBelow s.cfg s.sp) s.bp }
  | adj (n : Nat) (hlow : (s.cfg.stackBase : Int) ≤ s.sp + s.signed n)
      (hhigh : s.sp + s.signed n ≤ s.cfg.stackTop) : Completed s (.adj n)
      { s with pc := s.pcAfter 2, sp := wrap s.cfg.width (s.sp + s.signed n) }
  | lev (hlow : s.cfg.stackBase ≤ s.bp) (hhigh : s.bp ≤ s.cfg.stackTop)
      (hsaved : wrap s.cfg.width s.bp < s.cfg.stackTop)
      (hreturn : cellAbove s.cfg (wrap s.cfg.width s.bp) < s.cfg.stackTop) : Completed s .lev
      { s with
        pc := s.mem.read (cellAbove s.cfg (wrap s.cfg.width s.bp))
        sp := cellAbove s.cfg (cellAbove s.cfg (wrap s.cfg.width s.bp))
        bp := s.mem.read (wrap s.cfg.width s.bp) }
  | li (hcell : cellExists s.cfg s.ax = true) : Completed s .li
      { s with pc := s.pcAfter 1, ax := s.mem.read s.ax }
  | lc (hcell : cellExists s.cfg s.ax = true) : Completed s .lc
      { s with pc := s.pcAfter 1, ax := extendByte s.cfg (lowByte (s.mem.read s.ax)) }
  | si (htop : s.sp < s.cfg.stackTop) (htext : inText s.cfg s.top = false)
      (hcell : cellExists s.cfg s.top = true) : Completed s .si
      { s with pc := s.pcAfter 1, sp := cellAbove s.cfg s.sp, mem := s.mem.write s.top s.ax }
  | sc (htop : s.sp < s.cfg.stackTop) (htext : inText s.cfg s.top = false)
      (hcell : cellExists s.cfg s.top = true) : Completed s .sc
      { s with
        pc := s.pcAfter 1
        sp := cellAbove s.cfg s.sp
        ax := extendByte s.cfg (lowByte s.ax)
        mem := s.mem.write s.top (mergedCell s) }
  | push (hroom : s.cfg.stackBase < s.sp) (hcell : cellExists s.cfg (cellBelow s.cfg s.sp) = true) :
      Completed s .push
      { s with
        pc := s.pcAfter 1
        sp := cellBelow s.cfg s.sp
        mem := s.mem.write (cellBelow s.cfg s.sp) s.ax }
  | ret (htop : s.sp < s.cfg.stackTop) : Completed s .ret
      { s with pc := s.top, sp := cellAbove s.cfg s.sp }
  | exit (htop : s.sp < s.cfg.stackTop) : Completed s .exit s.afterExit
  | binary {i : Instr} {f : Nat → Nat → Nat → Except Stop Nat} {v : Nat} (hi : binaryFunction i = some f)
      (htop : s.sp < s.cfg.stackTop) (hv : f s.cfg.width s.top s.ax = .ok v) : Completed s i
      { s with pc := s.pcAfter 1, sp := cellAbove s.cfg s.sp, ax := v }

/-- What the pseudocode of `i`, begun in `s` after the fetch, can answer: a completed execution, a cause
of `i`'s row in R216's table whose address is a word, or a missing cell when SP is out of range. -/
inductive Answers (s : State) (i : Instr) : Except Stop State → Prop where
  | completes {t : State} (h : Completed s i t) : Answers s i (.ok t)
  | raises (e : FaultCause) (hrow : e.code ∈ i.mnemonic.executionFaults)
      (haddr : s.WordsFit → e.addr < 2 ^ s.cfg.width) : Answers s i (.error (.raise e))
  | noCell (a : Nat) (h : s.cfg.wellFormed = true → ¬ s.spInRange) : Answers s i (.error (.noCell a))

/-- A cause without an address. -/
theorem Answers.raises_zero {s : State} {i : Instr} (e : FaultCause)
    (hrow : e.code ∈ i.mnemonic.executionFaults) (haddr : e.addr = 0) :
    Answers s i (.error (.raise e)) :=
  .raises e hrow fun _ => haddr ▸ Nat.two_pow_pos _

/-! ### One lemma per pseudocode -/

theorem answers_lea (n : Nat) (s : State) : Answers s (.lea n) (pseudoLea n { s with pc := s.pcAfter 2 }) :=
  .completes (.lea n)

theorem answers_imm (v : Nat) (s : State) : Answers s (.imm v) (pseudoImm v { s with pc := s.pcAfter 2 }) :=
  .completes (.imm v)

theorem answers_jmp (target : Nat) (s : State) :
    Answers s (.jmp target) (pseudoJmp target { s with pc := s.pcAfter 2 }) :=
  .completes (.jmp target)

theorem answers_jz (target : Nat) (s : State) :
    Answers s (.jz target) (pseudoJz target { s with pc := s.pcAfter 2 }) := by
  have h := Completed.jz (s := s) target
  rw [pseudoJz_eq]
  split_ifs at h ⊢ <;> exact .completes h

theorem answers_jnz (target : Nat) (s : State) :
    Answers s (.jnz target) (pseudoJnz target { s with pc := s.pcAfter 2 }) := by
  have h := Completed.jnz (s := s) target
  rw [pseudoJnz_eq]
  split_ifs at h ⊢ <;> exact .completes h

theorem answers_push (s : State) : Answers s .push (pseudoPush { s with pc := s.pcAfter 1 }) := by
  unfold pseudoPush
  rcases push_cases s.ax { s with pc := s.pcAfter 1 } with
    ⟨-, hpush⟩ | ⟨hroom, hcell, hpush⟩ | ⟨hroom, hcell, hpush⟩ <;> rw [hpush]
  · exact .raises_zero .stackOverflow (.head _) rfl
  · exact .completes (.push hroom hcell)
  · exact .noCell _ (not_spInRange_of_below_noCell (s := s) hroom hcell)

theorem answers_call (target : Nat) (s : State) :
    Answers s (.call target) (pseudoCall target { s with pc := s.pcAfter 2 }) := by
  unfold pseudoCall
  rcases push_cases (s.pcAfter 2) { s with pc := s.pcAfter 2 } with
    ⟨-, hpush⟩ | ⟨hroom, hcell, hpush⟩ | ⟨hroom, hcell, hpush⟩ <;> rw [hpush]
  · exact .raises_zero .stackOverflow (.head _) rfl
  · exact .completes (.call target hroom hcell)
  · exact .noCell _ (not_spInRange_of_below_noCell (s := s) hroom hcell)

theorem answers_ent (n : Nat) (s : State) :
    Answers s (.ent n) (pseudoEnt n { s with pc := s.pcAfter 2 }) := by
  unfold pseudoEnt
  rcases push_cases s.bp { s with pc := s.pcAfter 2 } with
    ⟨-, hpush⟩ | ⟨hroom, hcell, hpush⟩ | ⟨hroom, hcell, hpush⟩ <;> rw [hpush]
  · exact .raises_zero .stackOverflow (.head _) rfl
  · dsimp only
    rcases setSP_cases (cellBelow s.cfg s.sp - s.signed n)
        { s with
          pc := s.pcAfter 2
          sp := cellBelow s.cfg s.sp
          bp := cellBelow s.cfg s.sp
          mem := s.mem.write (cellBelow s.cfg s.sp) s.bp } with
      ⟨-, hset⟩ | ⟨-, -, hset⟩ | ⟨hlow, hhigh, hset⟩
    · exact hset ▸ .raises_zero .stackOverflow (.head _) rfl
    · exact hset ▸ .raises_zero .stackUnderflow (.tail _ (.head _)) rfl
    · exact hset ▸ .completes (.ent n hroom hcell hlow hhigh)
  · exact .noCell _ (not_spInRange_of_below_noCell (s := s) hroom hcell)

theorem answers_adj (n : Nat) (s : State) :
    Answers s (.adj n) (pseudoAdj n { s with pc := s.pcAfter 2 }) := by
  unfold pseudoAdj
  rcases setSP_cases (s.sp + s.signed n) { s with pc := s.pcAfter 2 } with
    ⟨-, hset⟩ | ⟨-, -, hset⟩ | ⟨hlow, hhigh, hset⟩
  · exact hset ▸ .raises_zero .stackOverflow (.head _) rfl
  · exact hset ▸ .raises_zero .stackUnderflow (.tail _ (.head _)) rfl
  · exact hset ▸ .completes (.adj n hlow hhigh)

theorem answers_ret (s : State) : Answers s .ret (pseudoRet { s with pc := s.pcAfter 1 }) := by
  unfold pseudoRet
  rcases pop_cases { s with pc := s.pcAfter 1 } with
    ⟨-, hpop⟩ | ⟨htop, -, hpop⟩ | ⟨htop, hcell, hpop⟩ <;> rw [hpop]
  · exact .raises_zero .stackUnderflow (.head _) rfl
  · exact .completes (.ret htop)
  · exact .noCell _ fun _ => not_spInRange_of_top_noCell (s := s) htop hcell

theorem answers_lev (s : State) : Answers s .lev (pseudoLev { s with pc := s.pcAfter 1 }) := by
  unfold pseudoLev
  rcases setSP_cases s.bp { s with pc := s.pcAfter 1 } with
    ⟨-, hset⟩ | ⟨-, -, hset⟩ | ⟨hlow, hhigh, hset⟩ <;> rw [hset]
  · exact .raises_zero .stackOverflow (.head _) rfl
  · exact .raises_zero .stackUnderflow (.tail _ (.head _)) rfl
  have hlow : s.cfg.stackBase ≤ s.bp := Int.ofNat_le.1 hlow
  have hhigh : s.bp ≤ s.cfg.stackTop := Int.ofNat_le.1 hhigh
  have hframe : s.cfg.wellFormed = true → s.cfg.stackBase ≤ wrap s.cfg.width s.bp := fun hc => by
    rwa [wrap_nat (hhigh.trans_lt (stackTop_lt_two_pow_width hc))]
  rcases pop_cases { s with pc := s.pcAfter 1, sp := wrap s.cfg.width s.bp } with
    ⟨-, hpop⟩ | ⟨hsaved, -, hpop⟩ | ⟨hsaved, hcell, hpop⟩ <;> simp only [hpop]
  · exact .raises_zero .stackUnderflow (.tail _ (.head _)) rfl
  · rcases pop_cases { s with
        pc := s.pcAfter 1
        sp := cellAbove s.cfg (wrap s.cfg.width s.bp)
        bp := s.mem.read (wrap s.cfg.width s.bp) } with
      ⟨-, hpop'⟩ | ⟨hreturn, -, hpop'⟩ | ⟨hreturn, hcell, hpop'⟩ <;>
      simp only [cellAbove, State.top] at hpop' ⊢ <;> rw [hpop']
    · exact .raises_zero .stackUnderflow (.tail _ (.head _)) rfl
    · exact .completes (.lev hlow hhigh hsaved hreturn)
    · refine .noCell _ fun hc _ => not_spInRange_of_top_noCell hreturn hcell ⟨?_, hreturn.le⟩
      exact (hframe hc).trans (cellAbove_eq hc hsaved ▸ Nat.le_succ _)
  · exact .noCell _ fun hc _ => not_spInRange_of_top_noCell hsaved hcell ⟨hframe hc, hsaved.le⟩

theorem answers_li (s : State) : Answers s .li (pseudoLi { s with pc := s.pcAfter 1 }) := by
  cases hcell : cellExists s.cfg s.ax with
  | true => exact pseudoLi_of_exists (s := { s with pc := s.pcAfter 1 }) hcell ▸ .completes (.li hcell)
  | false =>
    rw [pseudoLi_of_noCell (s := { s with pc := s.pcAfter 1 }) hcell]
    exact .raises (.outOfBounds s.ax none) (.head _) State.WordsFit.ax

theorem answers_lc (s : State) : Answers s .lc (pseudoLc { s with pc := s.pcAfter 1 }) := by
  cases hcell : cellExists s.cfg s.ax with
  | true => exact pseudoLc_of_exists (s := { s with pc := s.pcAfter 1 }) hcell ▸ .completes (.lc hcell)
  | false =>
    rw [pseudoLc_of_noCell (s := { s with pc := s.pcAfter 1 }) hcell]
    exact .raises (.outOfBounds s.ax none) (.head _) State.WordsFit.ax

/-- Everything a data write can do (R58). -/
theorem memWrite_cases (a v : Nat) (s : State) :
    (inText s.cfg a = false ∧ cellExists s.cfg a = true ∧
        memWrite a v s = .ok { s with mem := s.mem.write a v }) ∨
      ∃ g, memWrite a v s = .error (.raise (.outOfBounds a g)) := by
  rw [memWrite_eq]
  split_ifs with htext hcell
  · exact .inr ⟨_, rfl⟩
  · exact .inl ⟨by simpa using htext, hcell, rfl⟩
  · exact .inr ⟨_, rfl⟩

theorem answers_si (s : State) : Answers s .si (pseudoSi { s with pc := s.pcAfter 1 }) := by
  unfold pseudoSi
  rcases pop_cases { s with pc := s.pcAfter 1 } with
    ⟨-, hpop⟩ | ⟨htop, -, hpop⟩ | ⟨htop, hcell, hpop⟩ <;> simp only [hpop]
  · exact .raises_zero .stackUnderflow (.head _) rfl
  · rcases memWrite_cases s.top s.ax { s with pc := s.pcAfter 1, sp := cellAbove s.cfg s.sp } with
      ⟨htext, hcell, hwrite⟩ | ⟨g, hwrite⟩
    · exact hwrite ▸ .completes (.si htop htext hcell)
    · exact hwrite ▸ .raises (.outOfBounds s.top g) (.tail _ (.head _)) fun hfit => hfit.read_lt s.sp
  · exact .noCell _ fun _ => not_spInRange_of_top_noCell (s := s) htop hcell

theorem answers_sc (s : State) : Answers s .sc (pseudoSc { s with pc := s.pcAfter 1 }) := by
  unfold pseudoSc
  rcases pop_cases { s with pc := s.pcAfter 1 } with
    ⟨-, hpop⟩ | ⟨htop, -, hpop⟩ | ⟨htop, hcell, hpop⟩ <;> simp only [hpop]
  · exact .raises_zero .stackUnderflow (.head _) rfl
  · rcases memWrite_cases s.top (mergedCell s) { s with pc := s.pcAfter 1, sp := cellAbove s.cfg s.sp } with
      ⟨htext, hcell, hwrite⟩ | ⟨g, hwrite⟩ <;>
      simp only [mergedCell, State.top, cellAbove, memWriteByte] at hwrite ⊢ <;> rw [hwrite]
    · exact .completes (.sc htop htext hcell)
    · exact .raises (.outOfBounds s.top g) (.tail _ (.head _)) fun hfit => hfit.read_lt s.sp
  · exact .noCell _ fun _ => not_spInRange_of_top_noCell (s := s) htop hcell

theorem answers_exit (s : State) : Answers s .exit (pseudoExit { s with pc := s.pcAfter 1 }) := by
  by_cases htop : s.sp < s.cfg.stackTop
  · rw [pseudoExit, if_neg (not_le.2 htop)]
    obtain ⟨-, hread⟩ | ⟨hcell, hread⟩ := readCell_cases (s := { s with pc := s.pcAfter 1 }) (a := s.sp) rfl <;>
      rw [hread]
    · exact .completes (.exit htop)
    · exact .noCell _ fun _ => not_spInRange_of_top_noCell (s := s) htop hcell
  · rw [pseudoExit_of_empty (s := { s with pc := s.pcAfter 1 }) (not_lt.1 htop)]
    exact .raises_zero .stackUnderflow (.head _) rfl

theorem answers_binary {i : Instr} {f : Nat → Nat → Nat → Except Stop Nat}
    (hi : binaryFunction i = some f) (s : State) :
    Answers s i (binaryOp f { s with pc := s.pcAfter 1 }) := by
  unfold binaryOp
  rcases pop_cases { s with pc := s.pcAfter 1 } with
    ⟨-, hpop⟩ | ⟨htop, -, hpop⟩ | ⟨htop, hcell, hpop⟩ <;> simp only [hpop]
  · exact .raises_zero .stackUnderflow (binaryRow_of_binaryFunction hi).underflow rfl
  · have hleft : ({ s with pc := s.pcAfter 1 } : State).top = s.top := rfl
    rw [hleft]
    cases hv : f s.cfg.width s.top s.ax with
    | ok v => exact .completes (.binary hi htop hv)
    | error e =>
      obtain ⟨rfl, hrow⟩ := binaryFunction_error hi hv
      exact .raises_zero .divideByZero hrow rfl
  · exact .noCell _ fun _ => not_spInRange_of_top_noCell (s := s) htop hcell

/-! ## Every execution -/

/-- All `exec i s` can be (R9): a completed execution, the fault entry of a cause of `i`'s row, or, from an
SP out of R24's range only, a stop of the model. -/
inductive Executes (s : State) (i : Instr) : Host.Outcome State Fault Refusal → Prop where
  | completes {t : State} (h : Completed s i t) : Executes s i (.next t)
  | raises (e : FaultCause) (hrow : e.code ∈ i.mnemonic.executionFaults)
      (haddr : s.WordsFit → e.addr < 2 ^ s.cfg.width) :
      Executes s i (.next (enterFault (opcodeCell s) e s))
  | noCell (a : Nat) (h : s.cfg.wellFormed = true → ¬ s.spInRange) : Executes s i (.fault (.noSuchCell a))

theorem executes_transact {n : Nat} {body : State → Except Stop State} {s : State} {i : Instr}
    (h : Answers s i (body { s with pc := s.pcAfter n })) : Executes s i (transact n body s) := by
  rw [← advance_eq] at h
  unfold transact
  cases hbody : body (advance n s) with
  | ok t =>
    rw [hbody] at h
    cases h with
    | completes h => exact .completes h
  | error stop =>
    rw [hbody] at h
    cases h with
    | raises e hrow haddr => exact .raises e hrow haddr
    | noCell a h => exact .noCell a h

theorem executes_exec (i : Instr) (s : State) : Executes s i (exec i s) := by
  cases i with
  | lea n => exact executes_transact (answers_lea n s)
  | imm v => exact executes_transact (answers_imm v s)
  | jmp target => exact executes_transact (answers_jmp target s)
  | call target => exact executes_transact (answers_call target s)
  | jz target => exact executes_transact (answers_jz target s)
  | jnz target => exact executes_transact (answers_jnz target s)
  | ent n => exact executes_transact (answers_ent n s)
  | adj n => exact executes_transact (answers_adj n s)
  | lev => exact executes_transact (answers_lev s)
  | li => exact executes_transact (answers_li s)
  | lc => exact executes_transact (answers_lc s)
  | si => exact executes_transact (answers_si s)
  | sc => exact executes_transact (answers_sc s)
  | push => exact executes_transact (answers_push s)
  | exit => exact executes_transact (answers_exit s)
  | ret => exact executes_transact (answers_ret s)
  | or | xor | and | eq | ne | lt | gt | le | ge | shl | shr | add | sub | mul | div | mod =>
    exact executes_transact (answers_binary rfl s)

/-- A next state of an execution is a completed one, or the fault entry of a cause of the row. -/
theorem exec_next_cases {i : Instr} {s t : State} (h : exec i s = .next t) :
    Completed s i t ∨ ∃ e : FaultCause, e.code ∈ i.mnemonic.executionFaults ∧
      (s.WordsFit → e.addr < 2 ^ s.cfg.width) ∧ t = enterFault (opcodeCell s) e s := by
  have hexec := executes_exec i s
  rw [h] at hexec
  cases hexec with
  | completes h => exact .inl h
  | raises e hrow haddr => exact .inr ⟨e, hrow, haddr, rfl⟩

/-- What did not end FAULTED completed (R221). -/
theorem completed_of_not_faulted {i : Instr} {s t : State} (h : exec i s = .next t)
    (ht : t.runState ≠ .faulted) : Completed s i t := by
  rcases exec_next_cases h with hdone | ⟨e, -, -, rfl⟩
  · exact hdone
  · exact absurd rfl ht

end Sys2Proof.Machine
end

section
/-! Encoding (R80 to R88): under a well-formed map every mnemonic has one number and every number at most
one mnemonic, so `encode` and `decode` are inverse to one another. -/

namespace Sys2Proof

/-! ## An instruction as mnemonic and operand -/

@[simp] theorem mnemonic_toInstr (k : Mnemonic) (v : Nat) : (k.toInstr v).mnemonic = k := by
  cases k <;> rfl

@[simp] theorem operand?_toInstr (k : Mnemonic) (v : Nat) :
    (k.toInstr v).operand? = if k.hasOperand then some v else none := by
  cases k <;> rfl

/-- An instruction is its mnemonic with its operand; a form without one ignores what it is given. -/
theorem toInstr_operand? (i : Instr) : i.mnemonic.toInstr (i.operand?.getD 0) = i := by
  cases i <;> rfl

/-- The formats of R84: an operand cell exactly where the mnemonic takes one. -/
theorem isSome_operand? (i : Instr) : i.operand?.isSome = i.mnemonic.hasOperand := by
  cases i <;> rfl

/-! ## Well-formed maps -/

/-- What R5 asks of a map, clause by clause. -/
theorem OpcodeMap.wellFormed_iff {w : Nat} {m : OpcodeMap} :
    m.wellFormed w = true ↔ (m.map Prod.fst).Nodup ∧ (m.map Prod.snd).Nodup ∧ (∀ r ∈ m, r.1 < 2 ^ w) ∧
      ∀ k ∈ Mnemonic.all, k ∈ m.map Prod.snd := by
  simp only [OpcodeMap.wellFormed, Bool.and_eq_true, decide_eq_true_eq, List.all_eq_true,
    List.contains_iff_mem, and_assoc]

theorem Mnemonic.mem_all (k : Mnemonic) : k ∈ Mnemonic.all := by
  cases k <;> decide

/-- In a map without a repeated mnemonic, each row is found by its mnemonic. -/
theorem numberOf_of_mem {m : OpcodeMap} (hm : (m.map Prod.snd).Nodup) {r : Nat × Mnemonic} (hr : r ∈ m) :
    m.numberOf r.2 = some r.1 := by
  induction m with
  | nil => cases hr
  | cons r' m ih =>
    obtain ⟨hnew, hrest⟩ := List.nodup_cons.1 hm
    obtain rfl | hr := List.mem_cons.1 hr
    · simp [OpcodeMap.numberOf]
    · have hne : r'.2 ≠ r.2 := fun h => hnew (h ▸ List.mem_map_of_mem hr)
      have hskip : OpcodeMap.numberOf (r' :: m) r.2 = OpcodeMap.numberOf m r.2 := by simp [OpcodeMap.numberOf, hne]
      rw [hskip, ih hrest hr]

/-- The mnemonic of a legal number stands in its row. -/
theorem mem_of_opcodeOf {m : OpcodeMap} {op : Nat} {k : Mnemonic} (h : opcodeOf m op = some k) :
    (op, k) ∈ m := by
  obtain ⟨r, hr, rfl⟩ := Option.map_eq_some_iff.1 h
  have hop : r.1 = op := by simpa using List.find?_some hr
  exact hop ▸ List.mem_of_find?_eq_some hr

/-- A well-formed map gives every mnemonic a number of one cell, which stands for that mnemonic (R85). -/
theorem OpcodeMap.exists_number {w : Nat} {m : OpcodeMap} (hm : m.wellFormed w = true) (k : Mnemonic) :
    ∃ n, m.numberOf k = some n ∧ n < 2 ^ w ∧ opcodeOf m n = some k := by
  obtain ⟨hnumbers, hmnemonics, hwords, hall⟩ := OpcodeMap.wellFormed_iff.1 hm
  obtain ⟨r, hr, rfl⟩ := List.mem_map.1 (hall k k.mem_all)
  exact ⟨r.1, numberOf_of_mem hmnemonics hr, hwords r hr, opcodeOf_of_mem hnumbers hr⟩

/-! ## `encode` and `decode` -/

theorem encode_of_number {w n : Nat} {m : OpcodeMap} {i : Instr} (hn : m.numberOf i.mnemonic = some n)
    (hlt : n < 2 ^ w) (hi : ∀ v, i.operand? = some v → v < 2 ^ w) :
    encode w m i = some (n :: i.operand?.toList) := by
  have hwf : i.wellFormed w m = true := by
    simp only [Instr.wellFormed, hn, Option.any_some, hlt, decide_true, Bool.true_and]
    cases ho : i.operand? with
    | none => rfl
    | some v => simpa using hi v ho
  rw [encode, if_pos hwf, hn]
  rfl

/-- The decoder reads an instruction back from its number and operand and leaves what follows (R82, R88). -/
theorem decode_number {m : OpcodeMap} {n : Nat} {i : Instr} (hn : opcodeOf m n = some i.mnemonic)
    (rest : List Nat) : decode m (n :: (i.operand?.toList ++ rest)) = .ok (i, rest) := by
  have hformat := isSome_operand? i
  have hself := toInstr_operand? i
  cases ho : i.operand? with
  | none =>
    simp only [ho, Option.isSome_none, Option.getD_none] at hformat hself
    simp only [decode, hn, ← hformat, Bool.false_eq_true, if_false, Option.toList_none, List.nil_append, hself]
  | some v =>
    simp only [ho, Option.isSome_some, Option.getD_some] at hformat hself
    simp only [decode, hn, ← hformat, if_true, Option.toList_some, List.cons_append, List.nil_append, hself]

theorem length_encoding (n : Nat) (i : Instr) : (n :: i.operand?.toList).length = i.mnemonic.length := by
  cases i <;> rfl

/-- Settles O9: the cells are the mnemonic's number and the operand. -/
theorem decodeReadsBackEncode : Obligations.DecodeReadsBackEncode := by
  unfold Obligations.DecodeReadsBackEncode
  intro w m i rest hm hi
  obtain ⟨n, hn, hlt, hk⟩ := OpcodeMap.exists_number hm i.mnemonic
  refine ⟨_, encode_of_number hn hlt hi, length_encoding n i, ?_, decode_number hk rest⟩
  intro c hc
  obtain rfl | hc := List.mem_cons.1 hc
  · exact hlt
  · exact hi c (Option.mem_toList.1 hc)

/-- Everything a successful decoding can be: the opcode cell stands for the instruction's mnemonic, and
an operand, where there is one, is the next cell (R82, R84). -/
theorem decode_ok {m : OpcodeMap} {cells rest : List Nat} {i : Instr}
    (h : decode m cells = .ok (i, rest)) :
    ∃ op, opcodeOf m op = some i.mnemonic ∧ cells = op :: (i.operand?.toList ++ rest) := by
  match cells with
  | [] => cases h
  | op :: tail =>
    unfold decode at h
    cases hk : opcodeOf m op with
    | none => simp only [hk] at h; cases h
    | some k =>
      cases hoperand : k.hasOperand with
      | false =>
        simp only [hk, hoperand] at h
        cases h
        exact ⟨op, by simpa using hk, by simp [hoperand]⟩
      | true =>
        simp only [hk, hoperand] at h
        cases tail with
        | nil => cases h
        | cons v tail =>
          cases h
          exact ⟨op, by simpa using hk, by simp [hoperand]⟩

/-- Settles O10: the opcode cell is the mnemonic's one number, and the operand cell the operand. -/
theorem decodedCellsAreTheEncoding : Obligations.DecodedCellsAreTheEncoding := by
  unfold Obligations.DecodedCellsAreTheEncoding
  intro w m i cells rest hm hcells h
  obtain ⟨op, hop, rfl⟩ := decode_ok h
  obtain ⟨-, hmnemonics, -, -⟩ := OpcodeMap.wellFormed_iff.1 hm
  have hn : m.numberOf i.mnemonic = some op := numberOf_of_mem hmnemonics (mem_of_opcodeOf hop)
  refine ⟨_, encode_of_number hn (hcells op (by simp)) fun v hv => hcells v (by simp [hv]), rfl⟩

end Sys2Proof
end

section
/-! Fetch (R56, R82, R217): `fetchDecode` is `decode` of the TEXT cells at PC where they decode, and else
one of three faults; the advance of PC is exact. -/

namespace Sys2Proof.Machine

/-! ## Instructions -/

/-- The cells a fetch that answers has read: the opcode cell and, of an F1 form, the operand cell, all in
TEXT (R82). -/
theorem fetchDecode_ok_cells {s : State} {i : Instr} (h : fetchDecode s = .ok i) :
    inText s.cfg s.pc = true ∧ opcodeOf s.cfg.opcodeMap (s.mem.read s.pc) = some i.mnemonic ∧
      (i.mnemonic.hasOperand = true → inText s.cfg (s.pc + 1) = true) ∧
      ∀ v, i.operand? = some v → v = s.mem.read (s.pc + 1) := by
  have htext := fetchDecode_ok h
  unfold fetchDecode at h
  simp only [fetchCell_of_inText htext] at h
  cases hk : opcodeOf s.cfg.opcodeMap (s.mem.read s.pc) with
  | none => simp only [hk] at h; cases h
  | some k =>
    cases hoperand : k.hasOperand with
    | false =>
      simp only [hk, hoperand] at h
      cases h
      simp [htext, hoperand]
    | true =>
      cases hnext : inText s.cfg (s.pc + 1) with
      | false => simp [hk, hoperand, fetchCell_of_not_inText hnext] at h
      | true =>
        simp only [hk, hoperand, fetchCell_of_inText hnext] at h
        cases h
        simp [htext, hoperand]

/-- Such cells in TEXT are fetched as that instruction. -/
theorem fetchDecode_of_cells {s : State} {i : Instr} (htext : inText s.cfg s.pc = true)
    (hop : opcodeOf s.cfg.opcodeMap (s.mem.read s.pc) = some i.mnemonic)
    (hnext : i.mnemonic.hasOperand = true → inText s.cfg (s.pc + 1) = true)
    (hv : ∀ v, i.operand? = some v → v = s.mem.read (s.pc + 1)) : fetchDecode s = .ok i := by
  have hformat := isSome_operand? i
  have hself := toInstr_operand? i
  cases ho : i.operand? with
  | none =>
    simp only [ho, Option.isSome_none, Option.getD_none] at hformat hself
    simp only [fetchDecode, fetchCell_of_inText htext, hop, ← hformat, Bool.false_eq_true, if_false, hself]
  | some v =>
    simp only [ho, Option.isSome_some, Option.getD_some] at hformat hself
    simp only [fetchDecode, fetchCell_of_inText htext, hop, ← hformat, if_true,
      fetchCell_of_inText (hnext hformat.symm), ← hv v ho, hself]

/-- TEXT cells that decode are fetched as the instruction they decode to. -/
theorem fetchDecode_of_decode {s : State} {i : Instr} {rest : List Nat}
    (h : decode s.cfg.opcodeMap (textCells s) = .ok (i, rest)) : fetchDecode s = .ok i := by
  obtain ⟨op, hop, hcells⟩ := decode_ok h
  have hformat := isSome_operand? i
  unfold textCells at hcells
  split_ifs at hcells with htext hnext
  · obtain ⟨rfl, htail⟩ := List.cons.inj hcells
    refine fetchDecode_of_cells htext hop (fun _ => hnext) fun v ho => ?_
    rw [ho] at htail
    exact (List.cons.inj htail).1.symm
  · obtain ⟨rfl, htail⟩ := List.cons.inj hcells
    have ho : i.operand? = none := by
      cases ho : i.operand? with
      | none => rfl
      | some v => rw [ho] at htail; cases htail
    rw [ho] at hformat
    refine fetchDecode_of_cells htext hop (fun hk => ?_) fun v hv => ?_
    · rw [← hformat] at hk; cases hk
    · rw [ho] at hv; cases hv

/-- Settles O14: the fetch answers the instruction the cells decode to. -/
theorem stepRunsTheDecodedInstruction : Obligations.StepRunsTheDecodedInstruction := by
  unfold Obligations.StepRunsTheDecodedInstruction
  intro s i rest hrun h
  exact step_of_fetchDecode_ok hrun (fetchDecode_of_decode h)

theorem sint_zero (w : Nat) : sint w 0 = 0 := if_pos (Nat.two_pow_pos _)

/-- LEA 0 moves BP, a word, to AX (R129). -/
theorem exec_lea_zero {s : State} (hbp : s.bp < 2 ^ s.cfg.width) :
    exec (.lea 0) s = .next { s with pc := s.pcAfter 2, ax := s.bp } := by
  rw [exec_lea]
  refine transact_of_completes ?_
  simp only [pseudoLea, operandCount, sint_zero, add_zero, wrap_nat hbp]

/-- Settles O13: number 0 of the default map is LEA's (R85). -/
theorem unloadedTextExecutesLeaZero : Obligations.UnloadedTextExecutesLeaZero := by
  unfold Obligations.UnloadedTextExecutesLeaZero
  intro s hmap hbp hrun htext hnext hop hv
  have hlea : opcodeOf s.cfg.opcodeMap (s.mem.read s.pc) = some (Instr.lea 0).mnemonic := by
    rw [hmap, hop]
    rfl
  have hoperand : ∀ v, (Instr.lea 0).operand? = some v → v = s.mem.read (s.pc + 1) := by
    rintro v ⟨⟩
    exact hv.symm
  rw [step_of_fetchDecode_ok hrun (fetchDecode_of_cells htext hlea (fun _ => hnext) hoperand)]
  exact exec_lea_zero hbp

/-! ## Faults and the advance of PC -/

/-- Settles O15: each clause is the fetch fault of its cause. -/
theorem fetchFaultsComeFirst : Obligations.FetchFaultsComeFirst := by
  unfold Obligations.FetchFaultsComeFirst
  intro s hrun hpc
  refine ⟨step_of_pc_not_inText hrun hpc, fun htext hop => ?_, fun k htext hop hk hnext => ?_⟩
  · exact step_of_fetchDecode_error hrun (fetchDecode_of_unknown htext hop)
  · exact step_of_fetchDecode_error hrun (fetchDecode_of_operand_not_inText htext hop hk hnext)

/-- A fetched instruction lies in TEXT whole. -/
theorem fetched_end_le_textEnd {s : State} {i : Instr} (h : fetchDecode s = .ok i) :
    s.pc + i.mnemonic.length ≤ s.cfg.textEnd := by
  obtain ⟨htext, -, hnext, -⟩ := fetchDecode_ok_cells h
  unfold Mnemonic.length
  split_ifs with hk
  · exact (inText_iff.1 (hnext hk)).2
  · exact (inText_iff.1 htext).2

/-- Settles O16: the end of TEXT is a word. -/
theorem pcNeverWraps : Obligations.PcNeverWraps := by
  unfold Obligations.PcNeverWraps
  intro s i hc h
  have hend := fetched_end_le_textEnd h
  exact ⟨hend, (advance_pc_eq _ s).trans
    (Nat.mod_eq_of_lt (hend.trans_lt (textEnd_lt_two_pow_width hc)))⟩

/-- The causes a fetch can raise have word addresses, and the opcode they record is 0 or the cell at PC. -/
theorem fetchDecode_error_cases {s t : State} (h : fetchDecode s = .error t) :
    ∃ op e, t = enterFault op e s ∧ (op = 0 ∨ op = s.mem.read s.pc) ∧ e.addr < 2 ^ s.cfg.width := by
  cases htext : inText s.cfg s.pc with
  | false =>
    simp only [fetchDecode, fetchCell_of_not_inText htext] at h
    cases h
    exact ⟨0, _, rfl, .inl rfl, Nat.mod_lt _ (Nat.two_pow_pos _)⟩
  | true =>
    cases hk : opcodeOf s.cfg.opcodeMap (s.mem.read s.pc) with
    | none =>
      rw [fetchDecode_of_unknown htext hk] at h
      cases h
      exact ⟨_, _, rfl, .inr rfl, Nat.two_pow_pos _⟩
    | some k =>
      simp only [fetchDecode, fetchCell_of_inText htext, hk] at h
      cases hnext : inText s.cfg (s.pc + 1) with
      | false =>
        simp only [fetchCell_of_not_inText hnext] at h
        split_ifs at h
        cases h
        exact ⟨_, _, rfl, .inr rfl, Nat.mod_lt _ (Nat.two_pow_pos _)⟩
      | true =>
        simp only [fetchCell_of_inText hnext] at h
        split_ifs at h

/-! ## The placed instruction -/

/-- With two TEXT cells somewhere, `placeCells` finds two (log entry 8). -/
theorem placeAddress_inText {s : State} (h : 2 ≤ s.cfg.textLen) :
    inText s.cfg (placeAddress s) = true ∧ inText s.cfg (placeAddress s + 1) = true := by
  unfold placeAddress
  split_ifs with hpc
  · simpa using hpc
  · simp only [inText_iff, Config.textEnd]
    omega

/-- The TEXT cells at PC after `placeCells` are the placed ones. -/
theorem textCells_placeCells {s : State} (hc : s.cfg.wellFormed = true) (hmem : s.mem.wf)
    (hlen : 2 ≤ s.cfg.textLen) (op v : Nat) : textCells (placeCells op v s) = [op, v] := by
  obtain ⟨htext, hnext⟩ := placeAddress_inText hlen
  have hpc : (placeCells op v s).pc = placeAddress s :=
    wrap_nat ((inText_iff.1 htext).2.trans (textEnd_lt_two_pow_width hc))
  rw [textCells, hpc, placeCells_cfg, if_pos htext, if_pos hnext, placeCells_mem,
    Memory.read_write_other (Nat.succ_ne_self _).symm, Memory.read_write_same hmem,
    Memory.read_write_same (Memory.write_wf hmem _ _)]

theorem decodeTableWord_eq_some {nbits w : Nat} {i : Instr} (h : decodeTableWord nbits w = some i) :
    ∃ rest, decode defaultOpcodeMap [tableCell defaultWidth nbits w 0, tableCell defaultWidth nbits w 1] =
      .ok (i, rest) := by
  unfold decodeTableWord at h
  split at h
  · next rest hdecode => cases h; exact ⟨rest, hdecode⟩
  · cases h

/-- Settles O57: the placed cells are those the word was decoded from. -/
theorem placedInstructionIsExecuted : Obligations.PlacedInstructionIsExecuted := by
  unfold Obligations.PlacedInstructionIsExecuted
  intro s i nbits w hc hmem hwidth hmap hlen hword
  obtain ⟨rest, hdecode⟩ := decodeTableWord_eq_some hword
  refine stepRunsTheDecodedInstruction _ i rest rfl ?_
  rw [State.withFetchWord, textCells_placeCells hc hmem hlen, placeCells_cfg, hmap, hwidth]
  exact hdecode

end Sys2Proof.Machine
end

section
/-! The frames of an execution (R26, R32): which registers, cells and status fields it leaves alone. -/

namespace Sys2Proof.Machine

/-! ## Registers -/

/-- A completed execution leaves AX alone unless R26 lists it as written. -/
theorem Completed.ax_eq {i : Instr} {s t : State} (h : Completed s i t)
    (hw : i.mnemonic.writesAx = false) : t.ax = s.ax := by
  cases h with
  | lea | imm | li | lc | sc => cases hw
  | binary hi => rw [(binaryRow_of_binaryFunction hi).writesAx] at hw; cases hw
  | jmp | jz | jnz | call | ent | adj | lev | si | push | ret | exit => rfl

/-- A completed execution leaves SP alone unless R26 lists it as written. -/
theorem Completed.sp_eq {i : Instr} {s t : State} (h : Completed s i t)
    (hw : i.mnemonic.writesSp = false) : t.sp = s.sp := by
  cases h with
  | call | ent | adj | lev | si | sc | push | ret => cases hw
  | binary hi => rw [(binaryRow_of_binaryFunction hi).writesSp] at hw; cases hw
  | lea | imm | jmp | jz | jnz | li | lc | exit => rfl

/-- A completed execution leaves BP alone unless R26 lists it as written. -/
theorem Completed.bp_eq {i : Instr} {s t : State} (h : Completed s i t)
    (hw : i.mnemonic.writesBp = false) : t.bp = s.bp := by
  cases h with
  | ent | lev => cases hw
  | lea | imm | jmp | jz | jnz | call | adj | li | lc | si | sc | push | ret | exit | binary => rfl

/-- A completed execution leaves the advanced PC unless R26 lists it as written. -/
theorem Completed.pc_eq {i : Instr} {s t : State} (h : Completed s i t)
    (hw : i.mnemonic.writesPc = false) : t.pc = s.pcAfter i.mnemonic.length := by
  cases h with
  | jmp | jz | jnz | call | ret | lev => cases hw
  | binary hi => rw [(binaryRow_of_binaryFunction hi).length]
  | lea | imm | ent | adj | li | lc | si | sc | push | exit => rfl

/-- Settles O44: fault entry keeps every register, and a completed execution those R26 does not list. -/
theorem onlyTheListedRegistersAreWritten : Obligations.OnlyTheListedRegistersAreWritten := by
  unfold Obligations.OnlyTheListedRegistersAreWritten
  intro i s t h
  rcases exec_next_cases h with hdone | ⟨e, -, -, rfl⟩
  · exact ⟨hdone.ax_eq, hdone.sp_eq, hdone.bp_eq, fun hw _ => hdone.pc_eq hw⟩
  · exact ⟨fun _ => rfl, fun _ => rfl, fun _ => rfl, fun _ hrun => absurd rfl hrun⟩

/-! ## Cells -/

/-- A completed execution leaves every cell alone but the one it stores to. -/
theorem Completed.read_eq {i : Instr} {s t : State} (h : Completed s i t) {b : Nat}
    (hb : storedCell i s ≠ some b) : t.mem.read b = s.mem.read b := by
  cases h with
  | call | ent | si | sc | push => exact Memory.read_write_other (fun heq => hb (congrArg some heq.symm)) _
  | lea | imm | jmp | jz | jnz | adj | lev | li | lc | ret | exit | binary => rfl

/-- Settles O46: fault entry keeps memory, and a completed execution every cell but the stored one. -/
theorem onlyTheStoredCellChanges : Obligations.OnlyTheStoredCellChanges := by
  unfold Obligations.OnlyTheStoredCellChanges
  intro i s t h b hb
  rcases exec_next_cases h with hdone | ⟨e, -, -, rfl⟩
  · exact hdone.read_eq hb
  · rfl

/-! ## Status -/

/-- A completed execution keeps the status, or is EXIT's end of the run (R200). -/
theorem Completed.status {i : Instr} {s t : State} (h : Completed s i t) :
    s.SameStatus t ∨ (i = .exit ∧ t = s.afterExit) := by
  cases h with
  | exit => exact .inr ⟨rfl, rfl⟩
  | lea | imm | jmp | jz | jnz | call | ent | adj | lev | li | lc | si | sc | push | ret | binary =>
    exact .inl ⟨rfl, rfl, rfl, rfl⟩

theorem Completed.cfg_eq {i : Instr} {s t : State} (h : Completed s i t) : t.cfg = s.cfg := by
  rcases h.status with hsame | ⟨-, rfl⟩
  · exact hsame.cfg
  · rfl

/-- Settles O47: by what the execution was, a completed one or a fault entry of the row. -/
theorem statusChangesOnlyByExitAndFault : Obligations.StatusChangesOnlyByExitAndFault := by
  unfold Obligations.StatusChangesOnlyByExitAndFault
  intro i s t h
  rcases exec_next_cases h with hdone | ⟨e, hrow, -, rfl⟩
  · refine ⟨hdone.cfg_eq, ?_⟩
    rcases hdone.status with hsame | ⟨hexit, rfl⟩
    · exact .inl ⟨hsame.runState, hsame.fault, hsame.exitStatus⟩
    · exact .inr (.inl ⟨hexit, rfl, rfl, rfl⟩)
  · exact ⟨rfl, .inr (.inr ⟨rfl, hrow, rfl⟩)⟩

/-! ## From executions to steps -/

/-- A step changes nothing, executes the instruction it fetched, or enters a fault of the fetch (R235,
R236). -/
theorem step_next_cases {s t : State} (h : step s = .next t) :
    t = s ∨ (∃ i, s.runState = .running ∧ fetchDecode s = .ok i ∧ exec i s = .next t) ∨
      (s.runState = .running ∧ fetchDecode s = .error t) := by
  by_cases hrun : s.runState = .running
  · cases hfetch : fetchDecode s with
    | ok i => exact .inr (.inl ⟨i, hrun, rfl, step_of_fetchDecode_ok hrun hfetch ▸ h⟩)
    | error u =>
      rw [step_of_fetchDecode_error hrun hfetch] at h
      cases h
      exact .inr (.inr ⟨hrun, rfl⟩)
  · rw [step_stopped hrun] at h
    cases h
    exact .inl rfl

/-- What is true of `s` itself, of every completed execution of `s` and of every fault entry of `s` is true
after a step. -/
theorem step_next_induction {P : State → Prop} {s t : State} (h : step s = .next t) (hsame : P s)
    (hdone : ∀ i u, Completed s i u → P u) (hfault : ∀ op e, P (enterFault op e s)) : P t := by
  rcases step_next_cases h with rfl | ⟨i, -, -, hexec⟩ | ⟨-, hfetch⟩
  · exact hsame
  · rcases exec_next_cases hexec with hc | ⟨e, -, -, rfl⟩
    · exact hdone i t hc
    · exact hfault _ e
  · obtain ⟨e, rfl⟩ := fetchDecode_error hfetch
    exact hfault _ e

/-- Settles O8: neither a completed execution nor fault entry changes the parameters. -/
theorem noStepChangesTheParameters : Obligations.NoStepChangesTheParameters := by
  unfold Obligations.NoStepChangesTheParameters
  intro s t h
  exact step_next_induction (P := fun u => u.cfg = s.cfg) h rfl (fun _ _ => Completed.cfg_eq)
    fun _ _ => rfl

end Sys2Proof.Machine
end

section
/-! Safe states (R24, R51, R58): SP stays in its range, TEXT is never stored to, and no step stops. -/

namespace Sys2Proof.Machine

/-! ## SP -/

/-- Popping below `STACK_TOP` keeps R24's range. -/
theorem cellAbove_inRange {c : Config} (hc : c.wellFormed = true) {a : Nat} (hlow : c.stackBase ≤ a)
    (htop : a < c.stackTop) : c.stackBase ≤ cellAbove c a ∧ cellAbove c a ≤ c.stackTop := by
  rw [cellAbove_eq hc htop]
  omega

/-- Pushing with room keeps R24's range. -/
theorem cellBelow_inRange {s : State} (hc : s.cfg.wellFormed = true) (h : s.hasRoom) :
    s.cfg.stackBase ≤ cellBelow s.cfg s.sp ∧ cellBelow s.cfg s.sp ≤ s.cfg.stackTop := by
  rw [cellBelow_of_room hc h]
  obtain ⟨hbase, htop⟩ := h
  omega

/-- An integer in R24's range is a word. -/
theorem wrap_of_stackRange {c : Config} (hc : c.wellFormed = true) {z : Int}
    (hlow : (c.stackBase : Int) ≤ z) (hhigh : z ≤ c.stackTop) : (wrap c.width z : Int) = z := by
  have htop : (c.stackTop : Int) < 2 ^ c.width := by exact_mod_cast stackTop_lt_two_pow_width hc
  exact wrap_of_fits (by omega) (by omega)

theorem wrap_inRange {c : Config} (hc : c.wellFormed = true) {z : Int}
    (hlow : (c.stackBase : Int) ≤ z) (hhigh : z ≤ c.stackTop) :
    c.stackBase ≤ wrap c.width z ∧ wrap c.width z ≤ c.stackTop := by
  have hz := wrap_of_stackRange hc hlow hhigh
  omega

theorem Completed.spInRange {i : Instr} {s t : State} (h : Completed s i t)
    (hc : s.cfg.wellFormed = true) (hs : s.spInRange) : t.spInRange := by
  obtain ⟨hlow, hhigh⟩ := hs
  cases h with
  | lea | imm | jmp | jz | jnz | li | lc | exit => exact ⟨hlow, hhigh⟩
  | call _ hroom | push hroom => exact cellBelow_inRange hc ⟨hroom, hhigh⟩
  | ent n hroom hcell hz hz' => exact wrap_inRange hc hz hz'
  | adj n hz hz' => exact wrap_inRange hc hz hz'
  | lev hbase htop hsaved hreturn =>
    have hbp : wrap s.cfg.width s.bp = s.bp := wrap_nat (htop.trans_lt (stackTop_lt_two_pow_width hc))
    rw [hbp] at hsaved hreturn
    simp only [State.spInRange, hbp]
    exact cellAbove_inRange hc (cellAbove_inRange hc hbase hsaved).1 hreturn
  | si htop | sc htop | ret htop | binary _ htop => exact cellAbove_inRange hc hlow htop

/-- Settles O6: `Completed.spInRange`, and fault entry keeps SP. -/
theorem stackPointerStaysInRange : Obligations.StackPointerStaysInRange := by
  unfold Obligations.StackPointerStaysInRange
  intro s t hc hs h
  exact step_next_induction h hs (fun _ _ hdone => hdone.spInRange hc hs) fun _ _ => hs

/-! ## The stored cell -/

theorem not_inText_of_inStack {c : Config} (hc : c.wellFormed = true) {a : Nat} (h : inStack c a = true) :
    inText c a = false := by
  obtain ⟨-, hdisjoint, -⟩ := windows_disjoint hc
  rw [inStack_iff] at h
  rw [← Bool.not_eq_true, inText_iff]
  omega

/-- With room the cell below SP is one of STACK, so one that may be written (R58, R60). -/
theorem cellBelow_writable {s : State} (hc : s.cfg.wellFormed = true) (h : s.hasRoom) :
    cellExists s.cfg (cellBelow s.cfg s.sp) = true ∧ inText s.cfg (cellBelow s.cfg s.sp) = false := by
  have hstack : inStack s.cfg (cellBelow s.cfg s.sp) = true := by
    rw [cellBelow_of_room hc h, inStack_iff]
    obtain ⟨hbase, htop⟩ := h
    omega
  exact ⟨cellExists_of_inStack hstack, not_inText_of_inStack hc hstack⟩

/-- What a completed execution stores to, from a state in R24's range, is a cell outside TEXT. -/
theorem Completed.storedCell_writable {i : Instr} {s t : State} (h : Completed s i t)
    (hc : s.cfg.wellFormed = true) (hs : s.spInRange) {b : Nat} (hb : storedCell i s = some b) :
    cellExists s.cfg b = true ∧ inText s.cfg b = false := by
  obtain ⟨-, hhigh⟩ := hs
  cases h with
  | call _ hroom | push hroom | ent _ hroom => cases hb; exact cellBelow_writable hc ⟨hroom, hhigh⟩
  | si _ htext hcell | sc _ htext hcell => cases hb; exact ⟨hcell, htext⟩
  | lea | imm | jmp | jz | jnz | adj | lev | li | lc | ret | exit => cases hb
  | @binary i f v hi => cases i <;> cases hi <;> cases hb

/-- A completed execution leaves TEXT alone (R70). -/
theorem Completed.read_text {i : Instr} {s t : State} (h : Completed s i t)
    (hc : s.cfg.wellFormed = true) (hs : s.spInRange) {a : Nat} (ha : inText s.cfg a = true) :
    t.mem.read a = s.mem.read a := by
  refine h.read_eq fun hb => ?_
  obtain ⟨-, htext⟩ := h.storedCell_writable hc hs hb
  rw [ha] at htext
  cases htext

/-- Settles O7: only an execution stores, and the cell it stores to is outside TEXT. -/
theorem noStepWritesText : Obligations.NoStepWritesText := by
  unfold Obligations.NoStepWritesText
  intro s t hinv h a ha
  exact step_next_induction (P := fun u => u.mem.read a = s.mem.read a) h rfl
    (fun _ _ hdone => hdone.read_text hinv.cfgWellFormed hinv.spInRange ha) fun _ _ => rfl

/-! ## Totality -/

/-- From an SP in range every execution is answered. -/
theorem exec_total {s : State} (hc : s.cfg.wellFormed = true) (hs : s.spInRange) (i : Instr) :
    ∃ t, exec i s = .next t := by
  cases hexec : exec i s with
  | next t => exact ⟨t, rfl⟩
  | fault r =>
    have h := executes_exec i s
    rw [hexec] at h
    cases h with
    | noCell a h => exact absurd hs (h hc)
  | refused r =>
    have h := executes_exec i s
    rw [hexec] at h
    cases h

/-- Settles O5: only an execution could stop the model, and from a safe state none does. -/
theorem noStepOfASafeStateStops : Obligations.NoStepOfASafeStateStops := by
  unfold Obligations.NoStepOfASafeStateStops
  intro s hinv
  by_cases hrun : s.runState = .running
  · cases hfetch : fetchDecode s with
    | ok i =>
      rw [step_of_fetchDecode_ok hrun hfetch]
      exact exec_total hinv.cfgWellFormed hinv.spInRange i
    | error t => exact ⟨t, step_of_fetchDecode_error hrun hfetch⟩
  · exact ⟨s, step_stopped hrun⟩

end Sys2Proof.Machine
end

section
/-! The invariant (R5, R6, R24, R30, R51): reset meets it, and every step, load and start keeps it. -/

namespace Sys2Proof.Machine

/-! ## Memory -/

/-- The invariant's conditions on memory: canonical, entries only at cells that exist, words of `W` bits. -/
structure SafeMemory (c : Config) (m : Memory) : Prop where
  canonical : m.wf
  inWindows : ∀ a ∈ m.map Prod.fst, cellExists c a = true
  words : ∀ e ∈ m, e.2 < 2 ^ c.width

theorem State.Inv.safeMemory {s : State} (h : s.Inv) : SafeMemory s.cfg s.mem :=
  ⟨h.memCanonical, h.memInWindows, h.wordsFit.mem⟩

/-- A write of a word to a cell that exists keeps memory safe. -/
theorem SafeMemory.write {c : Config} {m : Memory} (h : SafeMemory c m) {a v : Nat}
    (ha : cellExists c a = true) (hv : v < 2 ^ c.width) : SafeMemory c (m.write a v) where
  canonical := Memory.write_wf h.canonical a v
  inWindows k hk := (Memory.keys_write hk).elim (fun heq => heq ▸ ha) (h.inWindows k)
  words := Memory.write_lt h.words hv a

/-- So does writing an image of words to a row of cells that exist. -/
theorem SafeMemory.writeList {c : Config} {m : Memory} (h : SafeMemory c m) {a : Nat} {vs : List Nat}
    (ha : ∀ k, a ≤ k → k < a + vs.length → cellExists c k = true) (hv : ∀ v ∈ vs, v < 2 ^ c.width) :
    SafeMemory c (m.writeList a vs) where
  canonical := Memory.writeList_wf vs h.canonical a
  inWindows k hk := (Memory.keys_writeList vs hk).elim (fun hrow => ha k hrow.1 hrow.2) (h.inWindows k)
  words := Memory.writeList_lt vs h.words hv a

/-- Replacing the byte of a word leaves a word: the bits above it are the old ones. -/
theorem replaceByte_lt {w v : Nat} (hw : 8 ≤ w) (hv : v < 2 ^ w) (b : BitVec 8) :
    replaceByte v b < 2 ^ w := by
  obtain ⟨k, rfl⟩ := Nat.exists_eq_add_of_le hw
  have hb := b.isLt
  have hhigh : v / 2 ^ 8 < 2 ^ k := Nat.div_lt_of_lt_mul (by rwa [← pow_add])
  rw [pow_add, replaceByte]
  omega

/-- A completed execution from a safe state keeps memory safe: what it stores is a word, at a cell. -/
theorem Completed.safeMemory {i : Instr} {s t : State} (h : Completed s i t) (hs : s.Inv) :
    SafeMemory s.cfg t.mem := by
  obtain ⟨hwidth, -⟩ := Config.bounds hs.cfgWellFormed
  have hmem := hs.safeMemory
  have hfit := hs.wordsFit
  cases h with
  | call _ _ hcell => exact hmem.write hcell (Nat.mod_lt _ (Nat.two_pow_pos _))
  | ent _ _ hcell => exact hmem.write hcell hfit.bp
  | push _ hcell => exact hmem.write hcell hfit.ax
  | si _ _ hcell => exact hmem.write hcell hfit.ax
  | sc _ _ hcell => exact hmem.write hcell (replaceByte_lt (by omega) (hfit.read_lt _) _)
  | lea | imm | jmp | jz | jnz | adj | lev | li | lc | ret | exit | binary => exact hmem

/-! ## Registers -/

theorem pcAfter_lt (s : State) (n : Nat) : s.pcAfter n < 2 ^ s.cfg.width := Nat.mod_lt _ (Nat.two_pow_pos _)

/-- The operand of an instruction, if it has one, is a word (R83). -/
def OperandFits (c : Config) (i : Instr) : Prop := ∀ v, i.operand? = some v → v < 2 ^ c.width

theorem Completed.pc_lt {i : Instr} {s t : State} (h : Completed s i t) (hfit : s.WordsFit)
    (hi : OperandFits s.cfg i) : t.pc < 2 ^ s.cfg.width := by
  cases h with
  | jmp target | call target => exact hi target rfl
  | jz target =>
    dsimp only
    split_ifs
    · exact hi target rfl
    · exact pcAfter_lt s 2
  | jnz target =>
    dsimp only
    split_ifs
    · exact pcAfter_lt s 2
    · exact hi target rfl
  | lev | ret => exact hfit.read_lt _
  | lea | imm | ent | adj | li | lc | si | sc | push | exit | binary => exact pcAfter_lt s _

theorem Completed.bp_lt {i : Instr} {s t : State} (h : Completed s i t) (hfit : s.WordsFit) :
    t.bp < 2 ^ s.cfg.width := by
  cases h with
  | ent => exact cellBelow_lt _ _
  | lev => exact hfit.read_lt _
  | lea | imm | jmp | jz | jnz | call | adj | li | lc | si | sc | push | ret | exit | binary =>
    exact hfit.bp

theorem Completed.ax_lt {i : Instr} {s t : State} (h : Completed s i t) (hs : s.Inv)
    (hi : OperandFits s.cfg i) : t.ax < 2 ^ s.cfg.width := by
  obtain ⟨hwidth, -⟩ := Config.bounds hs.cfgWellFormed
  have hfit := hs.wordsFit
  cases h with
  | lea => exact wrap_lt _ _
  | imm v => exact hi v rfl
  | li => exact hfit.read_lt _
  | lc | sc => exact extendByte_lt hs.cfgWellFormed _
  | binary hf _ hv => exact binaryFunction_lt hf (by omega) (hfit.read_lt _) hfit.ax hv
  | jmp | jz | jnz | call | ent | adj | lev | si | push | ret | exit => exact hfit.ax

/-! ## Steps -/

/-- The invariant of a state with the status of a safe one, from its registers and memory. -/
theorem State.Inv.of_sameStatus {s t : State} (hs : s.Inv) (hsame : s.SameStatus t)
    (hpc : t.pc < 2 ^ s.cfg.width) (hsp : t.spInRange) (hbp : t.bp < 2 ^ s.cfg.width)
    (hax : t.ax < 2 ^ s.cfg.width) (hmem : SafeMemory s.cfg t.mem) : t.Inv := by
  obtain ⟨hcfg, hrun, hfault, hexit⟩ := hsame
  have hfit := hs.wordsFit
  rw [← hcfg] at hpc hbp hax hmem
  have hc : t.cfg.wellFormed = true := hcfg ▸ hs.cfgWellFormed
  exact {
    cfgWellFormed := hc
    wordsFit := {
      pc := hpc
      sp := hsp.2.trans_lt (stackTop_lt_two_pow_width hc)
      bp := hbp
      ax := hax
      mem := hmem.words
      faultPc := by rw [hfault, hcfg]; exact hfit.faultPc
      faultOpcode := by rw [hfault, hcfg]; exact hfit.faultOpcode
      faultAddr := by rw [hfault, hcfg]; exact hfit.faultAddr
      exitStatus := by rw [hexit, hcfg]; exact hfit.exitStatus }
    memCanonical := hmem.canonical
    memInWindows := hmem.inWindows
    spInRange := hsp
    faultIffFaulted := by rw [hfault, hrun]; exact hs.faultIffFaulted
    faultConsistent := by rw [hfault]; exact hs.faultConsistent
    statusOnlyHalted := by rw [hexit, hrun]; exact hs.statusOnlyHalted }

/-- A safe state that did not fault has no fault recorded (R30). -/
theorem State.Inv.code_eq_none {s : State} (hs : s.Inv) (h : s.runState ≠ .faulted) :
    s.fault.code = .none :=
  not_not.1 fun hcode => h (hs.faultIffFaulted.1 hcode)

/-- Halting or launching a safe state that did not fault keeps the invariant, when the exit status is a
word, and 0 unless it halts. -/
theorem State.Inv.setRunState {s : State} (hs : s.Inv) (h : s.runState ≠ .faulted) {r : RunState}
    (hr : r ≠ .faulted) {v : Nat} (hv : v < 2 ^ s.cfg.width) (hhalt : r ≠ .halted → v = 0) :
    ({ s with runState := r, exitStatus := v } : State).Inv :=
  { hs with
    wordsFit := { hs.wordsFit with exitStatus := hv }
    faultIffFaulted := ⟨fun hcode => absurd (hs.code_eq_none h) hcode, fun heq => absurd heq hr⟩
    statusOnlyHalted := hhalt }

/-- Moving PC to a word keeps the invariant. -/
theorem State.Inv.setPc {s : State} (hs : s.Inv) {pc : Nat} (hpc : pc < 2 ^ s.cfg.width) :
    ({ s with pc := pc } : State).Inv :=
  { hs with wordsFit := { hs.wordsFit with pc := hpc } }

/-- A completed execution of a RUNNING safe state keeps the invariant. -/
theorem Completed.inv {i : Instr} {s t : State} (h : Completed s i t) (hs : s.Inv)
    (hrun : s.runState = .running) (hi : OperandFits s.cfg i) : t.Inv := by
  rcases h.status with hsame | ⟨-, rfl⟩
  · exact hs.of_sameStatus hsame (h.pc_lt hs.wordsFit hi) (h.spInRange hs.cfgWellFormed hs.spInRange)
      (h.bp_lt hs.wordsFit) (h.ax_lt hs hi) (h.safeMemory hs)
  · have hnot : s.runState ≠ .faulted := by rw [hrun]; decide
    exact (hs.setPc (pcAfter_lt s 1)).setRunState hnot (by decide) (hs.wordsFit.read_lt s.sp)
      fun hne => absurd rfl hne

/-- The record of a cause agrees with itself (R30). -/
theorem FaultCause.record_consistent (e : FaultCause) (pc op : Nat) :
    (⟨e.code, pc, op, e.addr, e.seg, e.kind⟩ : FaultRecord).consistent := by
  obtain ⟨-, haddr, hkind, hother⟩ := e.fields_agree
  refine ⟨haddr, fun h => ?_, hkind⟩
  by_contra hcode
  rw [hother hcode] at h
  cases h

/-- A state that faults without having halted keeps the invariant, when its record is one of words that
agrees with itself. -/
theorem State.Inv.setFaulted {s : State} (hs : s.Inv) (h : s.runState ≠ .halted) {f : FaultRecord}
    (hcode : f.code ≠ .none) (hf : f.consistent) (hpc : f.pc < 2 ^ s.cfg.width)
    (hop : f.opcode < 2 ^ s.cfg.width) (haddr : f.addr < 2 ^ s.cfg.width) :
    ({ s with fault := f, runState := .faulted } : State).Inv :=
  { hs with
    wordsFit := { hs.wordsFit with faultPc := hpc, faultOpcode := hop, faultAddr := haddr }
    faultIffFaulted := ⟨fun _ => rfl, fun _ => hcode⟩
    faultConsistent := hf
    statusOnlyHalted := fun _ => hs.statusOnlyHalted h }

/-- Fault entry of a RUNNING safe state keeps the invariant, when the opcode and the cause's address are
words. -/
theorem State.Inv.enterFault {s : State} (hs : s.Inv) (hrun : s.runState = .running) {op : Nat}
    {e : FaultCause} (hop : op < 2 ^ s.cfg.width) (haddr : e.addr < 2 ^ s.cfg.width) :
    (enterFault op e s).Inv :=
  hs.setFaulted (by rw [hrun]; decide) e.fields_agree.1 (e.record_consistent _ _) hs.wordsFit.pc hop haddr

theorem operandFits_of_fetchDecode {s : State} {i : Instr} (hfit : s.WordsFit)
    (h : fetchDecode s = .ok i) : OperandFits s.cfg i := by
  obtain ⟨-, -, -, hv⟩ := fetchDecode_ok_cells h
  intro v ho
  exact hv v ho ▸ hfit.read_lt _

/-- Settles O3: a step is no change, a completed execution of a fetched instruction, or a fault entry with
a word for an opcode and for an address. -/
theorem everyStepKeepsTheInvariant : Obligations.EveryStepKeepsTheInvariant := by
  unfold Obligations.EveryStepKeepsTheInvariant
  intro s t hs h
  have hfit := hs.wordsFit
  rcases step_next_cases h with rfl | ⟨i, hrun, hfetch, hexec⟩ | ⟨hrun, hfetch⟩
  · exact hs
  · rcases exec_next_cases hexec with hdone | ⟨e, -, haddr, rfl⟩
    · exact hdone.inv hs hrun (operandFits_of_fetchDecode hfit hfetch)
    · exact hs.enterFault hrun (hfit.read_lt _) (haddr hfit)
  · obtain ⟨op, e, rfl, hop, haddr⟩ := fetchDecode_error_cases hfetch
    refine hs.enterFault hrun ?_ haddr
    rcases hop with rfl | rfl
    · exact Nat.two_pow_pos _
    · exact hfit.read_lt _

/-! ## Reset, load and start -/

theorem FaultRecord.consistent_empty : FaultRecord.empty.consistent := by decide

/-- Reset meets the invariant: no cell, no fault, SP at `STACK_TOP` (R35). -/
theorem State.Inv.initial {c : Config} (hc : c.wellFormed = true) : (State.initial c).Inv := by
  obtain ⟨-, hsp, -⟩ := initial_registers hc
  exact {
    cfgWellFormed := hc
    wordsFit := {
      pc := wrap_lt c.width c.textBase
      sp := wrap_lt c.width c.stackTop
      bp := wrap_lt c.width c.stackTop
      ax := Nat.two_pow_pos _
      mem := List.forall_mem_nil _
      faultPc := Nat.two_pow_pos _
      faultOpcode := Nat.two_pow_pos _
      faultAddr := Nat.two_pow_pos _
      exitStatus := Nat.two_pow_pos _ }
    memCanonical := ⟨.nil, List.forall_mem_nil _⟩
    memInWindows := List.forall_mem_nil _
    spInRange := by
      rw [State.spInRange, hsp]
      exact ⟨Nat.le_add_right _ _, le_rfl⟩
    faultIffFaulted := by simp [FaultRecord.empty]
    faultConsistent := FaultRecord.consistent_empty
    statusOnlyHalted := fun _ => rfl }

/-- Settles O2: both resets are `State.initial` of well-formed parameters. -/
theorem resetSatisfiesTheInvariant : Obligations.ResetSatisfiesTheInvariant := by
  unfold Obligations.ResetSatisfiesTheInvariant
  exact ⟨fun _ hc => .initial hc, .initial defaultConfig_wellFormed⟩

/-- Replacing a safe state's memory by a safe one keeps the invariant. -/
theorem State.Inv.setMem {s : State} (hs : s.Inv) {m : Memory} (hm : SafeMemory s.cfg m) :
    ({ s with mem := m } : State).Inv :=
  { hs with
    wordsFit := { hs.wordsFit with mem := hm.words }
    memCanonical := hm.canonical
    memInWindows := hm.inWindows }

/-- Loading into a row of cells that exist keeps the invariant, whether the image fits or not (R251). -/
theorem loadSegment_inv {g : Segment} {base len : Nat} {image : List Nat} {s t : State} (hs : s.Inv)
    (hrow : ∀ a, base ≤ a → a < base + len → cellExists s.cfg a = true)
    (h : loadSegment g base len image s = .next t) : t.Inv := by
  have hidle := idle_of_loadSegment h
  rcases le_or_gt image.length len with hlen | hlen
  · rw [loadSegment_of_fits hidle hlen] at h
    cases h
    refine hs.setMem (hs.safeMemory.writeList (fun a ha hend => ?_) fun v hv => ?_)
    · rw [List.length_map] at hend
      exact hrow a ha (by omega)
    · obtain ⟨u, -, rfl⟩ := List.mem_map.1 hv
      exact wrap_lt _ _
  · rw [loadSegment_of_long hidle hlen] at h
    cases h
    have hnot : s.runState ≠ .halted := by rw [hidle]; decide
    exact hs.setFaulted hnot nofun (by simp [FaultRecord.consistent]) (Nat.two_pow_pos _)
      (Nat.two_pow_pos _) (wrap_lt s.cfg.width (base + len : Nat))

theorem cellExists_of_inData {c : Config} {a : Nat} (h : inData c a = true) : cellExists c a = true := by
  simp [cellExists, h]

/-- Pushing a word keeps the invariant (R60). -/
theorem push_inv {v : Nat} {s t : State} (hs : s.Inv) (hv : v < 2 ^ s.cfg.width) (h : push v s = .ok t) :
    t.Inv := by
  have hfit := hs.wordsFit
  obtain ⟨-, htop⟩ := hs.spInRange
  rcases push_cases v s with ⟨-, hpush⟩ | ⟨hroom, hcell, hpush⟩ | ⟨-, -, hpush⟩ <;> rw [hpush] at h <;> cases h
  exact hs.of_sameStatus ⟨rfl, rfl, rfl, rfl⟩ hfit.pc (cellBelow_inRange hs.cfgWellFormed ⟨hroom, htop⟩)
    hfit.bp hfit.ax (hs.safeMemory.write hcell hv)

/-- The pushes of a launch frame keep the invariant and RUN_STATE: they push words (log entry 22). -/
theorem pushLaunchFrame_inv {frame : LaunchFrame} {s t : State} (hs : s.Inv)
    (h : pushLaunchFrame frame s = .ok t) : t.Inv ∧ t.runState = s.runState := by
  cases frame with
  | none => cases h; exact ⟨hs, rfl⟩
  | cMain argc argv stub =>
    unfold pushLaunchFrame at h
    dsimp only at h
    split at h
    · cases h
    next s₁ h₁ =>
      split at h
      · cases h
      next s₂ h₂ =>
        have hinv₁ := push_inv hs (wrap_lt _ _) h₁
        have hinv₂ := push_inv hinv₁ (wrap_lt _ _) h₂
        have hsame := ((sameStatus_of_push h₁).trans (sameStatus_of_push h₂)).trans (sameStatus_of_push h)
        exact ⟨push_inv hinv₂ (wrap_lt _ _) h, hsame.runState⟩

/-- A start that is answered is the pushes of the frame from the entry, RUNNING (R252). -/
theorem start_next {entry : Option Nat} {frame : LaunchFrame} {s t : State}
    (h : start entry frame s = .next t) :
    ∃ u, pushLaunchFrame frame { s with pc := entryPc s.cfg entry } = .ok u ∧
      t = { u with runState := .running } := by
  have hidle := idle_of_start h
  simp only [start, hidle] at h
  split_ifs at h
  split at h
  · next u hpush =>
    cases h
    exact ⟨u, by rw [← hpush, ← hidle]; rfl, rfl⟩
  · cases h
  · cases h

theorem start_inv {entry : Option Nat} {frame : LaunchFrame} {s t : State} (hs : s.Inv)
    (h : start entry frame s = .next t) : t.Inv := by
  have hidle := idle_of_start h
  obtain ⟨u, hpush, rfl⟩ := start_next h
  obtain ⟨hu, hrun⟩ := pushLaunchFrame_inv (hs.setPc (wrap_lt _ _)) hpush
  have hnot : u.runState ≠ .halted ∧ u.runState ≠ .faulted := by
    rw [hrun, hidle]
    decide
  exact hu.setRunState hnot.2 (by decide) hu.wordsFit.exitStatus fun _ => hu.statusOnlyHalted hnot.1

/-- Settles O4: an image goes to its own window, and a launch pushes words. -/
theorem loadAndStartKeepTheInvariant : Obligations.LoadAndStartKeepTheInvariant := by
  unfold Obligations.LoadAndStartKeepTheInvariant
  intro s t image entry frame hs
  refine ⟨loadSegment_inv hs fun a hlow hend => ?_, loadSegment_inv hs fun a hlow hend => ?_, start_inv hs⟩
  · exact cellExists_of_inText (inText_iff.2 ⟨hlow, hend⟩)
  · exact cellExists_of_inData (inData_iff.2 ⟨hlow, hend⟩)

/-- Settles O55: each of the three asks for IDLE. -/
theorem loadAndStartAreOfferedOnlyInIdle : Obligations.LoadAndStartAreOfferedOnlyInIdle := by
  unfold Obligations.LoadAndStartAreOfferedOnlyInIdle
  intro s image entry frame h
  unfold loadText loadData loadSegment start
  cases hrun : s.runState with
  | idle => exact absurd hrun h
  | running | halted | faulted => exact ⟨rfl, rfl, rfl⟩

/-- Settles O56: the frame is checked before anything is pushed. -/
theorem startRefusesAStubOutsideText : Obligations.StartRefusesAStubOutsideText := by
  unfold Obligations.StartRefusesAStubOutsideText
  intro s entry argc argv stub hidle hstub
  simp [start, hidle, LaunchFrame.allowed, hstub]

end Sys2Proof.Machine
end

section
/-! The operators as word operations (R161 to R177): on the values of bit-vectors they are the bit-vector
operations, and the quotient and remainder of the same operands fit together. -/

namespace Sys2Proof

/-- `wrap` is the word of a bit-vector that reads as the same integer. -/
theorem wrap_toInt {w : Nat} (v : BitVec w) : wrap w v.toInt = v.toNat := by
  rw [wrap_eq_ofInt, BitVec.ofInt_toInt]

/-- `wrap` of an integer that only needs balancing to read as a bit-vector is that bit-vector's word. -/
theorem wrap_of_toInt_eq_bmod {w : Nat} {z : Int} {v : BitVec w} (h : v.toInt = z.bmod (2 ^ w)) :
    wrap w z = v.toNat := by
  rw [wrap_eq_ofInt, BitVec.eq_of_toInt_eq ((BitVec.toInt_ofInt z).trans h.symm)]

/-- The remainder of a truncated division, as R176 writes it. -/
theorem sub_tdiv_mul (a b : Int) : a - Int.tdiv a b * b = Int.tmod a b := by
  rw [Int.tmod_def, mul_comm]

/-- A truncated remainder has the sign of the dividend, or is 0. -/
theorem tmod_mul_nonneg (a b : Int) : 0 ≤ Int.tmod a b * a := by
  rcases le_total 0 a with ha | ha
  · exact mul_nonneg (Int.tmod_nonneg b ha) ha
  · have hneg : 0 ≤ Int.tmod (-a) b := Int.tmod_nonneg b (neg_nonneg.2 ha)
    rw [Int.neg_tmod] at hneg
    exact mul_nonneg_of_nonpos_of_nonpos (neg_nonneg.1 hneg) ha

theorem abs_tmod_lt (a : Int) {b : Int} (hb : b ≠ 0) : |Int.tmod a b| < |b| := by
  rw [Int.abs_eq_natAbs, Int.abs_eq_natAbs, Int.natAbs_tmod]
  exact_mod_cast Nat.mod_lt _ (Int.natAbs_pos.2 hb)

theorem wrap_modEq (w : Nat) (z : Int) : (wrap w z : Int) ≡ z [ZMOD 2 ^ w] := by
  rw [wrap_cast]
  exact Int.mod_modEq z _

theorem sint_modEq (w v : Nat) : sint w v ≡ v [ZMOD 2 ^ w] := sint_emod w v

end Sys2Proof

namespace Sys2Proof.Machine

/-! ## Bit-vectors -/

section
variable {w : Nat} (l r : BitVec w)

theorem aluAdd_toNat : aluAdd w l.toNat r.toNat = (l + r).toNat :=
  (wrap_add_nat w _ _).trans (BitVec.toNat_add l r).symm

theorem aluSub_toNat : aluSub w l.toNat r.toNat = (l - r).toNat := by
  rw [aluSub, wrap_eq_ofInt, sub_eq_add_neg, BitVec.ofInt_add, BitVec.ofInt_neg, BitVec.ofInt_natCast,
    BitVec.ofInt_natCast, BitVec.ofNat_toNat, BitVec.ofNat_toNat, BitVec.setWidth_eq, BitVec.setWidth_eq,
    ← sub_eq_add_neg]

theorem aluMul_toNat : aluMul w l.toNat r.toNat = (l * r).toNat :=
  (aluMul_eq w _ _).trans (BitVec.toNat_mul l r).symm

theorem aluShl_toNat : aluShl w l.toNat r.toNat = (l <<< (r.toNat % 2 ^ Nat.log2 w)).toNat := by
  rw [BitVec.toNat_shiftLeft, Nat.shiftLeft_eq, ← wrap_natCast, aluShl, shiftCount]
  push_cast
  rfl

theorem aluShr_toNat :
    aluShr w l.toNat r.toNat = (l.sshiftRight (r.toNat % 2 ^ Nat.log2 w)).toNat := by
  have hpow : (0 : Int) ≤ 2 ^ shiftCount w r.toNat := (two_pow_pos_int _).le
  rw [aluShr, Int.fdiv_eq_ediv_of_nonneg _ hpow, sint_toNat, wrap_eq_ofInt, BitVec.sshiftRight,
    Int.shiftRight_eq_div_pow, shiftCount]
  push_cast
  rfl

theorem aluDiv_toNat (hr : r.toNat ≠ 0) : aluDiv w l.toNat r.toNat = .ok (l.sdiv r).toNat := by
  rw [aluDiv_of_ne hr, sint_toNat, sint_toNat, wrap_of_toInt_eq_bmod (BitVec.toInt_sdiv l r)]

theorem aluMod_toNat (hr : r.toNat ≠ 0) : aluMod w l.toNat r.toNat = .ok (l.srem r).toNat := by
  rw [aluMod_of_ne hr, sint_toNat, sint_toNat, sub_tdiv_mul, ← BitVec.toInt_srem, wrap_toInt]

theorem aluEq_toNat : aluEq l.toNat r.toNat = if l = r then 1 else 0 := by
  rw [aluEq, boolWord_decide, if_congr BitVec.toNat_inj rfl rfl]

theorem aluNe_toNat : aluNe l.toNat r.toNat = if l = r then 0 else 1 :=
  boolWord_decide_of_iff_not (not_congr BitVec.toNat_inj)

theorem aluLt_toNat : aluLt w l.toNat r.toNat = if l.slt r then 1 else 0 := by
  rw [aluLt, sint_toNat, sint_toNat, ← BitVec.slt_eq_decide, boolWord]

theorem aluLe_toNat : aluLe w l.toNat r.toNat = if l.sle r then 1 else 0 := by
  rw [aluLe, sint_toNat, sint_toNat, ← BitVec.sle_eq_decide, boolWord]

/-- GT is LT with the operands exchanged, GE is LE with them exchanged. -/
theorem aluGt_toNat : aluGt w l.toNat r.toNat = if r.slt l then 1 else 0 := aluLt_toNat r l

theorem aluGe_toNat : aluGe w l.toNat r.toNat = if r.sle l then 1 else 0 := aluLe_toNat r l

end

/-- Settles O40: one lemma per operator. -/
theorem operatorsAreTheWordOperations : Obligations.OperatorsAreTheWordOperations := by
  unfold Obligations.OperatorsAreTheWordOperations
  intro w l r
  have hne : r ≠ 0 → r.toNat ≠ 0 := fun hr hzero => hr (BitVec.eq_of_toNat_eq hzero)
  exact ⟨(BitVec.toNat_or ..).symm, (BitVec.toNat_xor ..).symm, (BitVec.toNat_and ..).symm,
    aluAdd_toNat l r, aluSub_toNat l r, aluMul_toNat l r, aluShl_toNat l r, aluShr_toNat l r,
    fun hr => ⟨aluDiv_toNat l r (hne hr), aluMod_toNat l r (hne hr)⟩, aluEq_toNat l r, aluNe_toNat l r,
    aluLt_toNat l r, aluLe_toNat l r, aluGt_toNat l r, aluGe_toNat l r⟩

/-! ## Quotient and remainder -/

theorem exec_div_ax {s q : State} (hc : s.cfg.wellFormed = true) (htop : s.hasTop) (hax : s.ax ≠ 0)
    (h : exec .div s = .next q) :
    q.ax = wrap s.cfg.width (Int.tdiv (s.signed s.top) (s.signed s.ax)) := by
  rw [exec_div, transact_binaryOp_of_top hc htop (aluDiv_of_ne hax)] at h
  cases h
  rfl

theorem exec_mod_ax {s m : State} (hc : s.cfg.wellFormed = true) (htop : s.hasTop) (hax : s.ax ≠ 0)
    (h : exec .mod s = .next m) :
    m.ax = wrap s.cfg.width
      (s.signed s.top - Int.tdiv (s.signed s.top) (s.signed s.ax) * s.signed s.ax) := by
  rw [exec_mod, transact_binaryOp_of_top hc htop (aluMod_of_ne hax)] at h
  cases h
  rfl

/-- The division law on words: modulo `2^w` neither `wrap` nor the sign of a reading matters (R177). -/
theorem quotient_remainder_mod {w l r : Nat} (hl : l < 2 ^ w) (t : Int) :
    (wrap w t * r + wrap w (sint w l - t * sint w r)) % 2 ^ w = l := by
  have hlaw : ((wrap w t * r + wrap w (sint w l - t * sint w r) : Nat) : Int) ≡ l [ZMOD 2 ^ w] := by
    push_cast
    calc (wrap w t * r + wrap w (sint w l - t * sint w r) : Int)
      _ ≡ t * sint w r + (sint w l - t * sint w r) [ZMOD 2 ^ w] :=
        ((wrap_modEq w t).mul (sint_modEq w r).symm).add (wrap_modEq w _)
      _ = sint w l := add_sub_cancel _ _
      _ ≡ l [ZMOD 2 ^ w] := sint_modEq w l
  have hmod : (wrap w t * r + wrap w (sint w l - t * sint w r)) % 2 ^ w = l % 2 ^ w := by
    exact_mod_cast hlaw
  rw [hmod, Nat.mod_eq_of_lt hl]

/-- Settles O39: the law modulo `2^W` holds of any quotient; the exact one and the remainder's size and
sign are those of truncated division. -/
theorem quotientAndRemainderAgree : Obligations.QuotientAndRemainderAgree := by
  unfold Obligations.QuotientAndRemainderAgree
  intro s q m hc hfit htop hax hdiv hmod
  obtain ⟨hwidth, -⟩ := Config.bounds hc
  have hpos : 0 < s.cfg.width := by omega
  have hltop : s.top < 2 ^ s.cfg.width := hfit.read_lt s.sp
  rw [exec_div_ax hc htop hax hdiv, exec_mod_ax hc htop hax hmod]
  have hrem := sint_wrap_remainder hpos hfit.ax hax s.top
  simp only [State.signed]
  refine ⟨quotient_remainder_mod hltop _, fun hcorner => ?_, ?_, ?_⟩
  · rw [sint_wrap_tdiv hpos hltop, if_neg hcorner, hrem, add_sub_cancel]
  · rw [hrem, sub_tdiv_mul]
    exact abs_tmod_lt _ (sint_ne_zero hfit.ax hax)
  · rw [hrem, sub_tdiv_mul]
    exact tmod_mul_nonneg _ _

end Sys2Proof.Machine
end

section
/-! A run that reports Exited (R202, R237, R255): the step that halts is an executed EXIT, and `run` gets
to its steps by reset, both loads and start. -/

namespace Sys2Proof.Machine

/-- A RUNNING step that ends HALTED executed EXIT (R200). -/
theorem exit_of_step_halted {s t : State} (hrun : s.runState = .running) (hstep : step s = .next t)
    (ht : t.runState = .halted) : fetchDecode s = .ok .exit ∧ t = s.afterExit := by
  rcases step_next_cases hstep with rfl | ⟨i, -, hfetch, hexec⟩ | ⟨-, hfetch⟩
  · rw [hrun] at ht
    cases ht
  · rcases exec_next_status hexec with hsame | ⟨rfl, rfl⟩ | ⟨e, rfl⟩
    · rw [hsame.runState, hrun] at ht
      cases ht
    · exact ⟨hfetch, rfl⟩
    · cases ht
  · obtain ⟨e, rfl⟩ := fetchDecode_error hfetch
    cases ht

/-- A report of Exited is that of a HALTED state (R235). -/
theorem halted_of_stepReport {s : State} {v : Nat} (h : stepReport s = .exited v) :
    s.runState = .halted ∧ v = s.exitStatus := by
  unfold stepReport at h
  cases hrun : s.runState with
  | halted =>
    rw [hrun] at h
    cases h
    exact ⟨rfl, rfl⟩
  | idle | running | faulted => rw [hrun] at h; cases h

/-- A report of Continue is that of a RUNNING state (R235). -/
theorem running_of_stepReport {s : State} (h : stepReport s = .continues) : s.runState = .running := by
  unfold stepReport at h
  cases hrun : s.runState with
  | running => rfl
  | idle | halted | faulted => rw [hrun] at h; cases h

/-- A run that reports Exited halted in its first step or goes on from a RUNNING state. -/
theorem runSteps_exited_cases {fuel v : Nat} {s t : State}
    (h : runSteps (fuel + 1) s = .next (.exited v, t)) :
    (step s = .next t ∧ t.runState = .halted ∧ v = t.exitStatus) ∨
      ∃ u, step s = .next u ∧ u.runState = .running ∧ runSteps fuel u = .next (.exited v, t) := by
  cases hstep : step s with
  | fault f => simp [runSteps, hstep] at h
  | refused r => simp [runSteps, hstep] at h
  | next u =>
    simp only [runSteps, hstep] at h
    cases hreport : stepReport u with
    | continues => exact .inr ⟨u, rfl, running_of_stepReport hreport, by simpa only [hreport] using h⟩
    | exited status =>
      simp only [hreport] at h
      cases h
      exact .inl ⟨rfl, halted_of_stepReport hreport⟩
    | error f => simp [hreport] at h
    | notStarted => simp [hreport] at h

/-- A run from a RUNNING state that reports Exited reached an EXIT, whose stack top it reports. -/
theorem reaches_exit_of_runSteps {fuel v : Nat} {s t : State} (hrun : s.runState = .running)
    (h : runSteps fuel s = .next (.exited v, t)) :
    ∃ k u, k < fuel ∧ Host.Core.run Sys2Proof.core k s = .next u ∧ u.runState = .running ∧
      fetchDecode u = .ok .exit ∧ v = u.top ∧ step u = .next t := by
  induction fuel generalizing s with
  | zero =>
    simp only [runSteps, stepReport_of_running hrun] at h
    cases h
  | succ fuel ih =>
    rcases runSteps_exited_cases h with ⟨hstep, hhalted, rfl⟩ | ⟨u, hstep, hu, hrest⟩
    · obtain ⟨hfetch, rfl⟩ := exit_of_step_halted hrun hstep hhalted
      exact ⟨0, s, Nat.succ_pos _, core_run_zero s, hrun, hfetch, rfl, hstep⟩
    · obtain ⟨k, w, hk, hreach, hexit⟩ := ih hu hrest
      exact ⟨k + 1, w, Nat.succ_lt_succ hk, (core_run_succ k hstep).trans hreach, hexit⟩

/-! ## `run` -/

/-- A load that is answered leaves the block IDLE or FAULTED (R251). -/
theorem runState_of_loadSegment {g : Segment} {base len : Nat} {image : List Nat} {s t : State}
    (h : loadSegment g base len image s = .next t) : t.runState = .idle ∨ t.runState = .faulted := by
  have hidle := idle_of_loadSegment h
  rcases le_or_gt image.length len with hlen | hlen
  · rw [loadSegment_of_fits hidle hlen] at h
    cases h
    exact .inl hidle
  · rw [loadSegment_of_long hidle hlen] at h
    cases h
    exact .inr rfl

/-- A start that is answered leaves the block RUNNING (R252). -/
theorem running_of_start {entry : Option Nat} {frame : LaunchFrame} {s t : State}
    (h : start entry frame s = .next t) : t.runState = .running := by
  obtain ⟨u, -, rfl⟩ := start_next h
  rfl

/-- `run` on two images that were loaded is start and the steps (R237). -/
theorem run_of_loaded {s s₁ s₂ : State} {program data : List Nat}
    (htext : loadText program (hostReset s) = .next s₁) (hdata : loadData data s₁ = .next s₂)
    (hidle : s₂.runState = .idle) (fuel : Nat) (entry : Option Nat) (frame : LaunchFrame) :
    run fuel program data entry frame s = startAndRun fuel entry frame s₂ := by
  have hreport₁ := stepReport_of_idle (idle_of_loadSegment hdata)
  simp only [run, htext, hreport₁, hdata, stepReport_of_idle hidle]

/-- A `run` that reports Exited loaded its TEXT image: a refused one ends it with an error (R251). -/
theorem text_loaded_of_run_exited {s t : State} {program data : List Nat} {entry : Option Nat}
    {frame : LaunchFrame} {v fuel : Nat}
    (h : run fuel program data entry frame s = .next (.exited v, t)) :
    ∃ s₁, loadText program (hostReset s) = .next s₁ ∧ s₁.runState = .idle := by
  cases htext : loadText program (hostReset s) with
  | fault f => simp [run, htext] at h
  | refused r => simp [run, htext] at h
  | next s₁ =>
    rcases runState_of_loadSegment htext with hidle | hfaulted
    · exact ⟨s₁, rfl, hidle⟩
    · rw [run_of_text_faulted htext hfaulted] at h
      cases h

/-- And its DATA image. -/
theorem data_loaded_of_run_exited {s s₁ t : State} {program data : List Nat} {entry : Option Nat}
    {frame : LaunchFrame} {v fuel : Nat}
    (h : run fuel program data entry frame s = .next (.exited v, t))
    (htext : loadText program (hostReset s) = .next s₁) (hidle₁ : s₁.runState = .idle) :
    ∃ s₂, loadData data s₁ = .next s₂ ∧ s₂.runState = .idle := by
  cases hdata : loadData data s₁ with
  | fault f => simp [run, htext, stepReport_of_idle hidle₁, hdata] at h
  | refused r => simp [run, htext, stepReport_of_idle hidle₁, hdata] at h
  | next s₂ =>
    rcases runState_of_loadSegment hdata with hidle | hfaulted
    · exact ⟨s₂, rfl, hidle⟩
    · rw [run_of_data_faulted htext hdata hfaulted] at h
      cases h

/-- Settles O43: the steps by `reaches_exit_of_runSteps`; `run` stops before its steps with another report
than Exited. -/
theorem exitedMeansAnExitWasExecuted : Obligations.ExitedMeansAnExitWasExecuted := by
  unfold Obligations.ExitedMeansAnExitWasExecuted
  refine ⟨fun s t v fuel => reaches_exit_of_runSteps, fun s t program data entry frame v fuel h => ?_⟩
  obtain ⟨s₁, htext, hidle₁⟩ := text_loaded_of_run_exited h
  obtain ⟨s₂, hdata, hidle₂⟩ := data_loaded_of_run_exited h htext hidle₁
  rw [run_of_loaded htext hdata hidle₂, startAndRun] at h
  cases hstart : start entry frame s₂ with
  | fault f => simp [hstart] at h
  | refused r => simp [hstart] at h
  | next s₃ =>
    simp only [hstart] at h
    exact ⟨s₁, s₂, s₃, htext, hdata, hstart, running_of_start hstart, h⟩

end Sys2Proof.Machine
end

section
/-! The column "reads" of R26: a change of a register that an instruction does not read passes through its
execution unchanged. -/

namespace Sys2Proof.Machine

/-- A change of AX, BP and SP, each by a function. -/
def State.mapRegs (ax bp sp : Nat → Nat) (s : State) : State :=
  { s with ax := ax s.ax, bp := bp s.bp, sp := sp s.sp }

/-- The change `g` passes through the pseudocode: it makes no difference but to be found in the outcome. -/
def Carries (g : State → State) (body : State → Except Stop State) : Prop :=
  ∀ s, body (g s) = (body s).map g

/-- A change of registers that passes through the pseudocode passes through the instruction (R9): fault
entry records none of the three registers. -/
theorem transact_mapRegs {ax bp sp : Nat → Nat} {body : State → Except Stop State}
    (h : Carries (State.mapRegs ax bp sp) body) (n : Nat) (s : State) :
    transact n body (s.mapRegs ax bp sp) = mapNext (State.mapRegs ax bp sp) (transact n body s) := by
  have hbody : body (advance n (s.mapRegs ax bp sp)) = (body (advance n s)).map (State.mapRegs ax bp sp) :=
    h (advance n s)
  unfold transact
  rw [hbody]
  cases body (advance n s) with
  | ok t => rfl
  | error stop => cases stop <;> rfl

/-! ## The shared operations -/

section
variable (ax bp sp : Nat → Nat)

theorem push_mapRegs (v : Nat) (s : State) :
    push v (s.mapRegs ax bp id) = (push v s).map (State.mapRegs ax bp id) := by
  by_cases hfull : s.sp ≤ s.cfg.stackBase
  · rw [push_of_full hfull]
    exact push_of_full (s := s.mapRegs ax bp id) hfull v
  · cases hcell : cellExists s.cfg (wrap s.cfg.width (s.sp - 1)) <;>
      simp [push, writeCell, State.mapRegs, hfull, hcell, Except.map]

theorem pop_mapRegs (s : State) :
    pop (s.mapRegs ax bp id) = (pop s).map (Prod.map id (State.mapRegs ax bp id)) := by
  by_cases hempty : s.cfg.stackTop ≤ s.sp
  · rw [pop_of_empty hempty]
    exact pop_of_empty hempty
  · cases hcell : cellExists s.cfg s.sp <;>
      simp [pop, readCell, State.mapRegs, hempty, hcell, Except.map]

theorem setSP_mapRegs (z : Int) (s : State) :
    setSP z (s.mapRegs ax bp id) = (setSP z s).map (State.mapRegs ax bp id) := by
  rcases setSP_cases z s with ⟨hlow, h⟩ | ⟨-, hhigh, h⟩ | ⟨hlow, hhigh, h⟩ <;> rw [h]
  · exact setSP_of_below hlow
  · exact setSP_of_above hhigh
  · exact setSP_of_range hlow hhigh

theorem memWrite_mapRegs (a v : Nat) (s : State) :
    memWrite a v (s.mapRegs ax bp sp) = (memWrite a v s).map (State.mapRegs ax bp sp) := by
  have hcfg : (s.mapRegs ax bp sp).cfg = s.cfg := rfl
  rw [memWrite_eq, memWrite_eq, hcfg]
  split_ifs <;> rfl

theorem memRead_mapRegs (a : Nat) (s : State) : memRead a (s.mapRegs ax bp sp) = memRead a s := rfl

theorem memReadByte_mapRegs (a : Nat) (s : State) :
    memReadByte a (s.mapRegs ax bp sp) = memReadByte a s := rfl

/-! ## The pseudocodes, each under the changes of the registers it does not read -/

theorem ax_mapRegs (s : State) : (s.mapRegs id bp sp).ax = s.ax := rfl

theorem carries_imm (v : Nat) : Carries (State.mapRegs id bp sp) (pseudoImm v) := fun _ => rfl

theorem carries_lea (n : Nat) : Carries (State.mapRegs id id sp) (pseudoLea n) := fun _ => rfl

theorem carries_jmp (target : Nat) : Carries (State.mapRegs ax bp sp) (pseudoJmp target) := fun _ => rfl

theorem carries_jz (target : Nat) : Carries (State.mapRegs id bp sp) (pseudoJz target) := fun s => by
  rw [pseudoJz_eq, pseudoJz_eq, ax_mapRegs]
  split_ifs <;> rfl

theorem carries_jnz (target : Nat) : Carries (State.mapRegs id bp sp) (pseudoJnz target) := fun s => by
  rw [pseudoJnz_eq, pseudoJnz_eq, ax_mapRegs]
  split_ifs <;> rfl

theorem carries_li : Carries (State.mapRegs id bp sp) pseudoLi := fun s => by
  rw [pseudoLi, pseudoLi, ax_mapRegs, memRead_mapRegs]
  cases memRead s.ax s <;> rfl

theorem carries_lc : Carries (State.mapRegs id bp sp) pseudoLc := fun s => by
  rw [pseudoLc, pseudoLc, ax_mapRegs, memReadByte_mapRegs]
  cases memReadByte s.ax s <;> rfl

theorem carries_si : Carries (State.mapRegs id bp id) pseudoSi := fun s => by
  rw [pseudoSi, pseudoSi, pop_mapRegs]
  cases pop s with
  | error e => rfl
  | ok popped =>
    obtain ⟨a, u⟩ := popped
    exact memWrite_mapRegs id bp id a u.ax u

theorem carries_sc : Carries (State.mapRegs id bp id) pseudoSc := fun s => by
  rw [pseudoSc, pseudoSc, pop_mapRegs]
  cases pop s with
  | error e => rfl
  | ok popped =>
    obtain ⟨a, u⟩ := popped
    have hwrite : memWriteByte a (lowByte u.ax) (u.mapRegs id bp id) =
        (memWriteByte a (lowByte u.ax) u).map (State.mapRegs id bp id) := memWrite_mapRegs id bp id a _ u
    simp only [Except.map, Prod.map, id_eq, ax_mapRegs, hwrite]
    cases memWriteByte a (lowByte u.ax) u <;> rfl

theorem carries_push : Carries (State.mapRegs id bp id) pseudoPush := fun s => push_mapRegs id bp s.ax s

theorem carries_call (target : Nat) : Carries (State.mapRegs ax bp id) (pseudoCall target) := fun s => by
  have hpush : push (s.mapRegs ax bp id).pc (s.mapRegs ax bp id) =
      (push s.pc s).map (State.mapRegs ax bp id) := push_mapRegs ax bp s.pc s
  rw [pseudoCall, pseudoCall, hpush]
  cases push s.pc s <;> rfl

theorem carries_ret : Carries (State.mapRegs ax bp id) pseudoRet := fun s => by
  rw [pseudoRet, pseudoRet, pop_mapRegs]
  cases pop s <;> rfl

theorem carries_ent (n : Nat) : Carries (State.mapRegs ax id id) (pseudoEnt n) := fun s => by
  have hpush : push (s.mapRegs ax id id).bp (s.mapRegs ax id id) =
      (push s.bp s).map (State.mapRegs ax id id) := push_mapRegs ax id s.bp s
  rw [pseudoEnt, pseudoEnt, hpush]
  cases push s.bp s with
  | error e => rfl
  | ok u => exact setSP_mapRegs ax id _ { u with bp := u.sp }

theorem carries_adj (n : Nat) : Carries (State.mapRegs ax bp id) (pseudoAdj n) := fun s =>
  setSP_mapRegs ax bp _ s

theorem carries_lev : Carries (State.mapRegs ax id id) pseudoLev := fun s => by
  have hset : setSP (s.mapRegs ax id id).bp (s.mapRegs ax id id) =
      (setSP s.bp s).map (State.mapRegs ax id id) := setSP_mapRegs ax id s.bp s
  rw [pseudoLev, pseudoLev, hset]
  cases setSP s.bp s with
  | error e => rfl
  | ok u =>
    simp only [Except.map, pop_mapRegs]
    cases pop u with
    | error e => rfl
    | ok popped =>
      obtain ⟨savedBp, u'⟩ := popped
      have hpop : pop { u'.mapRegs ax id id with bp := savedBp } =
          (pop { u' with bp := savedBp }).map (Prod.map id (State.mapRegs ax id id)) :=
        pop_mapRegs ax id { u' with bp := savedBp }
      simp only [Prod.map, id_eq, hpop]
      cases pop { u' with bp := savedBp } <;> rfl

theorem carries_exit : Carries (State.mapRegs ax bp id) pseudoExit := fun s => by
  by_cases htop : s.cfg.stackTop ≤ s.sp
  · rw [pseudoExit_of_empty htop]
    exact pseudoExit_of_empty (s := s.mapRegs ax bp id) htop
  · cases hcell : cellExists s.cfg s.sp <;>
      simp [pseudoExit, readCell, State.mapRegs, htop, hcell, Except.map]

theorem carries_binaryOp (f : Nat → Nat → Nat → Except Stop Nat) :
    Carries (State.mapRegs id bp id) (binaryOp f) := fun s => by
  rw [binaryOp, binaryOp, pop_mapRegs]
  cases pop s with
  | error e => rfl
  | ok popped =>
    obtain ⟨left, u⟩ := popped
    have hcfg : (u.mapRegs id bp id).cfg = u.cfg := rfl
    simp only [Except.map, Prod.map, id_eq, ax_mapRegs, hcfg]
    cases f u.cfg.width left u.ax <;> rfl

end

/-! ## Each register -/

/-- AX, for the instructions that neither read nor write it. -/
theorem exec_setAx {i : Instr} (hr : i.mnemonic.readsAx = false) (hw : i.mnemonic.writesAx = false)
    (s : State) (x : Nat) :
    exec i { s with ax := x } = mapNext (fun t => { t with ax := x }) (exec i s) := by
  cases i with
  | jmp target => exact transact_mapRegs (carries_jmp (fun _ => x) id id target) 2 s
  | call target => exact transact_mapRegs (carries_call (fun _ => x) id target) 2 s
  | ent n => exact transact_mapRegs (carries_ent (fun _ => x) n) 2 s
  | adj n => exact transact_mapRegs (carries_adj (fun _ => x) id n) 2 s
  | lev => exact transact_mapRegs (carries_lev fun _ => x) 1 s
  | ret => exact transact_mapRegs (carries_ret (fun _ => x) id) 1 s
  | exit => exact transact_mapRegs (carries_exit (fun _ => x) id) 1 s
  | imm | lea => cases hw
  | jz | jnz | li | lc | si | sc | push | or | xor | and | eq | ne | lt | gt | le | ge | shl | shr | add
  | sub | mul | div | mod => cases hr

/-- IMM and LEA write AX without reading it: its old value is lost. -/
theorem exec_overwrites_ax {i : Instr} (hr : i.mnemonic.readsAx = false) (hw : i.mnemonic.writesAx = true)
    (s : State) (x : Nat) : exec i { s with ax := x } = exec i s := by
  cases i with
  | imm | lea => rfl
  | jmp | call | ent | adj | lev | ret | exit | jz | jnz | si | push => cases hw
  | li | lc | sc | or | xor | and | eq | ne | lt | gt | le | ge | shl | shr | add | sub | mul | div
  | mod => cases hr

/-- BP, which no instruction writes without reading it. -/
theorem exec_setBp {i : Instr} (hr : i.mnemonic.readsBp = false) (s : State) (x : Nat) :
    exec i { s with bp := x } = mapNext (fun t => { t with bp := x }) (exec i s) := by
  cases i with
  | imm v => exact transact_mapRegs (carries_imm (fun _ => x) id v) 2 s
  | jmp target => exact transact_mapRegs (carries_jmp id (fun _ => x) id target) 2 s
  | call target => exact transact_mapRegs (carries_call id (fun _ => x) target) 2 s
  | jz target => exact transact_mapRegs (carries_jz (fun _ => x) id target) 2 s
  | jnz target => exact transact_mapRegs (carries_jnz (fun _ => x) id target) 2 s
  | adj n => exact transact_mapRegs (carries_adj id (fun _ => x) n) 2 s
  | li => exact transact_mapRegs (carries_li (fun _ => x) id) 1 s
  | lc => exact transact_mapRegs (carries_lc (fun _ => x) id) 1 s
  | si => exact transact_mapRegs (carries_si fun _ => x) 1 s
  | sc => exact transact_mapRegs (carries_sc fun _ => x) 1 s
  | push => exact transact_mapRegs (carries_push fun _ => x) 1 s
  | ret => exact transact_mapRegs (carries_ret id fun _ => x) 1 s
  | exit => exact transact_mapRegs (carries_exit id fun _ => x) 1 s
  | lea | ent | lev => cases hr
  | or | xor | and | eq | ne | lt | gt | le | ge | shl | shr | add | sub | mul | div | mod =>
    exact transact_mapRegs (carries_binaryOp (fun _ => x) _) 1 s

/-- SP, for the instructions that neither read nor write it. -/
theorem exec_setSp {i : Instr} (hr : i.mnemonic.readsSp = false) (hw : i.mnemonic.writesSp = false)
    (s : State) (x : Nat) :
    exec i { s with sp := x } = mapNext (fun t => { t with sp := x }) (exec i s) := by
  cases i with
  | imm v => exact transact_mapRegs (carries_imm id (fun _ => x) v) 2 s
  | lea n => exact transact_mapRegs (carries_lea (fun _ => x) n) 2 s
  | jmp target => exact transact_mapRegs (carries_jmp id id (fun _ => x) target) 2 s
  | jz target => exact transact_mapRegs (carries_jz id (fun _ => x) target) 2 s
  | jnz target => exact transact_mapRegs (carries_jnz id (fun _ => x) target) 2 s
  | li => exact transact_mapRegs (carries_li id fun _ => x) 1 s
  | lc => exact transact_mapRegs (carries_lc id fun _ => x) 1 s
  | lev => cases hw
  | call | ent | adj | ret | exit | si | sc | push | or | xor | and | eq | ne | lt | gt | le | ge | shl
  | shr | add | sub | mul | div | mod => cases hr

/-- Only LEV writes SP without reading it (R26). -/
theorem eq_lev_of_writesSp {i : Instr} (hr : i.mnemonic.readsSp = false) (hw : i.mnemonic.writesSp = true) :
    i = .lev := by
  cases i with
  | lev => rfl
  | lea | imm | jmp | jz | jnz | li | lc => cases hw
  | call | ent | adj | ret | exit | si | sc | push | or | xor | and | eq | ne | lt | gt | le | ge | shl
  | shr | add | sub | mul | div | mod => cases hr

/-- What a change of SP to `x` leaves in the outcome `t` of an instruction that does not read SP: nothing
where the instruction completed and wrote SP, else SP at `x`. -/
def keepSp (k : Mnemonic) (x : Nat) (t : State) : State :=
  if k.writesSp ∧ t.runState ≠ .faulted then t else { t with sp := x }

theorem keepSp_of_not_writesSp {k : Mnemonic} (hw : k.writesSp = false) (x : Nat) :
    keepSp k x = fun t => { t with sp := x } := by
  funext t
  simp [keepSp, hw]

theorem keepSp_of_completed {k : Mnemonic} (hw : k.writesSp = true) (x : Nat) {t : State}
    (ht : t.runState ≠ .faulted) : keepSp k x t = t := if_pos ⟨hw, ht⟩

/-- LEV's old SP is lost when it completes. -/
theorem exec_lev_setSp {s : State} (hs : s.runState ≠ .faulted) (x : Nat) :
    exec .lev { s with sp := x } = mapNext (keepSp .lev x) (exec .lev s) := by
  have hsame : pseudoLev (advance 1 { s with sp := x }) = pseudoLev (advance 1 s) := rfl
  rw [exec_lev, exec_lev]
  unfold transact
  rw [hsame]
  cases h : pseudoLev (advance 1 s) with
  | ok t =>
    have ht : t.runState ≠ .faulted := (keepsStatus_lev h).runState ▸ hs
    simp only [mapNext, keepSp_of_completed (k := .lev) rfl x ht]
  | error stop => cases stop <;> rfl

/-- Settles O45, register by register; only LEV writes SP without reading it. -/
theorem unreadRegistersHaveNoInfluence : Obligations.UnreadRegistersHaveNoInfluence := by
  unfold Obligations.UnreadRegistersHaveNoInfluence
  intro i s x
  refine ⟨fun hr => ?_, fun hr => exec_setBp hr s x, fun hr hs => ?_⟩
  · cases hw : i.mnemonic.writesAx with
    | true => exact exec_overwrites_ax hr hw s x
    | false => exact exec_setAx hr hw s x
  · change exec i { s with sp := x } = mapNext (keepSp i.mnemonic x) (exec i s)
    cases hw : i.mnemonic.writesSp with
    | true =>
      obtain rfl := eq_lev_of_writesSp hr hw
      exact exec_lev_setSp hs x
    | false => rw [keepSp_of_not_writesSp hw, exec_setSp hr hw]

end Sys2Proof.Machine
end

section
/-! The fault table (R216): what faults in execution raised a fault of its row, and every fault of every row
is raised from one of two safe RUNNING states. -/

namespace Sys2Proof.Machine

/-- An execution that ends FAULTED without having begun so raised a cause of its row. -/
theorem code_mem_of_exec_faulted {i : Instr} {s t : State} (hs : s.runState ≠ .faulted)
    (h : exec i s = .next t) (ht : t.runState = .faulted) : t.fault.code ∈ i.mnemonic.executionFaults := by
  rcases exec_next_cases h with hdone | ⟨e, hrow, -, rfl⟩
  · rcases hdone.status with hsame | ⟨-, rfl⟩
    · exact absurd (hsame.runState.symm.trans ht) hs
    · cases ht
  · exact hrow

/-! ## The rows -/

/-- From `s` the mnemonic `k`, with some operand, raises the fault code `c` in execution. -/
def RaisedFrom (s : State) (k : Mnemonic) (c : FaultCode) : Prop :=
  ∃ (v : Nat) (t : State), v < 2 ^ s.cfg.width ∧ exec (k.toInstr v) s = .next t ∧
    t.runState = .faulted ∧ t.fault.code = c

/-- With an operand that is wrapped from the count it is read as. -/
theorem raisedFrom_of_count {s : State} {k : Mnemonic} {c : FaultCode} {addr : Nat} {seg : Option Segment}
    {kind : FaultKind} (z : Int)
    (h : exec (k.toInstr (wrap s.cfg.width z)) s = .next (s.faultedWith c addr seg kind)) :
    RaisedFrom s k c :=
  ⟨_, _, wrap_lt _ z, h, rfl, rfl⟩

/-- With an operand of no matter. -/
theorem raisedFrom_of_exec {s : State} {k : Mnemonic} {c : FaultCode} {addr : Nat} {seg : Option Segment}
    {kind : FaultKind} (h : exec (k.toInstr 0) s = .next (s.faultedWith c addr seg kind)) :
    RaisedFrom s k c :=
  ⟨0, _, Nat.two_pow_pos _, h, rfl, rfl⟩

/-- A small count is read back from its word: `W` is at least 16 (R5, R83). -/
theorem signed_wrap_count {s : State} (hc : s.cfg.wellFormed = true) {z : Int} (hlow : -2 ≤ z)
    (hhigh : z ≤ 1) : s.signed (wrap s.cfg.width z) = z := by
  obtain ⟨hwidth, -⟩ := Config.bounds hc
  have hhalf : (2 : Int) ^ 2 ≤ 2 ^ (s.cfg.width - 1) := pow_le_pow_right₀ (by decide) (by omega)
  exact sint_wrap (by omega) (by omega) (by omega)

theorem stackBase_lt_stackTop {c : Config} (hc : c.wellFormed = true) : c.stackBase < c.stackTop := by
  simp only [Config.wellFormed, Bool.and_eq_true, decide_eq_true_eq] at hc
  obtain ⟨⟨⟨⟨⟨⟨⟨⟨⟨⟨⟨-, -⟩, -⟩, -⟩, hlen⟩, -⟩, -⟩, -⟩, -⟩, -⟩, -⟩, -⟩ := hc
  exact Nat.lt_add_of_pos_right hlen

section
variable {s : State} (hs : s.Inv) {k : Mnemonic}
include hs

/-- Every StackUnderflow of the table, with SP and BP at `STACK_TOP`. -/
theorem underflow_raised (hsp : s.sp = s.cfg.stackTop) (hbp : s.bp = s.cfg.stackTop)
    (hrow : FaultCode.stackUnderflow ∈ k.executionFaults) : RaisedFrom s k .stackUnderflow := by
  have hc := hs.cfgWellFormed
  have hlen := stackBase_lt_stackTop hc
  have hempty : s.cfg.stackTop ≤ s.sp := hsp.ge
  cases k with
  | sc =>
    obtain ⟨-, hraise, -⟩ := scStoresTheByte s hc hs.memCanonical
    exact raisedFrom_of_exec (hraise hempty)
  | si =>
    obtain ⟨-, hraise, -⟩ := siStoresTheCell s hc hs.memCanonical
    exact raisedFrom_of_exec (hraise hempty)
  | ret =>
    obtain ⟨-, hraise⟩ := retPopsThePc s hc
    exact raisedFrom_of_exec (hraise hempty)
  | exit =>
    obtain ⟨-, hraise⟩ := exitReportsTheStackTop s
    exact raisedFrom_of_exec (hraise hempty)
  | ent =>
    obtain ⟨-, -, -, hraise⟩ := entBuildsTheFrame s (wrap s.cfg.width (-2)) hc hs.memCanonical
    have hcount := signed_wrap_count (s := s) (z := -2) hc (by decide) (by decide)
    exact raisedFrom_of_count _ (hraise ⟨hsp ▸ hlen, hsp.le⟩ (by omega))
  | adj =>
    obtain ⟨-, hraise, -⟩ := adjMovesTheStackPointer s (wrap s.cfg.width 1) hc
    have hcount := signed_wrap_count (s := s) (z := 1) hc (by decide) (by decide)
    exact raisedFrom_of_count _ (hraise (by omega))
  | lev =>
    obtain ⟨-, -, hraise⟩ := levUnwindsTheFrame s hc
    exact raisedFrom_of_exec (hraise (by omega) (by omega))
  | or | xor | and | eq | ne | lt | gt | le | ge | shl | shr | add | sub | mul | div | mod =>
    exact raisedFrom_of_exec (transact_binaryOp_of_empty hempty)
  | lea | imm | jmp | jz | jnz | call | li | lc | push => exact absurd hrow (by decide)

/-- Every StackOverflow of the table, with SP at `STACK_BASE` and BP below it. -/
theorem overflow_raised (hsp : s.sp = s.cfg.stackBase) (hbp : s.bp < s.cfg.stackBase)
    (hrow : FaultCode.stackOverflow ∈ k.executionFaults) : RaisedFrom s k .stackOverflow := by
  have hc := hs.cfgWellFormed
  cases k with
  | push =>
    obtain ⟨-, hraise⟩ := pushStoresAtTheNewTop s hc hs.memCanonical
    exact raisedFrom_of_exec (hraise hsp)
  | call =>
    obtain ⟨-, hraise⟩ := callPushesTheReturnAddress s 0 (Nat.two_pow_pos _) hc hs.memCanonical
    exact raisedFrom_of_exec (hraise hsp)
  | ent =>
    obtain ⟨-, hraise, -⟩ := entBuildsTheFrame s 0 hc hs.memCanonical
    exact raisedFrom_of_exec (hraise hsp)
  | adj =>
    obtain ⟨-, -, hraise⟩ := adjMovesTheStackPointer s (wrap s.cfg.width (-1)) hc
    have hcount := signed_wrap_count (s := s) (z := -1) hc (by decide) (by decide)
    exact raisedFrom_of_count _ (hraise (by omega))
  | lev =>
    obtain ⟨-, hraise, -⟩ := levUnwindsTheFrame s hc
    exact raisedFrom_of_exec (hraise hbp)
  | lea | imm | jmp | jz | jnz | li | lc | si | sc | or | xor | and | eq | ne | lt | gt | le | ge | shl
  | shr | add | sub | mul | div | mod | exit | ret => exact absurd hrow (by decide)

/-- A load's OutOfBounds, with AX naming no cell. -/
theorem outOfBounds_raised_of_load (hax : cellExists s.cfg s.ax = false) (hk : k = .lc ∨ k = .li) :
    RaisedFrom s k .outOfBounds := by
  rcases hk with rfl | rfl
  · obtain ⟨-, hraise⟩ := lcLoadsTheByte s hs.cfgWellFormed
    exact raisedFrom_of_exec (hraise hax)
  · obtain ⟨-, hraise⟩ := liLoadsTheCell s
    exact raisedFrom_of_exec (hraise hax)

/-- A store's OutOfBounds, with a stack top that names no cell. -/
theorem outOfBounds_raised_of_store (htop : s.hasTop) (hcell : cellExists s.cfg s.top = false)
    (hk : k = .sc ∨ k = .si) : RaisedFrom s k .outOfBounds := by
  rcases hk with rfl | rfl
  · obtain ⟨-, -, hraise, -⟩ := scStoresTheByte s hs.cfgWellFormed hs.memCanonical
    exact raisedFrom_of_exec (hraise htop hcell)
  · obtain ⟨-, -, hraise, -⟩ := siStoresTheCell s hs.cfgWellFormed hs.memCanonical
    exact raisedFrom_of_exec (hraise htop hcell)

/-- Every ArithmeticError of the table, with a stack top and AX 0. -/
theorem arithmeticError_raised (htop : s.hasTop) (hax : s.ax = 0)
    (hrow : FaultCode.arithmeticError ∈ k.executionFaults) : RaisedFrom s k .arithmeticError := by
  obtain ⟨-, hraise, -⟩ := divAndModTruncate s hs.cfgWellFormed
  obtain ⟨hdiv, hmod⟩ := hraise htop hax
  cases k with
  | div => exact raisedFrom_of_exec hdiv
  | mod => exact raisedFrom_of_exec hmod
  | lea | imm | jmp | call | jz | jnz | ent | adj | lev | li | lc | si | sc | push | or | xor | and | eq
  | ne | lt | gt | le | ge | shl | shr | add | sub | mul | exit | ret => exact absurd hrow (by decide)

end

/-- The instructions with an OutOfBounds in their row are the loads and the stores. -/
theorem load_or_store_of_outOfBounds {k : Mnemonic} (h : FaultCode.outOfBounds ∈ k.executionFaults) :
    (k = .lc ∨ k = .li) ∨ (k = .sc ∨ k = .si) := by
  revert h
  cases k <;> decide

/-! ## The two states -/

/-- A block of the default parameters, RUNNING from reset. -/
def launched : State := { State.reset with runState := .running }

theorem launched_inv : launched.Inv :=
  (State.Inv.initial defaultConfig_wellFormed).setRunState (r := .running) (v := 0) nofun nofun
    (Nat.two_pow_pos _) fun _ => rfl

/-- Nothing to pop: SP, BP and AX at `STACK_TOP`, the first address past every window. -/
def emptyStack : State := { launched with ax := 98304 }

theorem emptyStack_inv : emptyStack.Inv :=
  launched_inv.of_sameStatus ⟨rfl, rfl, rfl, rfl⟩ (by decide) (by decide) (by decide) (by decide)
    launched_inv.safeMemory

/-- No room: SP at `STACK_BASE`, on top an address of no cell, BP below the stack, AX 0. -/
def fullStack : State := { launched with sp := 65536, bp := 0, mem := Memory.write [] 65536 98304 }

theorem fullStack_inv : fullStack.Inv :=
  launched_inv.of_sameStatus ⟨rfl, rfl, rfl, rfl⟩ (by decide) (by decide) (by decide) (by decide)
    (SafeMemory.write (a := 65536) (v := 98304) launched_inv.safeMemory (by decide) (by decide))

/-- Every fault of every row, from one of the two states. -/
theorem row_raised {k : Mnemonic} {c : FaultCode} (hrow : c ∈ k.executionFaults) :
    RaisedFrom emptyStack k c ∨ RaisedFrom fullStack k c := by
  cases c with
  | stackUnderflow => exact .inl (underflow_raised emptyStack_inv (by decide) (by decide) hrow)
  | stackOverflow => exact .inr (overflow_raised fullStack_inv (by decide) (by decide) hrow)
  | arithmeticError => exact .inr (arithmeticError_raised fullStack_inv (by decide) (by decide) hrow)
  | outOfBounds =>
    rcases load_or_store_of_outOfBounds hrow with hload | hstore
    · exact .inl (outOfBounds_raised_of_load emptyStack_inv (by decide) hload)
    · exact .inr (outOfBounds_raised_of_store fullStack_inv (by decide) (by decide) hstore)
  | none | unknownInstruction => cases k <;> exact absurd hrow (by decide)

/-- Settles O48: soundness of the rows is `code_mem_of_exec_faulted`, and `row_raised` reaches every entry. -/
theorem executionFaultsAreThoseOfTheTable : Obligations.ExecutionFaultsAreThoseOfTheTable := by
  unfold Obligations.ExecutionFaultsAreThoseOfTheTable
  refine ⟨fun i s t => code_mem_of_exec_faulted, fun k c hrow => ?_⟩
  rcases row_raised hrow with ⟨v, t, hv, hraise⟩ | ⟨v, t, hv, hraise⟩
  · exact ⟨v, emptyStack, t, emptyStack_inv, hv, rfl, hraise⟩
  · exact ⟨v, fullStack, t, fullStack_inv, hv, rfl, hraise⟩

end Sys2Proof.Machine
end

section
/-! The call-frame protocol (R130 to R134): the record CALL and ENT leave, what LEV and RET read back from
it, and the chain of saved BPs. -/

namespace Sys2Proof.Machine

/-! ## The instructions of the protocol, completed -/

/-- A completed CALL with a word for SP: SP is one lower and its cell holds the return address (R124). -/
theorem Completed.call_eq {s t : State} {target : Nat} (h : Completed s (.call target) t)
    (hsp : s.sp ≤ 2 ^ s.cfg.width) : s.cfg.stackBase < s.sp ∧
      t = { s with pc := target, sp := s.sp - 1, mem := s.mem.write (s.sp - 1) (s.pcAfter 2) } := by
  cases h with
  | call _ hroom =>
    rw [cellBelow_eq (Nat.zero_lt_of_lt hroom) hsp]
    exact ⟨hroom, rfl⟩
  | binary hi => cases hi

/-- A completed ENT with a word for SP: BP is the cell below SP, which holds the old BP (R126). -/
theorem Completed.ent_eq {s t : State} {n : Nat} (h : Completed s (.ent n) t)
    (hc : s.cfg.wellFormed = true) (hsp : s.sp ≤ 2 ^ s.cfg.width) :
    s.cfg.stackBase < s.sp ∧ (t.sp : Int) = s.sp - 1 - s.signed n ∧
      t = { s with
        pc := s.pcAfter 2
        sp := t.sp
        bp := s.sp - 1
        mem := s.mem.write (s.sp - 1) s.bp } := by
  cases h with
  | ent _ hroom _ hlow hhigh =>
    have hpos : 0 < s.sp := Nat.zero_lt_of_lt hroom
    rw [wrap_of_stackRange hc hlow hhigh, cellBelow_eq hpos hsp, Nat.cast_pred hpos]
    exact ⟨hroom, rfl, rfl⟩
  | binary hi => cases hi

/-- A completed LEV: SP, BP and PC are what the two cells at BP say (R128). -/
theorem Completed.lev_eq {s t : State} (h : Completed s .lev t) (hc : s.cfg.wellFormed = true) :
    t = { s with pc := s.mem.read (s.bp + 1), sp := s.bp + 2, bp := s.mem.read s.bp } := by
  cases h with
  | lev _ hhigh hsaved hreturn =>
    have hbp : wrap s.cfg.width s.bp = s.bp := wrap_nat (hhigh.trans_lt (stackTop_lt_two_pow_width hc))
    rw [hbp] at hsaved hreturn ⊢
    rw [cellAbove_eq hc hreturn, cellAbove_eq hc hsaved]
  | binary hi => cases hi

/-- A completed RET: PC is the popped cell (R125). -/
theorem Completed.ret_eq {s t : State} (h : Completed s .ret t) (hc : s.cfg.wellFormed = true) :
    t = { s with pc := s.top, sp := s.sp + 1 } := by
  cases h with
  | ret htop => rw [cellAbove_eq hc htop]
  | binary hi => cases hi

/-- A completed PUSH from an SP in range (R120). -/
theorem Completed.push_eq {s t : State} (h : Completed s .push t) (hc : s.cfg.wellFormed = true)
    (hs : s.spInRange) : s.cfg.stackBase < s.sp ∧
      t = { s with pc := s.pcAfter 1, sp := s.sp - 1, mem := s.mem.write (s.sp - 1) s.ax } := by
  obtain ⟨-, hhigh⟩ := hs
  cases h with
  | push hroom =>
    rw [cellBelow_of_room hc ⟨hroom, hhigh⟩]
    exact ⟨hroom, rfl⟩
  | binary hi => cases hi

theorem completed_of_running {i : Instr} {s t : State} (h : exec i s = .next t)
    (ht : t.runState = .running) : Completed s i t :=
  completed_of_not_faulted h (by rw [ht]; decide)

/-! ## The frame -/

/-- `t` is the callee's state after CALL from `s` and ENT with `n` (R130): BP two cells below the caller's
SP, the caller's BP in that cell and the return address above it, SP `n` cells below. -/
structure Framed (s t : State) (n : Nat) : Prop where
  cfg : t.cfg = s.cfg
  base : s.cfg.stackBase + 1 < s.sp
  bp : t.bp = s.sp - 2
  sp : (t.sp : Int) = t.bp - s.signed n
  mem : t.mem = (s.mem.write (s.sp - 1) (s.pcAfter 2)).write (s.sp - 2) s.bp

theorem framed_of_call_ent {s s₁ s₂ : State} {f n : Nat} (hc : s.cfg.wellFormed = true)
    (hsp : s.sp ≤ 2 ^ s.cfg.width) (hcall : Completed s (.call f) s₁) (hent : Completed s₁ (.ent n) s₂) :
    Framed s s₂ n := by
  obtain ⟨hroom, rfl⟩ := hcall.call_eq hsp
  obtain ⟨hroom', hsp₂, heq⟩ := hent.ent_eq hc (Nat.le_trans (Nat.sub_le _ _) hsp)
  dsimp only [State.signed] at hroom' hsp₂
  rw [heq]
  refine ⟨rfl, by omega, rfl, ?_, rfl⟩
  dsimp only [State.signed]
  omega

/-! ## Arguments -/

/-- `t` is `s` after the values `args` were pushed, first to last (R131). -/
structure ArgsPushed (args : List Nat) (s t : State) : Prop where
  cfg : t.cfg = s.cfg
  bp : t.bp = s.bp
  canonical : t.mem.wf
  base : s.cfg.stackBase ≤ t.sp
  sp : t.sp + args.length = s.sp
  read_arg : ∀ (j : Nat) (hj : j < args.length), t.mem.read (s.sp - 1 - j) = args[j]'hj
  read_other : ∀ a, a < t.sp ∨ s.sp ≤ a → t.mem.read a = s.mem.read a

/-- The first push of `pushArgs` completed, and the rest follow it. -/
theorem pushArgs_cons {a : Nat} {args : List Nat} {s t : State} (h : pushArgs (a :: args) s = some t) :
    ∃ u, Completed { s with ax := a } .push u ∧ pushArgs args u = some t := by
  cases hpush : exec .push { s with ax := a } with
  | next u =>
    simp only [pushArgs, hpush] at h
    split_ifs at h with hfaulted
    exact ⟨u, completed_of_not_faulted hpush hfaulted, h⟩
  | fault r => simp [pushArgs, hpush] at h
  | refused r => simp [pushArgs, hpush] at h

theorem argsPushed_of_pushArgs {args : List Nat} {s t : State} (hc : s.cfg.wellFormed = true)
    (hmem : s.mem.wf) (hs : s.spInRange) (h : pushArgs args s = some t) : ArgsPushed args s t := by
  induction args generalizing s with
  | nil =>
    cases h
    exact ⟨rfl, rfl, hmem, hs.1, rfl, nofun, fun _ _ => rfl⟩
  | cons a args ih =>
    obtain ⟨u, hpush, hrest⟩ := pushArgs_cons h
    obtain ⟨hroom, rfl⟩ := hpush.push_eq hc hs
    have hroom : s.cfg.stackBase < s.sp := hroom
    have hbelow : s.cfg.stackBase ≤ s.sp - 1 ∧ s.sp - 1 ≤ s.cfg.stackTop := by
      obtain ⟨-, htop⟩ := hs
      omega
    obtain ⟨hcfg, hbp, hcanonical, hbase, hsp, harg, hother⟩ :=
      ih (s := { s with pc := s.pcAfter 1, ax := a, sp := s.sp - 1, mem := s.mem.write (s.sp - 1) a })
        hc (Memory.write_wf hmem _ _) hbelow hrest
    dsimp only at hcfg hbp hbase hsp harg hother
    refine ⟨hcfg, hbp, hcanonical, hbase, ?_, fun j hj => ?_, fun b hb => ?_⟩
    · rw [List.length_cons]
      omega
    · cases j with
      | zero => rw [Nat.sub_zero, hother _ (.inr le_rfl), Memory.read_write_same hmem, List.getElem_cons_zero]
      | succ j =>
        rw [List.getElem_cons_succ, ← harg j (Nat.lt_of_succ_lt_succ hj)]
        congr 1
        omega
    · rw [hother b (by omega), Memory.read_write_other (by omega)]

/-- What stands in the cells of a frame (R130): the caller's BP at BP, the return address above it, and
every other cell as it was. -/
theorem Framed.read {s t : State} {n : Nat} (h : Framed s t n) (hmem : s.mem.wf) :
    t.mem.read t.bp = s.bp ∧ t.mem.read (t.bp + 1) = s.pcAfter 2 ∧
      ∀ a, a < t.bp ∨ t.bp + 2 ≤ a → t.mem.read a = s.mem.read a := by
  obtain ⟨-, hbase, hbp, -, hmem'⟩ := h
  rw [hmem']
  refine ⟨?_, ?_, fun a ha => ?_⟩
  · rw [hbp, Memory.read_write_same (Memory.write_wf hmem _ _)]
  · rw [show t.bp + 1 = s.sp - 1 by omega, Memory.read_write_other (by omega), Memory.read_write_same hmem]
  · rw [Memory.read_write_other (by omega), Memory.read_write_other (by omega)]

/-- Settles O49: the frame lies on the pushed arguments, so the cells are those of `Framed.read` and, above
and below it, of `ArgsPushed`. -/
theorem activationRecordLayout : Obligations.ActivationRecordLayout := by
  unfold Obligations.ActivationRecordLayout
  intro s s₀ s₁ s₂ args f n hs _ hargs hcall hrun₁ hent hrun₂
  have hc := hs.cfgWellFormed
  obtain ⟨hcfg, hbp₀, hcanonical, hbase₀, hsp₀, harg, hother⟩ :=
    argsPushed_of_pushArgs hc hs.memCanonical hs.spInRange hargs
  have hfits : s₀.sp ≤ 2 ^ s₀.cfg.width := by
    have hsp := hs.wordsFit.sp
    rw [hcfg]
    omega
  have hframe := framed_of_call_ent (hcfg ▸ hc) hfits (completed_of_running hcall hrun₁)
    (completed_of_running hent hrun₂)
  obtain ⟨hsaved, hreturn, hframe_other⟩ := hframe.read hcanonical
  obtain ⟨-, hbase, hbp, hsp, -⟩ := hframe
  refine ⟨hsaved.trans hbp₀, hreturn, fun j hj => ?_, ?_, fun a ha => ?_, by omega⟩
  · rw [hframe_other _ (by omega), ← harg j hj]
    congr 1
    omega
  · rw [hsp, State.signed, hcfg]
  · rw [hframe_other a (.inl ha), hother a (by omega)]

/-- Settles O50: LEV reads back the two cells `Framed.read` names, which the body kept. -/
theorem framesBalance : Obligations.FramesBalance := by
  unfold Obligations.FramesBalance
  intro s s₁ s₂ s₃ s₄ f n hc hmem hsp _ hcall hrun₁ hent hrun₂ hcfg hbp hsaved hreturn hlev hrun₄
  have hframe := framed_of_call_ent hc hsp.le (completed_of_running hcall hrun₁)
    (completed_of_running hent hrun₂)
  obtain ⟨hread, hread', -⟩ := hframe.read hmem
  have hleft := (completed_of_running hlev hrun₄).lev_eq (hcfg ▸ hc)
  obtain ⟨-, hbase, hbp₂, -, -⟩ := hframe
  rw [hleft]
  dsimp only
  rw [hbp, hsaved, hread, hreturn, hread']
  exact ⟨by omega, rfl, rfl⟩

/-- Settles O51: RET pops the cell CALL pushed, which the body kept. -/
theorem framelessCallsReturn : Obligations.FramelessCallsReturn := by
  unfold Obligations.FramelessCallsReturn
  intro s s₁ s₂ s₃ f hc hmem hsp _ hcall hrun₁ hcfg hsp₂ hreturn hret hrun₃
  obtain ⟨hroom, rfl⟩ := (completed_of_running hcall hrun₁).call_eq hsp.le
  dsimp only at hsp₂ hreturn
  rw [(completed_of_running hret hrun₃).ret_eq (hcfg ▸ hc)]
  rw [Memory.read_write_same hmem] at hreturn
  dsimp only [State.top]
  rw [hsp₂, hreturn]
  exact ⟨by omega, rfl⟩

/-! ## The chain -/

/-- A chain is read from the cells of its links alone (R132). -/
theorem isBpChain_congr {m m' : Memory} {launch : Nat} {links : List Nat}
    (h : ∀ b ∈ links, m'.read b = m.read b) (b : Nat) :
    isBpChain m' launch b links = isBpChain m launch b links := by
  induction links generalizing b with
  | nil => rfl
  | cons c links ih =>
    by_cases hb : b = c
    · rw [isBpChain, isBpChain, h b (hb ▸ List.mem_cons_self), ih fun d hd => h d (List.mem_cons_of_mem c hd)]
    · have hne : (b == c) = false := beq_false_of_ne hb
      rw [isBpChain, isBpChain, hne]
      simp only [Bool.false_and]

theorem isBpChain_cons_iff {m : Memory} {launch b c : Nat} {links : List Nat} :
    isBpChain m launch b (c :: links) = true ↔
      b = c ∧ b ≠ launch ∧ isBpChain m launch (m.read b) links = true := by
  simp [isBpChain, and_assoc]

/-- Settles O52: ENT's new link holds the old BP and lies below the others; LEV follows the first link. -/
theorem entAndLevLinkTheBpChain : Obligations.EntAndLevLinkTheBpChain := by
  unfold Obligations.EntAndLevLinkTheBpChain
  constructor
  · intro s t n launch links hc hmem hroom hchain hlinks hlaunch hent ht
    obtain ⟨hbase, htop⟩ := hroom
    obtain ⟨-, -, heq⟩ := (completed_of_not_faulted hent ht).ent_eq hc
      (htop.trans (stackTop_lt_two_pow_width hc).le)
    rw [heq]
    refine isBpChain_cons_iff.2 ⟨rfl, hlaunch, ?_⟩
    dsimp only
    rw [Memory.read_write_same hmem, isBpChain_congr fun b hb => ?_]
    · exact hchain
    · have hb := hlinks b hb
      exact Memory.read_write_other (by omega) _
  · intro s t b launch links hc hchain hlev ht
    rw [(completed_of_not_faulted hlev ht).lev_eq hc]
    obtain ⟨-, -, hrest⟩ := isBpChain_cons_iff.1 hchain
    exact hrest

end Sys2Proof.Machine
end
